-- ==== Sys2Proof/Word.lean ====
section
/-! DEFINITION. The word types of the block, and the things that cross its ports: the numbers that name an operation
(30_encoding.md R113, R115, R116), the answer of the bus target (20_memory.md R63), and the events the environment
can make happen (00_scope.md R11, 10_state.md R40). -/

namespace Sys2Proof

/-- A device register, a bus data word (00_scope.md R10, `REG_W`). -/
abbrev Word16 := BitVec 16

/-- A host data word (30_encoding.md R111). -/
abbrev Word64 := BitVec 64

/-- A binary64 bit pattern: sign in bit 63, exponent in bits 62:52, fraction in bits 51:0 (30_encoding.md R111). -/
abbrev F64 := BitVec 64

/-- A device register address (00_scope.md R10, `REGADDR_W`). -/
abbrev RegAddr := BitVec 8

/-- A host register index (30_encoding.md R110). -/
abbrev HostIndex := BitVec 6

/-- A number on one of the three ports that name an operation. The formats are told apart by the port, not by bits
(30_encoding.md R119). -/
inductive PortWord where
  /-- Format `CMD`: the 64-bit word written to the command register (R113). -/
  | cmd (w : Word64)
  /-- Format `HOST`: the 7-bit descriptor with the 64-bit data word beside it; a read carries none (R115). -/
  | host (w : BitVec 7) (data : Word64)
  /-- Format `BUS`: the 9-bit descriptor of a bus transaction (R116). -/
  | bus (w : BitVec 9)
  deriving DecidableEq, Repr, Inhabited

/-- The answer of the bus target to one transaction (20_memory.md R63): `fail`, or done; a read's answer carries the
wire word `rdata`, and a write's answer does not use it. -/
structure BusAnswer where
  fail  : Bool
  rdata : Word16
  deriving DecidableEq, Repr, Inhabited

/-- What the environment can make happen at the block: one event per turn of one agent (00_scope.md R11). -/
inductive EnvEvent where
  /-- The host writes `w` to the command register: `HWR CMD, w` (30_encoding.md R113). -/
  | command (w : Word64)
  /-- The host makes the access `w` with the data word `data` (30_encoding.md R115). -/
  | access (w : BitVec 7) (data : Word64)
  /-- The block hands the transaction of its phase over to the bus port (20_memory.md R63). -/
  | issue
  /-- The bus target answers the transaction of the block's phase. -/
  | answer (a : BusAnswer)
  /-- The block takes the step that leaves `POLL_WAIT`, if it is enabled (42_fetch_poller.md R181). -/
  | wake
  /-- One tick of the time base (70_reset_and_hazards.md R320). -/
  | tick
  /-- The reset input `rst` is asserted (70_reset_and_hazards.md R300). -/
  | rst
  /-- The input `WALLCLOCK` takes the value `t` (10_state.md R40). -/
  | wallclock (t : Word64)
  deriving DecidableEq, Repr, Inhabited

end Sys2Proof
end

