-- ==== Sys2Proof/Syntax.lean ====
section
/-! DEFINITION. The instructions: the 13 operations of spec/opcode_table.json, one constructor per row
(00_scope.md R3, 30_encoding.md R119). -/

namespace Sys2Proof

/-- One operation. The three commands carry the 60 bits of the command word that the block ignores (30_encoding.md
R113), so that no bit of an encoding is dropped. -/
inductive Instr where
  /-- `CONFIGURE` (41_config_packer.md R155). -/
  | configure (ignored : BitVec 60)
  /-- `FETCH` (42_fetch_poller.md R170). -/
  | fetch (ignored : BitVec 60)
  /-- `PROCESS` (43_decode_scale.md R220). -/
  | process (ignored : BitVec 60)
  /-- `HWR index, data` (44_host_access.md R240). -/
  | hwr (index : HostIndex) (data : Word64)
  /-- `HRD index` (44_host_access.md R245). -/
  | hrd (index : HostIndex)
  /-- `WRREG.CONFIG`: write `DEV_CONFIG` (40_transport.md R131). -/
  | wrregConfig
  /-- `RDREG.SHUNT0`: read device register 0x01 (40_transport.md R132). -/
  | rdregShunt0
  /-- `RDREG.BUS0`: read device register 0x02. -/
  | rdregBus0
  /-- `RDREG.SHUNT1`: read device register 0x03. -/
  | rdregShunt1
  /-- `RDREG.BUS1`: read device register 0x04. -/
  | rdregBus1
  /-- `RDREG.SHUNT2`: read device register 0x05. -/
  | rdregShunt2
  /-- `RDREG.BUS2`: read device register 0x06. -/
  | rdregBus2
  /-- `RDREG.MASKEN`: read device register 0x0F, one poll (42_fetch_poller.md R173). -/
  | rdregMasken
  deriving DecidableEq, Repr

end Sys2Proof
end

