-- ==== Sys2Proof/WellFormed.lean ====
section
/-! DEFINITION. The checks on an operation written as a number (`nbits`, `w`), numbered as spec/opcode_table.json
numbers it: bit 0 is the least significant bit of the first word.

An `Instr` needs no check of its own: each operand is a bit vector of its exact width, every host index (the reserved
ones included, 30_encoding.md R117), every data word and every value of a command word's ignored bits is legal
(R113), and no form is misaligned (20_memory.md R68). So an ill-formed operation can only be written as a number. -/

namespace Sys2Proof

/-- The width is that of a `BUS` descriptor (30_encoding.md R116): 9 bits, 16 in whole bytes. -/
def TableWord.isBus (nbits : Nat) : Bool := nbits == 9 || nbits == 16

/-- The width is that of a `HOST` descriptor (30_encoding.md R115): 7 bits, 8 in whole bytes, or 72 where the 64-bit
data word follows it. -/
def TableWord.isHost (nbits : Nat) : Bool := nbits == 7 || nbits == 8 || nbits == 72

/-- The width is that of a `CMD` word (30_encoding.md R113). -/
def TableWord.isCmd (nbits : Nat) : Bool := nbits == 64

/-- The width is that of one of the formats of 30_encoding.md R108. -/
def TableWord.knownWidth (nbits : Nat) : Bool :=
  TableWord.isBus nbits || TableWord.isHost nbits || TableWord.isCmd nbits

/-- No bit is set above the width. -/
def TableWord.fits (nbits w : Nat) : Bool :=
  decide (w < 2 ^ nbits)

/-- The bits that pad a descriptor to whole bytes are clear: bit 7 of a `HOST` byte, bits 15:9 of a `BUS` word
(formats of 7 and of 9 bits: 30_encoding.md R115, R116). -/
def TableWord.padClear (nbits w : Nat) : Bool :=
  if TableWord.isBus nbits then decide (w / 2 ^ 9 = 0)
  else if TableWord.isHost nbits then decide (w / 2 ^ 7 % 2 = 0)
  else true

/-- A number of `nbits` bits that is a word of one of the three formats. -/
def TableWord.wf (nbits w : Nat) : Bool :=
  TableWord.knownWidth nbits && TableWord.fits nbits w && TableWord.padClear nbits w

end Sys2Proof
end

