-- ==== Sys2Proof/Decode.lean ====
section
/-! DEFINITION. The decoder of the three formats, total and rejecting by name, and after it the encoder written from
the same tables (30_encoding.md R113 to R119). -/

namespace Sys2Proof

/-- Why a number on a port names no operation. -/
inductive DecodeError where
  /-- A reserved command code, 0x0 or 0x4 to 0xF (30_encoding.md R114). -/
  | reservedCommand (code : BitVec 4)
  /-- A bus descriptor that the block never issues (20_memory.md R62, 30_encoding.md R116). -/
  | unusedDescriptor (w : BitVec 9)
  /-- A number that is no word of any format. -/
  | notAWord
  deriving DecidableEq, Repr

/-- The command code of a command word: its low four bits (30_encoding.md R113). -/
def commandCode (w : Word64) : BitVec 4 := w.extractLsb' 0 4

/-- The bits of a command word that the block ignores: 63:4 (30_encoding.md R113). -/
def ignoredBits (w : Word64) : BitVec 60 := w.extractLsb' 4 60

/-- A command word from its ignored bits and its code (30_encoding.md R113). -/
def commandWord (ignored : BitVec 60) (code : BitVec 4) : Word64 := ignored ++ code

/-- A command word (30_encoding.md R113, R114). -/
def decodeCommand (w : Word64) : Except DecodeError Instr :=
  if commandCode w = 0x1#4 then .ok (.configure (ignoredBits w))
  else if commandCode w = 0x2#4 then .ok (.fetch (ignoredBits w))
  else if commandCode w = 0x3#4 then .ok (.process (ignoredBits w))
  else .error (.reservedCommand (commandCode w))

/-- The direction of a host access: bit 6 of its descriptor is 1 for a write (30_encoding.md R115). -/
def accessIsWrite (w : BitVec 7) : Bool := w.getLsbD 6

/-- The index of a host access: bits 5:0 of its descriptor (30_encoding.md R115). -/
def accessIndex (w : BitVec 7) : HostIndex := w.extractLsb' 0 6

/-- A host access descriptor with its data word (30_encoding.md R115). A read carries none: DESIGN CHOICE (entry 12), one
that stands beside a read is dropped. -/
def decodeAccess (w : BitVec 7) (data : Word64) : Except DecodeError Instr :=
  if accessIsWrite w then .ok (.hwr (accessIndex w) data) else .ok (.hrd (accessIndex w))

/-- A bus transaction descriptor: bit 8 is the direction (1 read), bits 7:0 the register address (30_encoding.md
R116, R119). -/
def decodeBus (w : BitVec 9) : Except DecodeError Instr :=
  if w = 0x000#9 then .ok .wrregConfig
  else if w = 0x101#9 then .ok .rdregShunt0
  else if w = 0x102#9 then .ok .rdregBus0
  else if w = 0x103#9 then .ok .rdregShunt1
  else if w = 0x104#9 then .ok .rdregBus1
  else if w = 0x105#9 then .ok .rdregShunt2
  else if w = 0x106#9 then .ok .rdregBus2
  else if w = 0x10F#9 then .ok .rdregMasken
  else .error (.unusedDescriptor w)

/-- The operation a number on a port names. -/
def decode : PortWord → Except DecodeError Instr
  | .cmd w => decodeCommand w
  | .host w data => decodeAccess w data
  | .bus w => decodeBus w

/-- The number that names an operation, on its port. A read has no data word; 0 stands in its place. -/
def encode : Instr → PortWord
  | .configure ignored => .cmd (commandWord ignored 0x1#4)
  | .fetch ignored => .cmd (commandWord ignored 0x2#4)
  | .process ignored => .cmd (commandWord ignored 0x3#4)
  | .hwr index data => .host (1#1 ++ index) data
  | .hrd index => .host (0#1 ++ index) 0
  | .wrregConfig => .bus 0x000#9
  | .rdregShunt0 => .bus 0x101#9
  | .rdregBus0 => .bus 0x102#9
  | .rdregShunt1 => .bus 0x103#9
  | .rdregBus1 => .bus 0x104#9
  | .rdregShunt2 => .bus 0x105#9
  | .rdregBus2 => .bus 0x106#9
  | .rdregMasken => .bus 0x10F#9

/-- The port word a table word stands for: a `HOST` descriptor fills the first byte and its data word the eight bytes
after it, a `BUS` descriptor two bytes, a `CMD` word eight. The port is known by the width (30_encoding.md R119).

DESIGN CHOICE (entry 12): this layout in bytes; that a write descriptor that stands alone (7 or 8 bits) is the write of
the data word 0; that a read descriptor with a data word beside it (72 bits) is the read, its data word dropped; and that
the write descriptor of the bus is read without the wire word beside it. 30_encoding.md R115 and R116 give a word to every
write and none to a read, and do not say what the other forms are. -/
def portWordOf (nbits w : Nat) : Except DecodeError PortWord :=
  if TableWord.wf nbits w then
    if TableWord.isCmd nbits then .ok (.cmd (BitVec.ofNat 64 w))
    else if TableWord.isBus nbits then .ok (.bus (BitVec.ofNat 9 w))
    else .ok (.host (BitVec.ofNat 7 w) (BitVec.ofNat 64 (w / 2 ^ 8)))
  else .error .notAWord

/-- The operation the decoder reads from a table word; none where it refuses. -/
def decodeTableWord (nbits w : Nat) : Option Instr :=
  match portWordOf nbits w with
  | .error _ => none
  | .ok p =>
    match decode p with
    | .ok i => some i
    | .error _ => none

/-- The match and mask of an operation's row of spec/opcode_table.json, with the row's width in bits. -/
def tableRow : Instr → Nat × Nat × Nat
  | .configure _ => (64, 0x1, 0xF)
  | .fetch _ => (64, 0x2, 0xF)
  | .process _ => (64, 0x3, 0xF)
  | .hwr _ _ => (7, 0x40, 0x40)
  | .hrd _ => (7, 0x00, 0x40)
  | .wrregConfig => (9, 0x000, 0x1FF)
  | .rdregShunt0 => (9, 0x101, 0x1FF)
  | .rdregBus0 => (9, 0x102, 0x1FF)
  | .rdregShunt1 => (9, 0x103, 0x1FF)
  | .rdregBus1 => (9, 0x104, 0x1FF)
  | .rdregShunt2 => (9, 0x105, 0x1FF)
  | .rdregBus2 => (9, 0x106, 0x1FF)
  | .rdregMasken => (9, 0x10F, 0x1FF)

/-- The width of the number on a port and the number itself, as the table numbers it. -/
def PortWord.number : PortWord → Nat × Nat
  | .cmd w => (64, w.toNat)
  | .host w _ => (7, w.toNat)
  | .bus w => (9, w.toNat)

end Sys2Proof
end

