-- ==== Sys2Proof/Config.lean ====
section
/-! DEFINITION. The constants of the build (00_scope.md R10, 10_state.md R41) and the values the spec leaves free
(93_implementation_defined.md section 2). A free value is opaque: no proof can see what it is. -/

namespace Sys2Proof

/-- `DEV_ADDR`, the 7-bit device address of every transaction: open, no default (20_memory.md R64, decision D22). -/
opaque Config.devAddr : BitVec 7

/-- `POLL_TICKS`, the ticks between two polls, fixed at build (00_scope.md R10, 42_fetch_poller.md R181). -/
def Config.pollTicks : Nat := 20

/-- `TIMEOUT_RESET` (00_scope.md R10). -/
def Config.timeoutReset : BitVec 32 := 300000

/-- `SHUNT_LSB_RESET`: the binary64 nearest 0.04 (10_state.md R27). -/
def Config.shuntLsbReset : F64 := 0x3FA47AE147AE147B

/-- `BUS_LSB_RESET`: the binary64 nearest 0.008 (10_state.md R27). -/
def Config.busLsbReset : F64 := 0x3F80624DD2F1A9FC

/-- `RSHUNT_RESET`: the binary64 nearest 0.1 (10_state.md R28). -/
def Config.rshuntReset : F64 := 0x3FB999999999999A

/-- Register address of `DEV_CONFIG` (20_memory.md R61). -/
def Config.devConfig : RegAddr := 0x00

/-- Register address of `DEV_MASKEN` (20_memory.md R61). -/
def Config.devMaskEn : RegAddr := 0x0F

/-- Free value: the event the environment makes happen when nothing is lined up in the state's `inbox`; applied to the
counter `draws` (93 V1 to V4). DESIGN CHOICE (entry 1). -/
opaque Config.freeEvent : Nat → EnvEvent

/-- Free value: the sign of a NaN result (43_decode_scale.md R211, 93 V5); applied to the counter `draws`. -/
opaque Config.freeNaNSign : Nat → Bool

/-- Free value: the payload of a NaN result (43_decode_scale.md R211, 93 V5); applied to the counter `draws`. -/
opaque Config.freeNaNPayload : Nat → BitVec 52

/-- The numerics as a record (43_decode_scale.md R212): a number type with its four operations and the constant 1000.
`mul`, `add` and `div` take first the index of the free value that a NaN result draws (R211). -/
structure Numerics (Q : Type) where
  ofInt    : Int → Q
  mul      : Nat → Q → Q → Q
  add      : Nat → Q → Q → Q
  div      : Nat → Q → Q → Q
  thousand : Q

end Sys2Proof
end

