-- ==== Sys2Proof/Machine/State.lean ====
section
/-! DEFINITION. The state of the block as plain data (10_state.md R20), the model's own fields beside it, the reasons a
step can stop, and the state after reset (10_state.md R44). -/

namespace Sys2Proof.Machine

open Sys2Proof

/-- A channel: 0 source ("solar"), 1 storage ("battery"), 2 load (00_scope.md R14). -/
inductive Channel where
  | ch0 | ch1 | ch2
  deriving DecidableEq, Repr

/-- One value per channel. -/
structure PerChannel (α : Type) where
  ch0 : α
  ch1 : α
  ch2 : α
  deriving DecidableEq, Repr

/-- The raw sample: six corrected 16-bit words (10_state.md R21). -/
structure RawSample where
  /-- `RAW_SHUNT[c]`. -/
  shunt : PerChannel Word16
  /-- `RAW_BUS[c]`. -/
  bus   : PerChannel Word16
  deriving DecidableEq, Repr

/-- The five processed quantities of one channel (10_state.md R22). -/
structure ChannelSample where
  /-- `SHUNT_MV[c]`, shunt voltage in mV. -/
  shuntMv   : F64
  /-- `BUS_V[c]`, bus voltage in V. -/
  busV      : F64
  /-- `LOAD_V[c]`, load voltage in V. -/
  loadV     : F64
  /-- `CURRENT_MA[c]`, current in mA. -/
  currentMa : F64
  /-- `POWER_MW[c]`, power in mW. -/
  powerMw   : F64
  deriving DecidableEq, Repr

/-- The eight option registers of the configuration word (10_state.md R24). -/
structure Options where
  /-- `CFG_RST`. -/
  rst    : BitVec 1
  /-- `CFG_EN1`, the enable flag of channel 0. -/
  en1    : BitVec 1
  /-- `CFG_EN2`, the enable flag of channel 1. -/
  en2    : BitVec 1
  /-- `CFG_EN3`, the enable flag of channel 2. -/
  en3    : BitVec 1
  /-- `CFG_AVG`. -/
  avg    : BitVec 3
  /-- `CFG_VBUSCT`. -/
  vbusct : BitVec 3
  /-- `CFG_VSHCT`. -/
  vshct  : BitVec 3
  /-- `CFG_MODE`. -/
  mode   : BitVec 3
  deriving DecidableEq, Repr

/-- The five calibration registers (10_state.md R27, R28). -/
structure Calibration where
  /-- `SHUNT_LSB`, mV per count. -/
  shuntLsb : F64
  /-- `BUS_LSB`, V per count. -/
  busLsb   : F64
  /-- `RSHUNT[c]`, Ω. -/
  rshunt   : PerChannel F64
  deriving DecidableEq, Repr

/-- The six staging registers `STG[0..5]` (10_state.md R37). -/
structure Staging where
  w0 : Word16
  w1 : Word16
  w2 : Word16
  w3 : Word16
  w4 : Word16
  w5 : Word16
  deriving DecidableEq, Repr

/-- The phases of the sequencer (10_state.md R36). -/
inductive Seq where
  | idle
  | cfgWr
  | pollRd
  | pollWait
  | dataRd (i : Fin 6)
  deriving DecidableEq, Repr

/-- The outcomes `ERR` can hold: codes 0 to 4; 5 to 7 never occur (10_state.md R32, 60_exceptions.md R261). -/
inductive ErrCode where
  | ok
  | busError
  | fetchTimeout
  | notConfigured
  | badCommand
  deriving DecidableEq, Repr

/-- An event on the bus port: a transaction is recorded when it is issued, with the wire word written, and its answer
when it is handled (20_memory.md R78, 93 V13). The device is `Config.devAddr` in every one (R64). -/
inductive BusEvent where
  /-- A write of wire word `w` to register `a` is issued. -/
  | write (a : RegAddr) (w : Word16)
  /-- A read of register `a` is issued. -/
  | read (a : RegAddr)
  /-- The write is answered `done`. -/
  | done
  /-- The read is answered with wire word `w`. -/
  | data (w : Word16)
  /-- The transaction is answered `fail`. -/
  | fail
  deriving DecidableEq, Repr

/-- An event of the history (20_memory.md R78). -/
inductive HistEvent where
  | bus (e : BusEvent)
  | tick
  /-- A host write of `d` to index `i`, the ignored ones included. -/
  | hostWrite (i : HostIndex) (d : Word64)
  /-- A host read of index `i` that returned `w`. -/
  | hostRead (i : HostIndex) (w : Word64)
  /-- `WALLCLOCK` was sampled with the value `t`. -/
  | wallclockSample (t : Word64)
  deriving DecidableEq, Repr

/-- What a host index selects (30_encoding.md R110, 44_host_access.md R244). -/
inductive HostReg where
  | cmd
  | status
  | timeout
  | cfgWord
  | cfgRst
  | cfgEn1
  | cfgEn2
  | cfgEn3
  | cfgAvg
  | cfgVbusct
  | cfgVshct
  | cfgMode
  | shuntLsb
  | busLsb
  | fetchTs
  | rawShunt (c : Channel)
  | rawBus (c : Channel)
  | rshunt (c : Channel)
  | shuntMv (c : Channel)
  | busV (c : Channel)
  | loadV (c : Channel)
  | currentMa (c : Channel)
  | powerMw (c : Channel)
  | shuntCnt (c : Channel)
  | busCnt (c : Channel)
  | reserved
  deriving DecidableEq, Repr

/-- The state: every element of 10_state.md R20, and after them the model's own fields. -/
structure State where
  /-- `RAW_SHUNT`, `RAW_BUS` (R21). -/
  raw        : RawSample
  /-- The processed sample (R22). -/
  proc       : PerChannel ChannelSample
  /-- `CFG_RST` to `CFG_MODE` (R24). -/
  options    : Options
  /-- `SHUNT_LSB`, `BUS_LSB`, `RSHUNT` (R27, R28). -/
  cal        : Calibration
  /-- `TIMEOUT` in ticks (R29). -/
  timeout    : BitVec 32
  /-- `FETCHED` (R30). -/
  fetched    : Bool
  /-- `CONFIGURED` (R31). -/
  configured : Bool
  /-- `ERR` (R32). -/
  err        : ErrCode
  /-- `BUSY` (R33). -/
  busy       : Bool
  /-- `FETCH_TS` (R35). -/
  fetchTs    : Word64
  /-- `seq` (R36). -/
  seq        : Seq
  /-- `CFGLATCH` (R26). -/
  cfgLatch   : Word16
  /-- `STG[0..5]` (R37). -/
  stg        : Staging
  /-- `T0`, the start of the watchdog's interval (R38). -/
  t0         : Word64
  /-- `W0`, the start of one sleep (R38). -/
  w0         : Word64
  /-- `NOW`, ticks since reset (R39). -/
  now        : Word64
  /-- The model's own: the transaction of the phase is handed over and not yet answered (20_memory.md R63; entry 6). -/
  inFlight   : Bool
  /-- The model's own: the response side of the bus port, an input (10_state.md R40). -/
  busIn      : BusAnswer
  /-- The model's own: the input `WALLCLOCK` (10_state.md R40; entry 7). -/
  wallclock  : Word64
  /-- The model's own: the environment events lined up, the next one first (entry 1). -/
  inbox      : List EnvEvent
  /-- The model's own: the counter to which the free values of Config are applied (entries 1 and 5). -/
  draws      : Nat
  /-- The model's own: the event history, the latest event first (20_memory.md R78; entry 8). -/
  history    : List HistEvent
  deriving DecidableEq, Repr

/-- The reasons a step can stop with a fault: none. "Nothing in the block is undefined behaviour" (60_exceptions.md
R281); nothing traps, splits or is undefined for alignment reasons (20_memory.md R68). No meaning raises one. Safe:
a type without constructors rules nothing out. -/
inductive Fault where
  deriving DecidableEq, Repr

/-- The reasons an instruction can have no meaning. -/
inductive Refusal where
  /-- An instruction of the table without a meaning yet, raised by its arm of `exec` alone; no arm of this model raises
  it. Safe. -/
  | notModelled (mnemonic : String)
  deriving DecidableEq, Repr

/-- The same value for each channel. -/
def PerChannel.replicate {α : Type} (v : α) : PerChannel α := ⟨v, v, v⟩

/-- The option registers after reset: the source's default configuration (10_state.md R24). -/
def Options.reset : Options :=
  { rst := 1, en1 := 1, en2 := 1, en3 := 1, avg := 0b111, vbusct := 0b100, vshct := 0b100, mode := 0b011 }

/-- The calibration registers after reset (10_state.md R27, R28). -/
def Calibration.reset : Calibration :=
  { shuntLsb := Config.shuntLsbReset, busLsb := Config.busLsbReset,
    rshunt := PerChannel.replicate Config.rshuntReset }

/-- The machine right after reset (10_state.md R44). The spec gives a value for every element of the block; the
model's own fields are empty, 0 or false: DESIGN CHOICE (entry 4). -/
def State.reset : State :=
  { raw := ⟨PerChannel.replicate 0, PerChannel.replicate 0⟩
    proc := PerChannel.replicate ⟨0, 0, 0, 0, 0⟩
    options := Options.reset
    cal := Calibration.reset
    timeout := Config.timeoutReset
    fetched := false
    configured := false
    err := .ok
    busy := false
    fetchTs := 0
    seq := .idle
    cfgLatch := 0
    stg := ⟨0, 0, 0, 0, 0, 0⟩
    t0 := 0
    w0 := 0
    now := 0
    inFlight := false
    busIn := ⟨false, 0⟩
    wallclock := 0
    inbox := []
    draws := 0
    history := [] }

end Sys2Proof.Machine
end

