-- ==== Sys2Proof/Machine/Operands.lean ====
section
/-! DEFINITION. The four ways the block assembles and takes apart operands (30_encoding.md R118), the host index map
(30_encoding.md R110), and the selectors of the registers that come in threes and sixes. -/

namespace Sys2Proof.Machine

open Sys2Proof

/-- `SWAP16(v)`: the two bytes exchanged (40_transport.md R130). -/
def swap16 (v : Word16) : Word16 :=
  ((v &&& 0x00FF) <<< 8) ||| ((v >>> 8) &&& 0x00FF)

/-- The bytes of a wire word in the order they travel: the bus primitive is little-endian (20_memory.md R66). -/
def wireBytes (w : Word16) : List (BitVec 8) :=
  [w.extractLsb' 0 8, w.extractLsb' 8 8]

/-- `PACK`: the configuration word from the eight option fields (41_config_packer.md R150). -/
def pack (o : Options) : Word16 :=
  (o.rst.setWidth 16 <<< 15) ||| (o.en1.setWidth 16 <<< 14) ||| (o.en2.setWidth 16 <<< 13)
    ||| (o.en3.setWidth 16 <<< 12) ||| (o.avg.setWidth 16 <<< 9) ||| (o.vbusct.setWidth 16 <<< 6)
    ||| (o.vshct.setWidth 16 <<< 3) ||| o.mode.setWidth 16

/-- The fields of a configuration word by the bit positions of 30_encoding.md R90: the inverse of `PACK` that a test
bench uses (41_config_packer.md R153). No meaning calls it. -/
def fieldsOf (w : Word16) : Options :=
  { rst := w.extractLsb' 15 1, en1 := w.extractLsb' 14 1, en2 := w.extractLsb' 13 1, en3 := w.extractLsb' 12 1,
    avg := w.extractLsb' 9 3, vbusct := w.extractLsb' 6 3, vshct := w.extractLsb' 3 3, mode := w.extractLsb' 0 3 }

/-- `q` of the negative path: `(raw - 1) >> 3`, a logical shift of the 16-bit value (43_decode_scale.md R202). -/
def negativeQuotient (raw : Word16) : Word16 := (raw - 1) >>> 3

/-- `DECODE(raw)`: the signed count of a corrected data word (43_decode_scale.md R200). -/
def decodeCount (raw : Word16) : Int :=
  if raw.getLsbD 15 then -(((~~~ negativeQuotient raw) &&& 0xFFF).toNat : Int)
  else (((raw >>> 3) &&& 0xFFF).toNat : Int)

/-- The conversion-ready flag: bit 0 of the corrected mask/enable word (30_encoding.md R105). -/
def readyFlag (m : Word16) : Bool := m.getLsbD 0

/-- The register address of `DATA_RD(i)`: 0x01 + i (42_fetch_poller.md R179). -/
def dataAddr (i : Fin 6) : RegAddr := BitVec.ofNat 8 (1 + i.val)

/-- The bus descriptor of a write of register `a` (30_encoding.md R116). -/
def writeDescriptor (a : RegAddr) : BitVec 9 := 0#1 ++ a

/-- The bus descriptor of a read of register `a` (30_encoding.md R116). -/
def readDescriptor (a : RegAddr) : BitVec 9 := 1#1 ++ a

/-- The value of channel `c`. -/
def PerChannel.get {α : Type} (p : PerChannel α) : Channel → α
  | .ch0 => p.ch0
  | .ch1 => p.ch1
  | .ch2 => p.ch2

/-- The value of channel `c` replaced by `v`. -/
def PerChannel.set {α : Type} (p : PerChannel α) (v : α) : Channel → PerChannel α
  | .ch0 => { p with ch0 := v }
  | .ch1 => { p with ch1 := v }
  | .ch2 => { p with ch2 := v }

/-- `STG[i]`. -/
def Staging.get (g : Staging) (i : Fin 6) : Word16 :=
  match i.val with
  | 0 => g.w0
  | 1 => g.w1
  | 2 => g.w2
  | 3 => g.w3
  | 4 => g.w4
  | _ => g.w5

/-- `STG[i] <- v`. -/
def Staging.set (g : Staging) (i : Fin 6) (v : Word16) : Staging :=
  match i.val with
  | 0 => { g with w0 := v }
  | 1 => { g with w1 := v }
  | 2 => { g with w2 := v }
  | 3 => { g with w3 := v }
  | 4 => { g with w4 := v }
  | _ => { g with w5 := v }

/-- What a host index selects: the map of 30_encoding.md R110; every index not in it is reserved (R117). -/
def hostReg (i : HostIndex) : HostReg :=
  match i.toNat with
  | 0x00 => .cmd
  | 0x01 => .status
  | 0x02 => .timeout
  | 0x03 => .cfgWord
  | 0x04 => .cfgRst
  | 0x05 => .cfgEn1
  | 0x06 => .cfgEn2
  | 0x07 => .cfgEn3
  | 0x08 => .cfgAvg
  | 0x09 => .cfgVbusct
  | 0x0A => .cfgVshct
  | 0x0B => .cfgMode
  | 0x0C => .shuntLsb
  | 0x0D => .busLsb
  | 0x0E => .fetchTs
  | 0x10 => .rawShunt .ch0
  | 0x11 => .rawBus .ch0
  | 0x12 => .rawShunt .ch1
  | 0x13 => .rawBus .ch1
  | 0x14 => .rawShunt .ch2
  | 0x15 => .rawBus .ch2
  | 0x18 => .rshunt .ch0
  | 0x19 => .rshunt .ch1
  | 0x1A => .rshunt .ch2
  | 0x20 => .shuntMv .ch0
  | 0x21 => .shuntMv .ch1
  | 0x22 => .shuntMv .ch2
  | 0x24 => .busV .ch0
  | 0x25 => .busV .ch1
  | 0x26 => .busV .ch2
  | 0x28 => .loadV .ch0
  | 0x29 => .loadV .ch1
  | 0x2A => .loadV .ch2
  | 0x2C => .currentMa .ch0
  | 0x2D => .currentMa .ch1
  | 0x2E => .currentMa .ch2
  | 0x30 => .powerMw .ch0
  | 0x31 => .powerMw .ch1
  | 0x32 => .powerMw .ch2
  | 0x34 => .shuntCnt .ch0
  | 0x35 => .shuntCnt .ch1
  | 0x36 => .shuntCnt .ch2
  | 0x38 => .busCnt .ch0
  | 0x39 => .busCnt .ch1
  | 0x3A => .busCnt .ch2
  | _ => .reserved

/-- A count as the host reads it: 13 bits two's complement, sign-extended to 64 (30_encoding.md R111, 44_host_access.md
R246). -/
def countWord (count : Int) : Word64 := (BitVec.ofInt 13 count).signExtend 64

end Sys2Proof.Machine
end

