-- ==== Sys2Proof/Machine/Flags.lean ====
section
/-! DEFINITION. The flags: the codes of `ERR`, the word `STATUS` packs from them, and the two comparisons of the time
base that decide an outcome (10_state.md R30 to R34, 60_exceptions.md R276). No operation has another flag side effect
(10_state.md R34). -/

namespace Sys2Proof.Machine

open Sys2Proof

/-- The code of an outcome (60_exceptions.md R261). -/
def ErrCode.code : ErrCode → BitVec 3
  | .ok => 0
  | .busError => 1
  | .fetchTimeout => 2
  | .notConfigured => 3
  | .badCommand => 4

/-- `STATUS`: bit 0 `BUSY`, bit 1 `CONFIGURED`, bit 2 `FETCHED`, bit 3 zero, bits 6:4 `ERR`, the rest zero
(30_encoding.md R112). -/
def statusWord (s : State) : Word64 :=
  (s.err.code ++ 0#1 ++ BitVec.ofBool s.fetched ++ BitVec.ofBool s.configured ++ BitVec.ofBool s.busy).setWidth 64

/-- The watchdog's comparison, 64-bit unsigned: `NOW - T0 >= zext_64(TIMEOUT)` (42_fetch_poller.md R177). -/
def watchdogExpired (s : State) : Bool :=
  decide (s.timeout.setWidth 64 ≤ s.now - s.t0)

/-- The poll timer's comparison: `NOW - W0 >= POLL_TICKS` (42_fetch_poller.md R181). -/
def sleepOver (s : State) : Bool :=
  decide (Config.pollTicks ≤ (s.now - s.w0).toNat)

end Sys2Proof.Machine
end

