-- ==== Sys2Proof/Machine/Ops.lean ====
section
/-! DEFINITION. The shared operations over the state: the event history, the bus port, taking an outcome and what comes
after it, the time base, reset, and the reads and writes of host registers. -/

namespace Sys2Proof.Machine

open Sys2Proof

/-- The history with the event `e` (20_memory.md R78). -/
def State.record (s : State) (e : HistEvent) : State :=
  { s with history := e :: s.history }

/-! ## Outcomes

The block has no trap mechanism: an error or a refusal saves nothing but the code in `ERR`, and there is no handler
address, mode change, mask or stack (60_exceptions.md R272). -/

/-- The end of a running command with the outcome `e`: the code in `ERR`, and control back to `IDLE` (60_exceptions.md
R272; R262 and R263 for the errors, 41_config_packer.md R156 and 42_fetch_poller.md R180 for `OK`). -/
def State.endCommand (s : State) (e : ErrCode) : State :=
  { s with err := e, busy := false, seq := .idle }

/-- The refusal of a command with the outcome `e`: the code in `ERR` and nothing else (60_exceptions.md R264, R266). -/
def State.refuseCommand (s : State) (e : ErrCode) : State :=
  { s with err := e }

/-- A command is accepted exactly while the block is not busy (44_host_access.md R240, R242). This is all there is to
the return from an outcome: there is no return operation, after any outcome the block is idle and accepts the next
command at once, and `ERR` is overwritten by the next outcome alone (60_exceptions.md R273). -/
def State.accepts (s : State) : Bool := !s.busy

/-! ## The bus port -/

/-- A transaction handed over on the bus port (20_memory.md R63). -/
def BusEvent.descriptor : BusEvent → Option (BitVec 9)
  | .write a _ => some (writeDescriptor a)
  | .read a => some (readDescriptor a)
  | .done | .data _ | .fail => none

/-- The device a transaction is addressed to: `DEV_ADDR` in every one (20_memory.md R63, R64). -/
def BusEvent.device : BusEvent → Option (BitVec 7)
  | .write _ _ | .read _ => some Config.devAddr
  | .done | .data _ | .fail => none

/-- The transaction that the phase names: the one the block issues next (10_state.md R36, 42_fetch_poller.md R185). -/
def State.transaction (s : State) : Option BusEvent :=
  match s.seq with
  | .idle => none
  | .cfgWr => some (.write Config.devConfig (swap16 s.cfgLatch))
  | .pollRd => some (.read Config.devMaskEn)
  | .pollWait => none
  | .dataRd i => some (.read (dataAddr i))

/-- The transaction `e` is handed over, unless it already is: no transaction is issued twice (20_memory.md R73). -/
def State.issue (s : State) (e : BusEvent) : State :=
  if s.inFlight then s else { s.record (.bus e) with inFlight := true }

/-- The answer recorded as `e` ends the transaction. -/
def State.answered (s : State) (e : BusEvent) : State :=
  { s.record (.bus e) with inFlight := false }

/-- `WRREG a, v`: the write of the corrected word `v` as the wire word `SWAP16(v)`, and whether the target answered
`done` (40_transport.md R131). -/
def wrreg (a : RegAddr) (v : Word16) (s : State) : Bool × State :=
  let issued := s.issue (.write a (swap16 v))
  if s.busIn.fail then (false, issued.answered .fail) else (true, issued.answered .done)

/-- `RDREG a`: the corrected word read, or none where the target answered `fail` (40_transport.md R132). -/
def rdreg (a : RegAddr) (s : State) : Option Word16 × State :=
  let issued := s.issue (.read a)
  if s.busIn.fail then (none, issued.answered .fail)
  else (some (swap16 s.busIn.rdata), issued.answered (.data s.busIn.rdata))

/-! ## Time base and inputs -/

/-- One tick: `NOW` takes one more (70_reset_and_hazards.md R320). -/
def State.tick (s : State) : State :=
  { s.record .tick with now := s.now + 1 }

/-- The input `rst`: every element of the block takes its reset value and a transaction in flight is abandoned; the
inputs, the environment and the record of the run are not the block's (70_reset_and_hazards.md R300 to R302). -/
def State.blockReset (s : State) : State :=
  { State.reset with
    busIn := s.busIn, wallclock := s.wallclock, inbox := s.inbox, draws := s.draws, history := s.history }

/-! ## Host registers -/

/-- The word a host read of register `r` returns (44_host_access.md R246, 30_encoding.md R111, R117). -/
def readReg (r : HostReg) (s : State) : Word64 :=
  match r with
  | .cmd => 0
  | .status => statusWord s
  | .timeout => s.timeout.setWidth 64
  | .cfgWord => (pack s.options).setWidth 64
  | .cfgRst => s.options.rst.setWidth 64
  | .cfgEn1 => s.options.en1.setWidth 64
  | .cfgEn2 => s.options.en2.setWidth 64
  | .cfgEn3 => s.options.en3.setWidth 64
  | .cfgAvg => s.options.avg.setWidth 64
  | .cfgVbusct => s.options.vbusct.setWidth 64
  | .cfgVshct => s.options.vshct.setWidth 64
  | .cfgMode => s.options.mode.setWidth 64
  | .shuntLsb => s.cal.shuntLsb
  | .busLsb => s.cal.busLsb
  | .fetchTs => s.fetchTs
  | .rawShunt c => (s.raw.shunt.get c).setWidth 64
  | .rawBus c => (s.raw.bus.get c).setWidth 64
  | .rshunt c => s.cal.rshunt.get c
  | .shuntMv c => (s.proc.get c).shuntMv
  | .busV c => (s.proc.get c).busV
  | .loadV c => (s.proc.get c).loadV
  | .currentMa c => (s.proc.get c).currentMa
  | .powerMw c => (s.proc.get c).powerMw
  | .shuntCnt c => countWord (decodeCount (s.raw.shunt.get c))
  | .busCnt c => countWord (decodeCount (s.raw.bus.get c))
  | .reserved => 0

/-- The write of `d` to register `r`: the low bits of `d` that the register holds; a read-only register, a view, a
reserved index and the command port store nothing (44_host_access.md R240, 30_encoding.md R111, R113, R117). -/
def writeReg (r : HostReg) (d : Word64) (s : State) : State :=
  match r with
  | .timeout => { s with timeout := d.setWidth 32 }
  | .cfgRst => { s with options := { s.options with rst := d.setWidth 1 } }
  | .cfgEn1 => { s with options := { s.options with en1 := d.setWidth 1 } }
  | .cfgEn2 => { s with options := { s.options with en2 := d.setWidth 1 } }
  | .cfgEn3 => { s with options := { s.options with en3 := d.setWidth 1 } }
  | .cfgAvg => { s with options := { s.options with avg := d.setWidth 3 } }
  | .cfgVbusct => { s with options := { s.options with vbusct := d.setWidth 3 } }
  | .cfgVshct => { s with options := { s.options with vshct := d.setWidth 3 } }
  | .cfgMode => { s with options := { s.options with mode := d.setWidth 3 } }
  | .shuntLsb => { s with cal := { s.cal with shuntLsb := d } }
  | .busLsb => { s with cal := { s.cal with busLsb := d } }
  | .rshunt c => { s with cal := { s.cal with rshunt := s.cal.rshunt.set d c } }
  | .cmd | .status | .cfgWord | .fetchTs | .rawShunt _ | .rawBus _ | .shuntMv _ | .busV _ | .loadV _
  | .currentMa _ | .powerMw _ | .shuntCnt _ | .busCnt _ | .reserved => s

end Sys2Proof.Machine
end

