-- ==== Sys2Proof/Machine/Configure.lean ====
section
/-! DEFINITION. The configuration family: the command `CONFIGURE` and its bus write (41_config_packer.md). -/

namespace Sys2Proof.Machine

open Sys2Proof

/-- `CONFIGURE` accepted (41_config_packer.md R155). -/
def acceptConfigure (s : State) : State :=
  { s with cfgLatch := pack s.options, busy := true, seq := .cfgWr }

/-- `CONFIGURE`: the command word with code 0x1, whose other bits are ignored, is written to `CMD`; ignored while busy
(41_config_packer.md R155, 44_host_access.md R242). -/
def execConfigure (ignored : BitVec 60) (s : State) : Host.Outcome State Fault Refusal :=
  let written := s.record (.hostWrite 0#6 (commandWord ignored 0x1#4))
  .next (if s.accepts then acceptConfigure written else written)

/-- The answer to the configuration write (41_config_packer.md R156, R157). -/
def configureAnswer (done : Bool) (s : State) : State :=
  if done then { s with configured := true }.endCommand .ok
  else { s with configured := false }.endCommand .busError

/-- `WRREG.CONFIG`: the one bus write of `CONFIGURE`, issued only in phase `CFG_WR` (41_config_packer.md R156, R157);
in another phase it has no step (42_fetch_poller.md R185; entry 3). -/
def execWrregConfig (s : State) : Host.Outcome State Fault Refusal :=
  if s.seq = .cfgWr then
    let (done, t) := wrreg Config.devConfig s.cfgLatch s
    .next (configureAnswer done t)
  else .next s

end Sys2Proof.Machine
end

