-- ==== Sys2Proof/Machine/Fetch.lean ====
section
/-! DEFINITION. The fetch family: the command `FETCH`, the poll with its watchdog, the sleep, the six data reads and
the commit (42_fetch_poller.md). -/

namespace Sys2Proof.Machine

open Sys2Proof

/-- `FETCH` accepted (42_fetch_poller.md R172). -/
def acceptFetch (s : State) : State :=
  { s with t0 := s.now, busy := true, seq := .pollRd }

/-- `FETCH` written while idle: accepted if the block is configured, else refused (42_fetch_poller.md R171, R172). -/
def startFetch (s : State) : State :=
  if s.configured then acceptFetch s else s.refuseCommand .notConfigured

/-- `FETCH`: the command word with code 0x2, whose other bits are ignored, is written to `CMD`; ignored while busy
(42_fetch_poller.md R170 to R172, 44_host_access.md R242). -/
def execFetch (ignored : BitVec 60) (s : State) : Host.Outcome State Fault Refusal :=
  let written := s.record (.hostWrite 0#6 (commandWord ignored 0x2#4))
  .next (if s.accepts then startFetch written else written)

/-- `FetchTimeout`: the watchdog expired (42_fetch_poller.md R178). -/
def fetchTimedOut (s : State) : State :=
  { s with fetched := false }.endCommand .fetchTimeout

/-- A poll returned the corrected word `m`: the flag is tested before the watchdog (42_fetch_poller.md R174, R175,
R177). -/
def pollAnswer (m : Word16) (s : State) : State :=
  if readyFlag m then { s with seq := .dataRd 0 }
  else if watchdogExpired s then fetchTimedOut s
  else { s with w0 := s.now, seq := .pollWait }

/-- `RDREG.MASKEN`: one poll, issued only in phase `POLL_RD` (42_fetch_poller.md R173 to R178); a failed read is
`BusError` (R182); in another phase it has no step (R185; entry 3). -/
def execRdregMasken (s : State) : Host.Outcome State Fault Refusal :=
  if s.seq = .pollRd then
    match rdreg Config.devMaskEn s with
    | (some m, t) => .next (pollAnswer m t)
    | (none, t) => .next (t.endCommand .busError)
  else .next s

/-- The step that leaves `POLL_WAIT` when the sleep is over (42_fetch_poller.md R181); not enabled, it changes
nothing. -/
def State.wake (s : State) : State :=
  if s.seq = .pollWait ∧ sleepOver s = true then { s with seq := .pollRd } else s

/-- The commit of a successful `FETCH` (42_fetch_poller.md R180). -/
def commit (s : State) : State :=
  { s.record (.wallclockSample s.wallclock) with
    raw := { shunt := ⟨s.stg.get 0, s.stg.get 2, s.stg.get 4⟩, bus := ⟨s.stg.get 1, s.stg.get 3, s.stg.get 5⟩ }
    fetched := true
    fetchTs := s.wallclock }.endCommand .ok

/-- A data read of phase `DATA_RD(i)` returned the corrected word `v` (42_fetch_poller.md R179). -/
def dataAnswer (i : Fin 6) (v : Word16) (s : State) : State :=
  let staged := { s with stg := s.stg.set i v }
  if i.val < 5 then { staged with seq := .dataRd (i + 1) } else commit staged

/-- The data read of phase `DATA_RD(i)` (42_fetch_poller.md R179); a failed read is `BusError` (R182); in another phase
it has no step (R185; entry 3). -/
def dataRead (i : Fin 6) (s : State) : State :=
  if s.seq = .dataRd i then
    match rdreg (dataAddr i) s with
    | (some v, t) => dataAnswer i v t
    | (none, t) => t.endCommand .busError
  else s

/-- `RDREG.SHUNT0`: the data read of phase `DATA_RD(0)`. -/
def execRdregShunt0 (s : State) : Host.Outcome State Fault Refusal := .next (dataRead 0 s)

/-- `RDREG.BUS0`: the data read of phase `DATA_RD(1)`. -/
def execRdregBus0 (s : State) : Host.Outcome State Fault Refusal := .next (dataRead 1 s)

/-- `RDREG.SHUNT1`: the data read of phase `DATA_RD(2)`. -/
def execRdregShunt1 (s : State) : Host.Outcome State Fault Refusal := .next (dataRead 2 s)

/-- `RDREG.BUS1`: the data read of phase `DATA_RD(3)`. -/
def execRdregBus1 (s : State) : Host.Outcome State Fault Refusal := .next (dataRead 3 s)

/-- `RDREG.SHUNT2`: the data read of phase `DATA_RD(4)`. -/
def execRdregShunt2 (s : State) : Host.Outcome State Fault Refusal := .next (dataRead 4 s)

/-- `RDREG.BUS2`: the data read of phase `DATA_RD(5)`, which commits. -/
def execRdregBus2 (s : State) : Host.Outcome State Fault Refusal := .next (dataRead 5 s)

end Sys2Proof.Machine
end

