-- ==== Sys2Proof/Machine/Float.lean ====
section
/-! DEFINITION. Binary64 arithmetic on bit patterns (43_decode_scale.md R210, R211): each operation is rounded once, to
nearest with ties to even, from the exact result of its two operands.

Every finite binary64 magnitude is a whole number of units of 2^-1074, the least subnormal. So the exact result of an
operation is a ratio of two natural numbers of units, and one rounding function serves all of them. -/

namespace Sys2Proof.Machine

open Sys2Proof

/-- The units in 1.0. -/
@[irreducible] def unitsInOne : Nat := 2 ^ 1074

/-- The magnitude pattern of an infinity: exponent field all ones, fraction zero. -/
def infMagnitude : Nat := 0x7FF0000000000000

/-- The magnitude pattern of `a`: all but the sign bit. -/
def magnitude (a : F64) : Nat := (a.extractLsb' 0 63).toNat

/-- The sign bit of `a`. -/
def negative (a : F64) : Bool := a.getLsbD 63

/-- `a` is a NaN. -/
def isNaN (a : F64) : Bool := decide (infMagnitude < magnitude a)

/-- `a` is an infinity. -/
def isInf (a : F64) : Bool := decide (magnitude a = infMagnitude)

/-- `a` is a zero of either sign. -/
def isZero (a : F64) : Bool := decide (magnitude a = 0)

/-- `a` is finite: neither a NaN nor an infinity. -/
def isFinite (a : F64) : Bool := decide (magnitude a < infMagnitude)

/-- The magnitude of a finite `a` in units: the fraction alone where the exponent field is 0 (subnormal), otherwise
the fraction with its leading 1, scaled. -/
def units (a : F64) : Nat :=
  let e := (a.extractLsb' 52 11).toNat
  let f := (a.extractLsb' 0 52).toNat
  if e = 0 then f else (2 ^ 52 + f) * 2 ^ (e - 1)

/-- The value of a finite `a` in units, signed. -/
def signedUnits (a : F64) : Int :=
  if negative a then -(units a : Int) else (units a : Int)

/-- The magnitude pattern of the binary64 nearest `n / d` units, ties to even, overflow to infinity. With `k` the number
of bits by which the quotient exceeds 53, the granularity is `2^k` units; the exponent field and the fraction are
`k * 2^52 + q`, also where the quotient is subnormal (`k = 0`) and where the rounding carries into the exponent. -/
def roundUnits (n d : Nat) : Nat :=
  let k := (n / d).log2 - 52
  let g := d * 2 ^ k
  let q := n / g
  let r := n % g
  let rounded := if g < 2 * r ∨ (2 * r = g ∧ q % 2 = 1) then q + 1 else q
  min (k * 2 ^ 52 + rounded) infMagnitude

/-- The pattern with sign `neg` and magnitude pattern `m`. -/
def withSign (neg : Bool) (m : Nat) : F64 :=
  BitVec.ofBool neg ++ BitVec.ofNat 63 m

/-- The NaN that a result draws: its sign and payload are not specified (R211, 93 V5). The exponent field is all ones,
as an infinity's, and the fraction is the payload; a NaN's fraction is not zero, so the payload 0 stands for 1. -/
def freeNaN (draw : Nat) : F64 :=
  let payload := (Config.freeNaNPayload draw).toNat
  withSign (Config.freeNaNSign draw) (infMagnitude + if payload = 0 then 1 else payload)

/-- `f64(n)`: the binary64 value of an integer, exact for every count; `f64(0)` is +0.0 (R210). -/
def f64OfInt (n : Int) : F64 :=
  withSign (decide (n < 0)) (roundUnits (n.natAbs * unitsInOne) 1)

/-- `fmul(a, b)` (R211). -/
def fmul (draw : Nat) (a b : F64) : F64 :=
  let neg := negative a ^^ negative b
  if isNaN a || isNaN b then freeNaN draw
  else if isInf a || isInf b then
    if isZero a || isZero b then freeNaN draw else withSign neg infMagnitude
  else withSign neg (roundUnits (units a * units b) unitsInOne)

/-- `fdiv(a, b)` (R211): a zero divisor gives an infinity, or a NaN for 0/0. -/
def fdiv (draw : Nat) (a b : F64) : F64 :=
  let neg := negative a ^^ negative b
  if isNaN a || isNaN b then freeNaN draw
  else if isInf a then
    if isInf b then freeNaN draw else withSign neg infMagnitude
  else if isInf b then withSign neg 0
  else if isZero b then
    if isZero a then freeNaN draw else withSign neg infMagnitude
  else withSign neg (roundUnits (units a * unitsInOne) (units b))

/-- `fadd(a, b)` (R211). The sign of a sum of exactly zero is PRESUMED from IEEE 754 (entry 11): + unless both operands
are −0.0. -/
def fadd (draw : Nat) (a b : F64) : F64 :=
  if isNaN a || isNaN b then freeNaN draw
  else if isInf a then
    if isInf b && (negative a != negative b) then freeNaN draw else a
  else if isInf b then b
  else
    let sum := signedUnits a + signedUnits b
    if sum = 0 then withSign (negative a && negative b) 0
    else withSign (decide (sum < 0)) (roundUnits sum.natAbs 1)

/-- The numerics of this block: binary64 (R210, R212). -/
def binary64 : Numerics F64 :=
  { ofInt := f64OfInt, mul := fmul, add := fadd, div := fdiv, thousand := 0x408F400000000000 }

/-- The numerics of exact rationals (R212), with which the source's exact check is stated (R226). No meaning uses them;
they draw nothing, and a division by zero, which no statement makes, gives Lean's 0. -/
def rational : Numerics Rat :=
  { ofInt := fun n => n, mul := fun _ a b => a * b, add := fun _ a b => a + b, div := fun _ a b => a / b,
    thousand := 1000 }

end Sys2Proof.Machine
end

