-- ==== Sys2Proof/Machine/Process.lean ====
section
/-! DEFINITION. The process family: scaling, the derived quantities and the command `PROCESS` (43_decode_scale.md).
Every formula is written through the four operations of the numerics record (R212). Each operation has a draw index of
its own, for the NaN it may give. -/

namespace Sys2Proof.Machine

open Sys2Proof

/-- `SCALE(raw, coeff)` (43_decode_scale.md R213). -/
def scale {Q : Type} (N : Numerics Q) (draw : Nat) (raw : Word16) (coeff : Q) : Q :=
  N.mul draw (N.ofInt (decodeCount raw)) coeff

/-- `LOADV(bus, shunt)` (43_decode_scale.md R215); it takes the draw indices `draw` and `draw + 1`. -/
def loadVoltage {Q : Type} (N : Numerics Q) (draw : Nat) (bus shunt : Q) : Q :=
  N.add (draw + 1) bus (N.div draw shunt N.thousand)

/-- `CURRENT(shunt, r)` (43_decode_scale.md R216). -/
def current {Q : Type} (N : Numerics Q) (draw : Nat) (shunt r : Q) : Q :=
  N.div draw shunt r

/-- `POWER(load, current)` (43_decode_scale.md R217). -/
def power {Q : Type} (N : Numerics Q) (draw : Nat) (load current : Q) : Q :=
  N.mul draw load current

/-- The operations one channel makes, hence the draw indices it takes. -/
def drawsPerChannel : Nat := 6

/-- The five processed values of a channel, in the order of 43_decode_scale.md R220: shunt, bus, load, current,
power. -/
def processValues {Q : Type} (N : Numerics Q) (draw : Nat) (rawShunt rawBus : Word16) (shuntLsb busLsb r : Q) :
    Q × Q × Q × Q × Q :=
  let s := scale N draw rawShunt shuntLsb
  let b := scale N (draw + 1) rawBus busLsb
  let l := loadVoltage N (draw + 2) b s
  let i := current N (draw + 4) s r
  let p := power N (draw + 5) l i
  (s, b, l, i, p)

/-- The processed sample of channel `c`, in binary64. -/
def processChannel (draw : Nat) (raw : RawSample) (cal : Calibration) (c : Channel) : ChannelSample :=
  let v := processValues binary64 draw (raw.shunt.get c) (raw.bus.get c) cal.shuntLsb cal.busLsb (cal.rshunt.get c)
  ⟨v.1, v.2.1, v.2.2.1, v.2.2.2.1, v.2.2.2.2⟩

/-- The whole processed sample from the raw sample and the calibration registers (43_decode_scale.md R220, R222). -/
def processedSample (draw : Nat) (raw : RawSample) (cal : Calibration) : PerChannel ChannelSample :=
  { ch0 := processChannel draw raw cal .ch0
    ch1 := processChannel (draw + drawsPerChannel) raw cal .ch1
    ch2 := processChannel (draw + 2 * drawsPerChannel) raw cal .ch2 }

/-- `PROCESS` written while idle: one step, all fifteen values, `ERR` = 0 (43_decode_scale.md R220). -/
def processSample (s : State) : State :=
  { s with
    proc := processedSample s.draws s.raw s.cal
    err := .ok
    draws := s.draws + 3 * drawsPerChannel }

/-- `PROCESS`: the command word with code 0x3, whose other bits are ignored, is written to `CMD`; ignored while busy
(43_decode_scale.md R220, 44_host_access.md R242). -/
def execProcess (ignored : BitVec 60) (s : State) : Host.Outcome State Fault Refusal :=
  let written := s.record (.hostWrite 0#6 (commandWord ignored 0x3#4))
  .next (if s.accepts then processSample written else written)

end Sys2Proof.Machine
end

