-- ==== Sys2Proof/Machine/HostAccess.lean ====
section
/-! DEFINITION. The host access family: `HWR`, `HRD` and command dispatch (44_host_access.md). -/

namespace Sys2Proof.Machine

open Sys2Proof

/-- Command dispatch on the code `d[3:0]` (44_host_access.md R243). A reserved code is refused with `BadCommand`
(30_encoding.md R114, 60_exceptions.md R266). -/
def dispatchCommand (code : BitVec 4) (s : State) : State :=
  if code = 0x1#4 then acceptConfigure s
  else if code = 0x2#4 then startFetch s
  else if code = 0x3#4 then processSample s
  else s.refuseCommand .badCommand

/-- The effect of a host write while the block is not busy (44_host_access.md R240). -/
def hostWrite (index : HostIndex) (d : Word64) (s : State) : State :=
  match hostReg index with
  | .cmd => dispatchCommand (commandCode d) s
  | r => writeReg r d s

/-- `HWR index, data`: ignored altogether while busy (44_host_access.md R240, R242). -/
def execHwr (index : HostIndex) (data : Word64) (s : State) : Host.Outcome State Fault Refusal :=
  let written := s.record (.hostWrite index data)
  .next (if s.accepts then hostWrite index data written else written)

/-- `HRD index`: allowed at any time; it changes no state of the block, and the word it returns is recorded
(44_host_access.md R245, R246, 20_memory.md R78). -/
def execHrd (index : HostIndex) (s : State) : Host.Outcome State Fault Refusal :=
  .next (s.record (.hostRead index (readReg (hostReg index) s)))

/-- A command word with a reserved code arrives at the command register: the block's own refusal, the nearest it has to
an illegal-instruction exception (30_encoding.md R114, 60_exceptions.md R266); ignored while busy (R242). -/
def reservedCommandWord (w : Word64) (s : State) : State :=
  let written := s.record (.hostWrite 0#6 w)
  if s.accepts then written.refuseCommand .badCommand else written

end Sys2Proof.Machine
end

