-- ==== Sys2Proof/Machine/Dispatch.lean ====
section
/-! DEFINITION. One arm per operation of the table: which definition gives it its meaning. -/

namespace Sys2Proof.Machine

open Sys2Proof

def exec (i : Instr) (s : State) : Host.Outcome State Fault Refusal :=
  match i with
  | .configure ignored => Sys2Proof.Machine.execConfigure ignored s
  | .fetch ignored => Sys2Proof.Machine.execFetch ignored s
  | .process ignored => Sys2Proof.Machine.execProcess ignored s
  | .hwr index data => Sys2Proof.Machine.execHwr index data s
  | .hrd index => Sys2Proof.Machine.execHrd index s
  | .wrregConfig => Sys2Proof.Machine.execWrregConfig s
  | .rdregShunt0 => Sys2Proof.Machine.execRdregShunt0 s
  | .rdregBus0 => Sys2Proof.Machine.execRdregBus0 s
  | .rdregShunt1 => Sys2Proof.Machine.execRdregShunt1 s
  | .rdregBus1 => Sys2Proof.Machine.execRdregBus1 s
  | .rdregShunt2 => Sys2Proof.Machine.execRdregShunt2 s
  | .rdregBus2 => Sys2Proof.Machine.execRdregBus2 s
  | .rdregMasken => Sys2Proof.Machine.execRdregMasken s

end Sys2Proof.Machine
end

