-- ==== Sys2Proof/Machine/Events.lean ====
section
/-! DEFINITION. What each environment event makes of the state, and where the next event comes from: the machine's
fetch. -/

namespace Sys2Proof.Machine

open Sys2Proof

/-- The next environment event and the state with it taken: the first one lined up, or the free value (00_scope.md R11;
entry 1). -/
def nextEvent (s : State) : EnvEvent × State :=
  match s.inbox with
  | e :: rest => (e, { s with inbox := rest })
  | [] => (Config.freeEvent s.draws, { s with draws := s.draws + 1 })

/-- A word arrives at the command register: the operation it decodes to, or the refusal of a reserved code
(30_encoding.md R113, R114). -/
def runCommand (w : Word64) (s : State) : Host.Outcome State Fault Refusal :=
  match decode (.cmd w) with
  | .ok i => exec i s
  | .error _ => .next (reservedCommandWord w s)

/-- A host access: the operation its descriptor decodes to. Every descriptor decodes (30_encoding.md R115); were one
refused, nothing would happen. -/
def runAccess (w : BitVec 7) (data : Word64) (s : State) : Host.Outcome State Fault Refusal :=
  match decode (.host w data) with
  | .ok i => exec i s
  | .error _ => .next s

/-- The descriptor of the transaction that the phase issues (30_encoding.md R116, 42_fetch_poller.md R185). -/
def State.busDescriptor (s : State) : Option (BitVec 9) :=
  match s.transaction with
  | some e => e.descriptor
  | none => none

/-- The bus target answers `a`: the operation that the descriptor of the phase's transaction decodes to, with `a` on
the response side of the bus port. In a phase without a transaction there is nothing to answer, and nothing happens
(42_fetch_poller.md R185; entry 3). -/
def runAnswer (a : BusAnswer) (s : State) : Host.Outcome State Fault Refusal :=
  match s.busDescriptor with
  | some d =>
    match decode (.bus d) with
    | .ok i => exec i { s with busIn := a }
    | .error _ => .next s
  | none => .next s

/-- The block hands over the transaction of its phase, if the phase has one (20_memory.md R63; entry 6). -/
def runIssue (s : State) : State :=
  match s.transaction with
  | some e => s.issue e
  | none => s

/-- What the event `e` makes of the state. -/
def runEvent (e : EnvEvent) (s : State) : Host.Outcome State Fault Refusal :=
  match e with
  | .command w => runCommand w s
  | .access w data => runAccess w data s
  | .issue => .next (runIssue s)
  | .answer a => runAnswer a s
  | .wake => .next s.wake
  | .tick => .next s.tick
  | .rst => .next s.blockReset
  | .wallclock t => .next { s with wallclock := t }

/-- The phase in which the block issues the transaction with descriptor `d`, if it ever does (42_fetch_poller.md
R185). -/
def phaseOf (d : BitVec 9) : Option Seq :=
  if d = 0x000#9 then some .cfgWr
  else if d = 0x101#9 then some (.dataRd 0)
  else if d = 0x102#9 then some (.dataRd 1)
  else if d = 0x103#9 then some (.dataRd 2)
  else if d = 0x104#9 then some (.dataRd 3)
  else if d = 0x105#9 then some (.dataRd 4)
  else if d = 0x106#9 then some (.dataRd 5)
  else if d = 0x10F#9 then some .pollRd
  else none

/-- The state in which the operation of the port word `p` is what the next step runs (entry 2). A command or an access
is the next environment event. A bus transaction is the block's own: the block is put into the phase that issues it,
busy, with the transaction not yet handed over, and the target's answer, as the response side of the bus port stands,
is the next environment event. -/
def State.withPortWord (s : State) (p : PortWord) : State :=
  match p with
  | .cmd w => { s with inbox := .command w :: s.inbox }
  | .host w data => { s with inbox := .access w data :: s.inbox }
  | .bus d =>
    match phaseOf d with
    | some phase => { s with inbox := .answer s.busIn :: s.inbox, seq := phase, busy := true, inFlight := false }
    | none => s

end Sys2Proof.Machine
end

