-- ==== Sys2Proof/Machine/Step.lean ====
section
/-! DEFINITION. One step of the machine: one event of one agent (00_scope.md R11). -/

namespace Sys2Proof.Machine

open Sys2Proof

/-- One step: the next environment event, run. -/
def step (s : State) : Host.Outcome State Fault Refusal :=
  runEvent (nextEvent s).1 (nextEvent s).2

/-- `s` with the operation of the table word `w` of `nbits` bits placed where the next step fetches it (entry 2); a
number that is no word of any format is not placed. -/
def State.withFetchWord (s : State) (nbits w : Nat) : State :=
  match portWordOf nbits w with
  | .ok p => s.withPortWord p
  | .error _ => s

end Sys2Proof.Machine
end

