-- ==== Sys2Proof/Machine/Schedule.lean ====
section
/-! DEFINITION. Infinite runs: the machine under a schedule that says which agent takes the n-th turn and with what, and
the fairness of a schedule, on which the end of a command rests (42_fetch_poller.md R188). -/

namespace Sys2Proof.Machine

open Sys2Proof

/-- The state after the first `n` turns of the run from `s` in which the turn `n` takes the event `schedule n`: that event
is lined up alone, and the machine makes one step. -/
def stateAt (schedule : Nat → EnvEvent) (s : State) : Nat → State
  | 0 => s
  | n + 1 =>
    match step { stateAt schedule s n with inbox := [schedule n] } with
    | .next t => t
    | .fault _ => stateAt schedule s n
    | .refused _ => stateAt schedule s n

/-- The ticks among the `k` turns from turn `n` on. -/
def ticksFrom (schedule : Nat → EnvEvent) (n : Nat) : Nat → Nat
  | 0 => 0
  | k + 1 => ticksFrom schedule n k + if schedule (n + k) = .tick then 1 else 0

/-- The block has a step of its own to take: to hand over the transaction of its phase, or to leave a sleep that is over
(20_memory.md R63, 42_fetch_poller.md R181). -/
def blockEnabled (s : State) : Bool :=
  match s.seq with
  | .idle => false
  | .pollWait => sleepOver s
  | .cfgWr => !s.inFlight
  | .pollRd => !s.inFlight
  | .dataRd _ => !s.inFlight

/-- The event `e` is that step of the block. An answer with nothing in flight hands the transaction over in the same
turn (entry 6). -/
def blockTakes (s : State) (e : EnvEvent) : Bool :=
  match e with
  | .wake => decide (s.seq = .pollWait) && sleepOver s
  | .issue => decide (s.seq ≠ .pollWait) && blockEnabled s
  | .answer _ => decide (s.seq ≠ .pollWait) && blockEnabled s
  | .command _ | .access _ _ | .tick | .rst | .wallclock _ => false

/-- The schedule is fair to the time base: it is always enabled, so it ticks again and again (42_fetch_poller.md R188,
70_reset_and_hazards.md R320). -/
def FairToTimeBase (schedule : Nat → EnvEvent) : Prop :=
  ∀ n, ∃ m, n ≤ m ∧ schedule m = .tick

/-- The schedule is weakly fair to the bus target: it is enabled while a transaction is in flight, and if one stays in
flight from some turn on, the target answers (42_fetch_poller.md R188). -/
def FairToBusTarget (schedule : Nat → EnvEvent) (s : State) : Prop :=
  ∀ n, (∀ m, n ≤ m → (stateAt schedule s m).inFlight = true) → ∃ m a, n ≤ m ∧ schedule m = .answer a

/-- The block takes the steps it has: where it has one it takes one then or later, unless the command ends first. R188
takes this for granted; the form is the model's (entry 17). -/
def BlockIsDiligent (schedule : Nat → EnvEvent) (s : State) : Prop :=
  ∀ n, blockEnabled (stateAt schedule s n) = true →
    ∃ m, n ≤ m ∧ (blockTakes (stateAt schedule s m) (schedule m) = true ∨ (stateAt schedule s m).busy = false)

/-- The clock does not run around while the block is in one visit of `POLL_RD` or `POLL_WAIT` that it leaves: such a visit
takes fewer than 2^62 ticks. It says nothing of a visit that the block never leaves. 10_state.md R39 has no run in which
`NOW` wraps (entries 10 and 17). -/
def ClockDoesNotWrap (schedule : Nat → EnvEvent) (s : State) : Prop :=
  ∀ n k, ((stateAt schedule s n).seq = .pollRd ∨ (stateAt schedule s n).seq = .pollWait) →
    (∀ j, j ≤ k → (stateAt schedule s (n + j)).seq = (stateAt schedule s n).seq) →
    (stateAt schedule s (n + k + 1)).seq ≠ (stateAt schedule s n).seq →
    ticksFrom schedule n k < 2 ^ 62

/-- The premises of termination (42_fetch_poller.md R188; entry 17). -/
structure FairRun (schedule : Nat → EnvEvent) (s : State) : Prop where
  time_base  : FairToTimeBase schedule
  bus_target : FairToBusTarget schedule s
  block      : BlockIsDiligent schedule s
  clock      : ClockDoesNotWrap schedule s

end Sys2Proof.Machine
end

