-- ==== Sys2Proof/Machine/Script.lean ====
section
/-! DEFINITION. The host scripts: one line per host access, the script word `WAIT`, and the pseudo-operations with
their expansions (30_encoding.md R120, R121). The host is an agent of the environment; a script says which accesses it
makes. -/

namespace Sys2Proof.Machine

open Sys2Proof

/-- A line of a host script (30_encoding.md R120). -/
inductive ScriptLine where
  /-- `HWR i, d`. -/
  | hwr (i : HostIndex) (d : Word64)
  /-- `HRD i`. -/
  | hrd (i : HostIndex)
  /-- `WAIT`: read `STATUS` until `BUSY` = 0. -/
  | wait
  deriving DecidableEq, Repr

/-- The option fields that `SETCFG` names (30_encoding.md R121, 10_state.md R24). -/
inductive CfgField where
  | rst | en1 | en2 | en3 | avg | vbusct | vshct | mode
  deriving DecidableEq, Repr

/-- The host index of `CFG_<field>` (30_encoding.md R110). -/
def CfgField.index : CfgField → HostIndex
  | .rst => 0x04
  | .en1 => 0x05
  | .en2 => 0x06
  | .en3 => 0x07
  | .avg => 0x08
  | .vbusct => 0x09
  | .vshct => 0x0A
  | .mode => 0x0B

/-- The operation a line makes the host perform, once or, for `WAIT`, again and again. -/
def ScriptLine.operation : ScriptLine → Instr
  | .hwr i d => .hwr i d
  | .hrd i => .hrd i
  | .wait => .hrd 0x01

/-- Whether the line is over, given the word its access returned: `WAIT` is over when `BUSY`, bit 0 of `STATUS`, is 0;
any other line is over after its one access. -/
def ScriptLine.isOver (line : ScriptLine) (returned : Word64) : Bool :=
  match line with
  | .wait => !returned.getLsbD 0
  | .hwr _ _ | .hrd _ => true

/-- `CONSTRUCT`: `HWR CMD, 0x1`, then `WAIT` (30_encoding.md R121). -/
def construct : List ScriptLine := [.hwr 0x00 0x1, .wait]

/-- The first lines of `MEASURE`: `HWR CMD, 0x2`, then `WAIT` (30_encoding.md R121). -/
def measure : List ScriptLine := [.hwr 0x00 0x2, .wait]

/-- The rest of `MEASURE`, given the word of `STATUS` with which the `WAIT` ended: `HWR CMD, 0x3` if `STATUS.ERR` = 0
(30_encoding.md R121). -/
def measureRest (status : Word64) : List ScriptLine :=
  if status.extractLsb' 4 3 = 0 then [.hwr 0x00 0x3] else []

/-- `SETCFG field, v`: `HWR CFG_<field>, v` (30_encoding.md R121). -/
def setCfg (field : CfgField) (v : Word64) : List ScriptLine := [.hwr field.index v]

end Sys2Proof.Machine
end

