-- ==== Sys2Proof/Safety.lean ====
section
/-! DEFINITION. The terms in which claims about the machine are made: the lifecycle, what a consistent state is, what an
ordered bus history is, when two binary64 results are the same value, and the runs of one `FETCH`. -/

namespace Sys2Proof.Machine

open Sys2Proof

/-! ## The lifecycle -/

/-- The states of the source's driver that the block's state shows; "Decoded" is a property of the history of commands
and is not among them (10_state.md R43). -/
inductive Lifecycle where
  | uninitialized | configured | dataReady
  deriving DecidableEq, Repr

/-- The lifecycle state (10_state.md R43). -/
def State.lifecycle (s : State) : Lifecycle :=
  if s.configured then (if s.fetched then .dataReady else .configured) else .uninitialized

/-- The calibration values that the source considers: coefficients finite, resistances finite and not zero
(93 U6). -/
def Calibration.ordinary (c : Calibration) : Bool :=
  let r (x : F64) := isFinite x && !isZero x
  isFinite c.shuntLsb && isFinite c.busLsb && r c.rshunt.ch0 && r c.rshunt.ch1 && r c.rshunt.ch2

/-! ## Consistent states -/

/-- What holds between the elements of the state at every moment of a run. -/
structure State.Consistent (s : State) : Prop where
  /-- `BUSY` = 1 exactly when `seq` ≠ `IDLE` (10_state.md R33). -/
  busy_iff : s.busy = true ↔ s.seq ≠ .idle
  /-- Only a phase with a transaction can have one in flight (20_memory.md R63). -/
  inFlight_has_transaction : s.inFlight = true → s.transaction.isSome = true
  /-- `CFGLATCH` equals `CFG_WORD` during the whole command (10_state.md R26). -/
  latch_is_word : s.seq = .cfgWr → s.cfgLatch = pack s.options
  /-- A `FETCH` runs only with `CONFIGURED` = 1 (42_fetch_poller.md R171, R184). -/
  fetch_is_configured : s.seq ≠ .idle → s.seq ≠ .cfgWr → s.configured = true

/-! ## The bus history -/

/-- The bus events of a history, the latest first. -/
def busTrace (h : List HistEvent) : List BusEvent :=
  h.filterMap fun e =>
    match e with
    | .bus b => some b
    | .tick | .hostWrite _ _ | .hostRead _ _ | .wallclockSample _ => none

/-- The bus event is an answer. -/
def BusEvent.isAnswer : BusEvent → Bool
  | .write _ _ | .read _ => false
  | .done | .data _ | .fail => true

/-- The bus event is a transaction of the table of 20_memory.md R61: a write of `DEV_CONFIG`, or a read of a data
register or of `DEV_MASKEN`. -/
def BusEvent.isKnownTransaction : BusEvent → Bool
  | .write a _ => decide (a = Config.devConfig)
  | .read a => decide (1 ≤ a.toNat ∧ a.toNat ≤ 6) || decide (a = Config.devMaskEn)
  | .done | .data _ | .fail => false

/-- Register `a` is a data register, 0x01 to 0x06 (20_memory.md R61). -/
def isDataRegister (a : RegAddr) : Bool := decide (1 ≤ a.toNat ∧ a.toNat ≤ 6)

/-- Data register `a` may be read after the bus events `before` (the latest first): register 0x01 directly after a poll
that returned the flag, each other one directly after the read of the register before it (20_memory.md R74). -/
def dataReadAllowed (a : RegAddr) (before : List BusEvent) : Bool :=
  match before with
  | .data w :: .read b :: _ =>
    if a = 0x01 then decide (b = Config.devMaskEn) && readyFlag (swap16 w) else decide (b + 1 = a)
  | _ => false

/-- Every read of a data register among the bus events (the latest first) was allowed when it was issued. -/
def flagBeforeData : List BusEvent → Bool
  | [] => true
  | .read a :: before => (!isDataRegister a || dataReadAllowed a before) && flagBeforeData before
  | .write _ _ :: before => flagBeforeData before
  | .done :: before => flagBeforeData before
  | .data _ :: before => flagBeforeData before
  | .fail :: before => flagBeforeData before

/-- What the phase knows of the latest bus events. -/
def State.phaseFits (s : State) : Prop :=
  match s.seq with
  | .pollRd => s.inFlight = true → (busTrace s.history).head? = some (.read Config.devMaskEn)
  | .dataRd i =>
    if s.inFlight then (busTrace s.history).head? = some (.read (dataAddr i))
    else dataReadAllowed (dataAddr i) (busTrace s.history) = true
  | .idle | .cfgWr | .pollWait => True

/-- No data register has been read before the flag was seen, and the phase agrees with the latest bus events. -/
def State.Ordered (s : State) : Prop :=
  flagBeforeData (busTrace s.history) = true ∧ s.phaseFits

/-! ## Host events -/

/-- The index and the data word of the host write that an event makes, if it makes one. -/
def hostWriteOf : EnvEvent → Option (HostIndex × Word64)
  | .command w => some (0#6, w)
  | .access w data => if accessIsWrite w then some (accessIndex w, data) else none
  | .issue | .answer _ | .wake | .tick | .rst | .wallclock _ => none

/-- The event is the host's: a command word or an access. -/
def isHostAccess : EnvEvent → Bool
  | .command _ | .access _ _ => true
  | .issue | .answer _ | .wake | .tick | .rst | .wallclock _ => false

/-- The event writes a command word with code `code`. -/
def writesCommand (e : EnvEvent) (code : BitVec 4) : Prop :=
  ∃ d, hostWriteOf e = some (0#6, d) ∧ commandCode d = code

/-- The host read of index `i` in state `s` answers a next state in which only the history has changed, by the record
that the word `w` was returned (44_host_access.md R245, R246). -/
def HostReads (s : State) (i : HostIndex) (w : Word64) : Prop :=
  exec (.hrd i) s = .next { s with history := .hostRead i w :: s.history }

/-- The host write of `d` to index `i` in state `s` answers the next state `t`, but for the record of the write in the
history (44_host_access.md R240). -/
def HostWrites (s : State) (i : HostIndex) (d : Word64) (t : State) : Prop :=
  exec (.hwr i d) s = .next { t with history := .hostWrite i d :: s.history }

/-! ## Values -/

/-- The same value: the same pattern, or both NaN, whose sign and payload are not specified (43_decode_scale.md
R211). -/
def SameValue (a b : F64) : Prop := a = b ∨ (isNaN a = true ∧ isNaN b = true)

/-- The same five values. -/
def SameChannel (a b : ChannelSample) : Prop :=
  SameValue a.shuntMv b.shuntMv ∧ SameValue a.busV b.busV ∧ SameValue a.loadV b.loadV ∧
    SameValue a.currentMa b.currentMa ∧ SameValue a.powerMw b.powerMw

/-- `r` is a binary64 nearest the exact ratio `n / d` of units, ties to even: no finite value is nearer, and no other
finite value is as near unless the pattern `r` is even (43_decode_scale.md R211). -/
def NearestEven (n : Int) (d : Nat) (r : F64) : Prop :=
  ∀ c : F64, isFinite c = true →
    (n - signedUnits r * d).natAbs ≤ (n - signedUnits c * d).natAbs ∧
    ((n - signedUnits r * d).natAbs = (n - signedUnits c * d).natAbs →
      signedUnits c = signedUnits r ∨ r.getLsbD 0 = false)

/-- Half way from the largest magnitude of a binade, `(2^53 - 1) * 2^(k + 1)` units, to the least of the next one. -/
@[irreducible] def halfwayUnits (k : Nat) : Nat := (2 ^ 54 - 1) * 2 ^ k

/-- The least magnitude, in units, that rounds to an infinity: half way from the largest finite value to 2^1024, a tie
that goes to the even 2^1024 (43_decode_scale.md R211: overflow gives an infinity). -/
def overflowUnits : Nat := halfwayUnits 2044

/-- `r` is the exact ratio `n / d` of units rounded once to binary64: an infinity of the ratio's sign on overflow,
otherwise a finite nearest value, ties to even (43_decode_scale.md R211). -/
def RoundedOnce (n : Int) (d : Nat) (r : F64) : Prop :=
  if overflowUnits * d ≤ n.natAbs then isInf r = true ∧ negative r = decide (n < 0)
  else isFinite r = true ∧ NearestEven n d r

/-! ## Runs of one fetch -/

/-- The data read of phase `DATA_RD(i)` (42_fetch_poller.md R179). -/
def dataReadInstr (i : Fin 6) : Instr :=
  match i.val with
  | 0 => .rdregShunt0
  | 1 => .rdregBus0
  | 2 => .rdregShunt1
  | 3 => .rdregBus1
  | 4 => .rdregShunt2
  | _ => .rdregBus2

/-- The events that may come at any moment of a running fetch, beside the answers and the end of a sleep: ticks, host
accesses and command words, changes of the wall clock, and the handing over of the transaction
(70_reset_and_hazards.md R320, R321). The others are the fetch's own (an answer, the end of a sleep) or end it (the
reset). -/
def isBackground : EnvEvent → Bool
  | .command _ | .access _ _ | .issue | .tick | .wallclock _ => true
  | .answer _ | .wake | .rst => false

/-- The ticks among the events. -/
def tickCount (events : List EnvEvent) : Nat := events.count .tick

/-- The wall clock after the events: the value it last changed to. -/
def wallclockAfter : List EnvEvent → Word64 → Word64
  | [], w => w
  | .wallclock v :: rest, _ => wallclockAfter rest v
  | .command _ :: rest, w => wallclockAfter rest w
  | .access _ _ :: rest, w => wallclockAfter rest w
  | .issue :: rest, w => wallclockAfter rest w
  | .answer _ :: rest, w => wallclockAfter rest w
  | .wake :: rest, w => wallclockAfter rest w
  | .tick :: rest, w => wallclockAfter rest w
  | .rst :: rest, w => wallclockAfter rest w

/-- A poll that does not end the fetch, and the sleep after it: the events while the poll is outstanding, the wire word
that answers it, and the events of the sleep. -/
structure PollRound where
  before : List EnvEvent
  word   : Word16
  sleep  : List EnvEvent
  deriving DecidableEq, Repr

/-- The events of a round, with the step that leaves the sleep at its end. -/
def PollRound.events (p : PollRound) : List EnvEvent :=
  p.before ++ .answer ⟨false, p.word⟩ :: (p.sleep ++ [.wake])

/-- A read with its answer: the events while it is outstanding, and the answer. -/
structure AnsweredRead where
  before : List EnvEvent
  answer : BusAnswer
  deriving DecidableEq, Repr

/-- The events of a read, its answer at their end. -/
def AnsweredRead.events (r : AnsweredRead) : List EnvEvent := r.before ++ [.answer r.answer]

/-- A schedule of one fetch: the polls that do not end the loop, the one that does, and the data reads. -/
structure FetchSchedule where
  polls : List PollRound
  last  : AnsweredRead
  reads : List AnsweredRead
  deriving DecidableEq, Repr

/-- The events of the schedule, in order. -/
def FetchSchedule.events (f : FetchSchedule) : List EnvEvent :=
  f.polls.flatMap PollRound.events ++ (f.last.events ++ f.reads.flatMap AnsweredRead.events)

/-- The ticks from the start of the schedule to the answer that ends the loop. -/
def FetchSchedule.loopTicks (f : FetchSchedule) : Nat :=
  tickCount (f.polls.flatMap PollRound.events) + tickCount f.last.before

/-- None of the polls, with elapsed time `e` before the first, ends the loop: each is answered without the flag and
before the watchdog has expired, and each sleep lasts at least `POLL_TICKS` (42_fetch_poller.md R189). -/
def PollsContinue (timeout : Nat) : Nat → List PollRound → Prop
  | _, [] => True
  | e, p :: rest =>
    p.before.all isBackground = true ∧ p.sleep.all isBackground = true ∧
      readyFlag (swap16 p.word) = false ∧ e + tickCount p.before < timeout ∧ Config.pollTicks ≤ tickCount p.sleep ∧
      PollsContinue timeout (e + tickCount p.before + tickCount p.sleep) rest

/-- The reads are those that end a fetch with `n` data registers still to read: up to the first failure, or all of them
(42_fetch_poller.md R179, R182, R189). -/
def ReadsEnd : Nat → List AnsweredRead → Prop
  | 0, reads => reads = []
  | _ + 1, [] => False
  | n + 1, r :: rest =>
    r.before.all isBackground = true ∧ if r.answer.fail then rest = [] else ReadsEnd n rest

/-- The schedule is that of one fetch to its end, with elapsed time `e` before its first event: the polls go on, `last`
ends the loop by a failure, the flag or the watchdog, and the data reads follow where the flag was seen
(42_fetch_poller.md R189). -/
def FetchSchedule.RunsToEnd (f : FetchSchedule) (timeout e : Nat) : Prop :=
  PollsContinue timeout e f.polls ∧ f.last.before.all isBackground = true ∧
    if f.last.answer.fail then f.reads = []
    else if readyFlag (swap16 f.last.answer.rdata) then ReadsEnd 6 f.reads
    else f.reads = [] ∧ timeout ≤ e + f.loopTicks

/-- The events of a poll that does not end the fetch, under the prompt schedule (R186): the answer with wire word `p.1`,
`p.2` ticks of sleep, and the step that leaves the sleep (42_fetch_poller.md R177, R181). -/
def pollEvents (p : Word16 × Nat) : List EnvEvent :=
  .answer ⟨false, p.1⟩ :: (List.replicate p.2 .tick ++ [.wake])

/-- The events of a fetch under the prompt schedule: the polls that do not end it, the answer `last` of the poll that ends
the loop, and the answers to the data reads. -/
def fetchEvents (polls : List (Word16 × Nat)) (last : BusAnswer) (data : List BusAnswer) : List EnvEvent :=
  polls.flatMap pollEvents ++ .answer last :: data.map .answer

/-- The number of polls among the bus events of a history. -/
def pollCount (h : List HistEvent) : Nat := (busTrace h).count (.read Config.devMaskEn)

/-- How a fetch from `s` under the schedule `f` leaves the state `t`: the big-step form of 42_fetch_poller.md R189. The
time stamp is the wall clock at the commit, which is the schedule's last event. -/
def FetchOutcome (s t : State) (f : FetchSchedule) : Prop :=
  let failed := t.err = .busError ∧ t.raw = s.raw ∧ t.fetched = s.fetched ∧ t.fetchTs = s.fetchTs
  if f.last.answer.fail then failed
  else if readyFlag (swap16 f.last.answer.rdata) then
    if f.reads.any (·.answer.fail) then failed
    else
      t.err = .ok ∧ t.fetched = true ∧ t.fetchTs = t.wallclock ∧
        ∃ d0 d1 d2 d3 d4 d5 : BusAnswer, f.reads.map (·.answer) = [d0, d1, d2, d3, d4, d5] ∧
          t.raw = { shunt := ⟨swap16 d0.rdata, swap16 d2.rdata, swap16 d4.rdata⟩
                    bus := ⟨swap16 d1.rdata, swap16 d3.rdata, swap16 d5.rdata⟩ }
  else t.err = .fetchTimeout ∧ t.fetched = false ∧ t.raw = s.raw ∧ t.fetchTs = s.fetchTs

/-! ## The end of a command -/

/-- Termination (42_fetch_poller.md R188, 44_host_access.md R248): in every fair run from a state with a command running,
a `CONFIGURE` or a `FETCH` in any phase, the block is busy up to some turn and idle with `BUSY` = 0 right after it; that
turn is a reset or an answer of the bus target, and after an answer `ERR` tells the outcome: `OK`, `BusError` or
`FetchTimeout`. -/
def EveryCommandEnds : Prop :=
  ∀ (schedule : Nat → EnvEvent) (s : State), s.busy = true → s.seq ≠ .idle → FairRun schedule s →
    ∃ n, (∀ m, m ≤ n → (stateAt schedule s m).busy = true) ∧
      (stateAt schedule s (n + 1)).busy = false ∧ (stateAt schedule s (n + 1)).seq = .idle ∧
      (schedule n = .rst ∨
        (∃ a, schedule n = .answer a) ∧
          ((stateAt schedule s (n + 1)).err = .ok ∨ (stateAt schedule s (n + 1)).err = .busError ∨
            (stateAt schedule s (n + 1)).err = .fetchTimeout))

/-- There is no other watchdog (42_fetch_poller.md R188): without a reset, a target that never answers leaves a running
command busy for ever, and a time base that stops during a sleep that is not over leaves the block in `POLL_WAIT` for
ever. -/
def StuckWithoutFairness : Prop :=
  ∀ (schedule : Nat → EnvEvent) (s : State), s.busy = true → s.seq ≠ .idle → (∀ n, schedule n ≠ .rst) →
    ((∀ n a, schedule n ≠ .answer a) → ∀ n, (stateAt schedule s n).busy = true) ∧
    (s.seq = .pollWait → sleepOver s = false → (∀ n, schedule n ≠ .tick) →
      ∀ n, (stateAt schedule s n).busy = true ∧ (stateAt schedule s n).seq = .pollWait)

end Sys2Proof.Machine
end

