-- ==== Sys2Proof/Certificates/Slice0/Obligations.lean ====
section
/-! DEFINITION. The statements for the provers. Where a statement rests on a choice of the model, its docstring names
the entry of the assumption log. -/

open Sys2Proof Sys2Proof.Machine

/-! ## Encoding -/

/-- A word of every row of the table, written out from 30_encoding.md R113, R115, R116 and R119, decodes to the row's
operation. The widths 8, 16 and 72, the zeros that pad a descriptor, the place of the data word above the descriptor's
byte, and the data 0 of a write descriptor that stands alone, are the model's choice (entry 12). -/
def Obligations.TableWordsDecode : Prop :=
  decodeTableWord 64 0x0000000000000001 = some (.configure 0) ∧
  decodeTableWord 64 0x00000000000000F2 = some (.fetch 0xF) ∧
  decodeTableWord 64 0x8000000000000003 = some (.process 0x800000000000000) ∧
  decodeTableWord 8 0x42 = some (.hwr 0x02 0) ∧
  decodeTableWord 72 0x000000000000003242 = some (.hwr 0x02 0x32) ∧
  decodeTableWord 8 0x35 = some (.hrd 0x35) ∧
  decodeTableWord 16 0x000 = some .wrregConfig ∧
  decodeTableWord 16 0x101 = some .rdregShunt0 ∧
  decodeTableWord 16 0x102 = some .rdregBus0 ∧
  decodeTableWord 16 0x103 = some .rdregShunt1 ∧
  decodeTableWord 16 0x104 = some .rdregBus1 ∧
  decodeTableWord 16 0x105 = some .rdregShunt2 ∧
  decodeTableWord 16 0x106 = some .rdregBus2 ∧
  decodeTableWord 16 0x10F = some .rdregMasken

/-- Decoding an operation's encoding gives it back, with every operand at every value. -/
def Obligations.DecodeOfEncodeIsIdentity : Prop :=
  ∀ i : Instr, decode (encode i) = .ok i

/-- A number that decodes is the encoding of what it decodes to, but for a data word beside a host read, which carries
none (30_encoding.md R115; that one beside a read is dropped is entry 12). -/
def Obligations.EncodeOfDecodeIsIdentity : Prop :=
  ∀ (p : PortWord) (i : Instr), decode p = .ok i →
    encode i =
      match p with
      | .cmd w => .cmd w
      | .host w data => .host w (if accessIsWrite w then data else 0)
      | .bus w => .bus w

/-- Rejected are exactly the command words with a reserved code (30_encoding.md R114) and the bus descriptors that the
block never issues (R116); every host descriptor decodes (R115), a read also with a data word beside it (entry 12). -/
def Obligations.ReservedNumbersAreRejected : Prop :=
  (∀ w : Word64, (∃ e, decode (.cmd w) = .error e) ↔ w.extractLsb' 0 4 ∉ [0x1#4, 0x2#4, 0x3#4]) ∧
  (∀ (w : BitVec 7) (data : Word64), ∃ i, decode (.host w data) = .ok i) ∧
  (∀ w : BitVec 9, (∃ e, decode (.bus w) = .error e) ↔
    w ∉ [0x000#9, 0x101#9, 0x102#9, 0x103#9, 0x104#9, 0x105#9, 0x106#9, 0x10F#9])

/-! ## The step -/

/-- A step takes the next environment event; where its number decodes to an operation, the step is `exec` of that
operation at the state with the event taken, and for a bus transaction with the target's answer on the response side of
the bus port. The number of a bus transaction is that of the phase (42_fetch_poller.md R185). The sources of events are
the model's choice (entries 1 and 2). -/
def Obligations.StepRunsDecodedOperation : Prop :=
  ∀ s : State,
    (∀ e rest, s.inbox = e :: rest → nextEvent s = (e, { s with inbox := rest })) ∧
    (∀ w i, (nextEvent s).1 = .command w → decode (.cmd w) = .ok i → step s = exec i (nextEvent s).2) ∧
    (∀ w data i, (nextEvent s).1 = .access w data → decode (.host w data) = .ok i →
      step s = exec i (nextEvent s).2) ∧
    (∀ a d i, (nextEvent s).1 = .answer a → s.busDescriptor = some d → decode (.bus d) = .ok i →
      step s = exec i { (nextEvent s).2 with busIn := a }) ∧
    s.busDescriptor =
      match s.seq with
      | .idle => none
      | .cfgWr => some 0x000#9
      | .pollRd => some 0x10F#9
      | .pollWait => none
      | .dataRd i => some (0x101#9 + BitVec.ofNat 9 i.val)

/-- Nothing faults and nothing is refused: every operation, and every step, answers a next state in every state
(60_exceptions.md R281, 20_memory.md R68; that no behaviour of the block is a stop of the model is DEDUCED, entry 16).
An operation or an event outside its phase, which has no step by 42_fetch_poller.md R185, answers the unchanged state:
that reading is entry 3. -/
def Obligations.StepAlwaysAnswersNextState : Prop :=
  (∀ (i : Instr) (s : State), ∃ t, exec i s = .next t) ∧ (∀ s : State, ∃ t, step s = .next t)

/-- The operation placed by `withPortWord` is what the next step runs: a command or an access in the state as it is, a
bus transaction in the phase that issues it. The placing is the model's choice (entry 2). -/
def Obligations.PlacedOperationRunsNext : Prop :=
  ∀ (s : State) (i : Instr),
    step (s.withPortWord (encode i)) =
      exec i
        (match encode i with
          | .bus d => { s with seq := (phaseOf d).getD .idle, busy := true, inFlight := false }
          | .cmd _ => s
          | .host _ _ => s)

/-! ## Reset -/

/-- The reset value of every element of the block (10_state.md R44). -/
def Obligations.ResetValues : Prop :=
  (∀ c, State.reset.raw.shunt.get c = 0x0000 ∧ State.reset.raw.bus.get c = 0x0000) ∧
  (∀ c, State.reset.proc.get c = ⟨0, 0, 0, 0, 0⟩) ∧
  State.reset.options =
    { rst := 1, en1 := 1, en2 := 1, en3 := 1, avg := 0b111, vbusct := 0b100, vshct := 0b100, mode := 0b011 } ∧
  pack State.reset.options = 0xFF23 ∧
  State.reset.cal.shuntLsb = 0x3FA47AE147AE147B ∧
  State.reset.cal.busLsb = 0x3F80624DD2F1A9FC ∧
  (∀ c, State.reset.cal.rshunt.get c = 0x3FB999999999999A) ∧
  State.reset.timeout = 300000 ∧
  State.reset.fetched = false ∧
  State.reset.configured = false ∧
  State.reset.err = .ok ∧
  State.reset.busy = false ∧
  State.reset.fetchTs = 0 ∧
  State.reset.seq = .idle ∧
  State.reset.cfgLatch = 0x0000 ∧
  (∀ i, State.reset.stg.get i = 0x0000) ∧
  State.reset.t0 = 0 ∧
  State.reset.w0 = 0 ∧
  State.reset.now = 0

/-- The reset input, in any state: every element of the block takes its reset value, a transaction in flight is
abandoned, and no bus event is added (70_reset_and_hazards.md R300 to R302). -/
def Obligations.ResetInputResetsTheBlock : Prop :=
  ∀ (s : State) (rest : List EnvEvent), s.inbox = .rst :: rest →
    step s = .next { State.reset with
      busIn := s.busIn, wallclock := s.wallclock, inbox := rest, draws := s.draws, history := s.history }

/-! ## Byte order and transport -/

/-- `SWAP16` exchanges the two bytes of a word, is its own inverse, and is a bijection (40_transport.md R130, R136). -/
def Obligations.SwapExchangesBytes : Prop :=
  (∀ v : Word16, swap16 v = v.extractLsb' 0 8 ++ v.extractLsb' 8 8) ∧
  (∀ v : Word16, swap16 (swap16 v) = v) ∧
  (∀ v w : Word16, swap16 v = swap16 w → v = w) ∧
  (∀ w : Word16, ∃ v, swap16 v = w)

/-- A register written and read back through a target that returns the wire word last written gives the value
(40_transport.md R135), and on the wire the high byte of the value travels first (20_memory.md R66). -/
def Obligations.LoopbackRoundTrip : Prop :=
  ∀ (a : RegAddr) (v : Word16) (s : State), s.inFlight = false → s.busIn.fail = false →
    ∃ w, (wrreg a v s).1 = true ∧
      (wrreg a v s).2.history = .bus .done :: .bus (.write a w) :: s.history ∧
      wireBytes w = [v.extractLsb' 8 8, v.extractLsb' 0 8] ∧
      (rdreg a { (wrreg a v s).2 with busIn := ⟨false, w⟩ }).1 = some v

/-! ## The configuration word -/

/-- `PACK` lays the eight fields out from bit 15 down without gap (41_config_packer.md R150, 30_encoding.md R90). -/
def Obligations.PackLaysOutFields : Prop :=
  ∀ o : Options,
    pack o = o.rst ++ o.en1 ++ o.en2 ++ o.en3 ++ o.avg ++ o.vbusct ++ o.vshct ++ o.mode

/-- `PACK` is a bijection, and changing one field changes only that field's bits of the word, under the masks of
30_encoding.md R90 (41_config_packer.md R151). -/
def Obligations.PackIsBijective : Prop :=
  (∀ o : Options, fieldsOf (pack o) = o) ∧ (∀ w : Word16, pack (fieldsOf w) = w) ∧
  (∀ (o : Options) (b : BitVec 1) (v : BitVec 3),
    pack { o with rst := b } &&& ~~~0x8000 = pack o &&& ~~~0x8000 ∧
    pack { o with en1 := b } &&& ~~~0x4000 = pack o &&& ~~~0x4000 ∧
    pack { o with en2 := b } &&& ~~~0x2000 = pack o &&& ~~~0x2000 ∧
    pack { o with en3 := b } &&& ~~~0x1000 = pack o &&& ~~~0x1000 ∧
    pack { o with avg := v } &&& ~~~0x0E00 = pack o &&& ~~~0x0E00 ∧
    pack { o with vbusct := v } &&& ~~~0x01C0 = pack o &&& ~~~0x01C0 ∧
    pack { o with vshct := v } &&& ~~~0x0038 = pack o &&& ~~~0x0038 ∧
    pack { o with mode := v } &&& ~~~0x0007 = pack o &&& ~~~0x0007)

/-- The worked configuration words with their wire words; the first is the default word (41_config_packer.md R161). -/
def Obligations.WorkedConfigurationWords : Prop :=
  let row (o : Options) (word wire : Word16) : Prop := pack o = word ∧ swap16 word = wire
  row ⟨1, 1, 1, 1, 0b111, 0b100, 0b100, 0b011⟩ 0xFF23 0x23FF ∧
  row ⟨0, 0, 0, 0, 0b000, 0b000, 0b000, 0b000⟩ 0x0000 0x0000 ∧
  row ⟨1, 1, 1, 1, 0b111, 0b111, 0b111, 0b111⟩ 0xFFFF 0xFFFF ∧
  row ⟨0, 1, 1, 1, 0b001, 0b100, 0b100, 0b111⟩ 0x7327 0x2773 ∧
  row ⟨0, 1, 1, 0, 0b000, 0b100, 0b100, 0b111⟩ 0x6127 0x2761 ∧
  row ⟨0, 1, 0, 1, 0b010, 0b101, 0b011, 0b110⟩ 0x555E 0x5E55 ∧
  row ⟨1, 0, 0, 0, 0b000, 0b000, 0b000, 0b000⟩ 0x8000 0x0080 ∧
  row ⟨0, 0, 0, 0, 0b000, 0b000, 0b000, 0b001⟩ 0x0001 0x0100

/-! ## The decoder -/

/-- The closed forms of `DECODE` on both paths, with `k` = `raw[14:3]` and `j` = `raw[2:0]` (43_decode_scale.md R201,
R203). -/
def Obligations.DecodeClosedForms : Prop :=
  ∀ raw : Word16,
    let k := (raw.extractLsb' 3 12).toNat
    let j := (raw.extractLsb' 0 3).toNat
    (raw.toNat < 0x8000 → decodeCount raw = ((raw.toNat / 8 : Nat) : Int) ∧ decodeCount raw = (k : Int)) ∧
    (0x8000 ≤ raw.toNat → j = 0 → k = 0 → decodeCount raw = 0) ∧
    (0x8000 ≤ raw.toNat → j = 0 → 1 ≤ k → decodeCount raw = -(4096 - (k : Int))) ∧
    (0x8000 ≤ raw.toNat → 1 ≤ j → decodeCount raw = -(4095 - (k : Int)))

/-- The range of `DECODE`, its zeros and its extremes (43_decode_scale.md R205). -/
def Obligations.DecodeRangeAndZeros : Prop :=
  (∀ raw : Word16, -4095 ≤ decodeCount raw ∧ decodeCount raw ≤ 4095) ∧
  (∀ n : Int, -4095 ≤ n → n ≤ 4095 → ∃ raw : Word16, decodeCount raw = n) ∧
  (∀ raw : Word16, decodeCount raw = 0 ↔ raw.toNat ≤ 0x0007 ∨ raw.toNat = 0x8000 ∨ 0xFFF9 ≤ raw.toNat) ∧
  (∀ raw : Word16, decodeCount raw = 4095 ↔ 0x7FF8 ≤ raw.toNat ∧ raw.toNat ≤ 0x7FFF) ∧
  (∀ raw : Word16, decodeCount raw = -4095 ↔ 0x8001 ≤ raw.toNat ∧ raw.toNat ≤ 0x8008)

/-- Where `DECODE` agrees with a plain 13-bit two's complement read and where it does not (43_decode_scale.md R204). -/
def Obligations.DecodeVersusTwosComplement : Prop :=
  ∀ raw : Word16,
    let T := (raw.extractLsb' 3 13).toInt
    let k := (raw.extractLsb' 3 12).toNat
    let j := (raw.extractLsb' 0 3).toNat
    (raw.toNat < 0x8000 → decodeCount raw = T) ∧
    (0x8000 ≤ raw.toNat → j = 0 → 1 ≤ k → decodeCount raw = T) ∧
    (0x8000 ≤ raw.toNat → 1 ≤ j → decodeCount raw = T + 1) ∧
    (raw = 0x8000 → T = -4096 ∧ decodeCount raw = 0)

/-- `DECODE(raw)` = −`DECODE((0x10000 − raw) & 0xFFFF)` for every word (43_decode_scale.md R206). -/
def Obligations.DecodeOfNegation : Prop :=
  ∀ raw : Word16, decodeCount raw = -decodeCount (BitVec.ofNat 16 (0x10000 - raw.toNat))

/-! ## Binary64 -/

/-- A product that is no NaN: of finite operands the exact product rounded once, an infinity on overflow; with an
infinite operand an infinity; and its sign, also of a zero, is the product of the operands' signs (43_decode_scale.md
R211). `NaNResults` says when it is a NaN. -/
def Obligations.MulRoundsToNearestEven : Prop :=
  ∀ (draw : Nat) (a b : F64),
    (isFinite a = true → isFinite b = true →
      RoundedOnce (signedUnits a * signedUnits b) unitsInOne (fmul draw a b)) ∧
    (isInf a = true → isNaN b = false → isZero b = false → isInf (fmul draw a b) = true) ∧
    (isInf b = true → isNaN a = false → isZero a = false → isInf (fmul draw a b) = true) ∧
    (isNaN (fmul draw a b) = false → negative (fmul draw a b) = (negative a ^^ negative b))

/-- A sum that is no NaN: of finite operands the exact sum rounded once, an infinity on overflow; with an infinite
operand that infinity (43_decode_scale.md R211). It says nothing of the sign of a sum of exactly zero, which is entry
11. `NaNResults` says when it is a NaN. -/
def Obligations.AddRoundsToNearestEven : Prop :=
  ∀ (draw : Nat) (a b : F64),
    (isFinite a = true → isFinite b = true → RoundedOnce (signedUnits a + signedUnits b) 1 (fadd draw a b)) ∧
    (isInf a = true → isFinite b = true → fadd draw a b = a) ∧
    (isFinite a = true → isInf b = true → fadd draw a b = b) ∧
    (isInf a = true → isInf b = true → negative a = negative b → fadd draw a b = a)

/-- A quotient that is no NaN: of finite operands with a divisor other than zero the exact quotient rounded once, an
infinity on overflow; an infinity for a zero divisor under a dividend other than zero and for an infinite dividend, a
zero for an infinite divisor; and its sign, also of a zero, is the product of the operands' signs (43_decode_scale.md
R211, R218). `NaNResults` says when it is a NaN. -/
def Obligations.DivRoundsToNearestEven : Prop :=
  ∀ (draw : Nat) (a b : F64),
    (isFinite a = true → isFinite b = true → isZero b = false →
      RoundedOnce ((if negative b then -1 else 1) * signedUnits a * unitsInOne) (units b) (fdiv draw a b)) ∧
    (isNaN a = false → isZero a = false → isZero b = true → isInf (fdiv draw a b) = true) ∧
    (isInf a = true → isFinite b = true → isInf (fdiv draw a b) = true) ∧
    (isFinite a = true → isInf b = true → isZero (fdiv draw a b) = true) ∧
    (isNaN (fdiv draw a b) = false → negative (fdiv draw a b) = (negative a ^^ negative b))

/-- Exactly when an operation gives a NaN, whatever pattern is drawn for it (43_decode_scale.md R211, R218). What it
gives otherwise, the three statements before this one say. -/
def Obligations.NaNResults : Prop :=
  ∀ (draw : Nat) (a b : F64),
    isNaN (fmul draw a b) =
      (isNaN a || isNaN b || (isInf a && isZero b) || (isZero a && isInf b)) ∧
    isNaN (fdiv draw a b) =
      (isNaN a || isNaN b || (isInf a && isInf b) || (isZero a && isZero b)) ∧
    isNaN (fadd draw a b) =
      (isNaN a || isNaN b || (isInf a && isInf b && (negative a != negative b)))

/-- `SCALE` is one multiplication of the converted count; a zero count gives a zero with the coefficient's sign, and a
NaN for an infinite or NaN coefficient (43_decode_scale.md R213). -/
def Obligations.ScaleOfACount : Prop :=
  ∀ (draw : Nat) (raw : Word16) (coeff : F64),
    scale binary64 draw raw coeff = fmul draw (f64OfInt (decodeCount raw)) coeff ∧
    (decodeCount raw = 0 → isFinite coeff = true → negative coeff = false →
      scale binary64 draw raw coeff = 0x0000000000000000) ∧
    (decodeCount raw = 0 → isFinite coeff = true → negative coeff = true →
      scale binary64 draw raw coeff = 0x8000000000000000) ∧
    (decodeCount raw = 0 → isFinite coeff = false → isNaN (scale binary64 draw raw coeff) = true) ∧
    scale binary64 draw 0x8008 0x3FA47AE147AE147B = 0xC06479999999999A

/-- Every count is represented exactly, and 0 is +0.0 (43_decode_scale.md R210). -/
def Obligations.CountsConvertExactly : Prop :=
  f64OfInt 0 = 0x0000000000000000 ∧
  ∀ n : Int, -4095 ≤ n → n ≤ 4095 →
    isFinite (f64OfInt n) = true ∧ signedUnits (f64OfInt n) = n * unitsInOne

/-- The source's check of the derived quantities, in binary64 and in exact rationals (43_decode_scale.md R226). -/
def Obligations.SourceDerivedQuantityCheck : Prop :=
  (∀ draw,
    fdiv draw 0x4044000000000000 0x408F400000000000 = 0x3FA47AE147AE147B ∧
    fadd draw 0x4028000000000000 0x3FA47AE147AE147B = 0x4028147AE147AE14 ∧
    loadVoltage binary64 draw 0x4028000000000000 0x4044000000000000 = 0x4028147AE147AE14 ∧
    current binary64 draw 0x4044000000000000 0x3FB999999999999A = 0x4079000000000000 ∧
    power binary64 draw 0x4028147AE147AE14 0x4079000000000000 = 0x40B2D00000000000 ∧
    scale binary64 draw 0x1F40 0x3FA47AE147AE147B = 0x4044000000000000 ∧
    scale binary64 draw 0x2EE0 0x3F80624DD2F1A9FC = 0x4028000000000000) ∧
  decodeCount 0x1F40 = 1000 ∧ decodeCount 0x2EE0 = 1500 ∧
  (∀ draw,
    loadVoltage rational draw 12 40 = 301 / 25 ∧
    current rational draw 40 (1 / 10) = 400 ∧
    power rational draw (301 / 25) 400 = 4816)

/-- With finite coefficients and finite, non-zero resistances (93 U6), no shunt voltage, bus voltage or current that
`PROCESS` writes is a NaN, so none of them rests on a free value. -/
def Obligations.OrdinaryCalibrationGivesNoNaN : Prop :=
  ∀ (ignored : BitVec 60) (s : State), s.busy = false → s.cal.ordinary = true →
    ∃ t, exec (.process ignored) s = .next t ∧
      ∀ c, isNaN (t.proc.get c).shuntMv = false ∧ isNaN (t.proc.get c).busV = false ∧
        isNaN (t.proc.get c).currentMa = false

/-! ## Commands -/

/-- `CONFIGURE` accepted: the latch takes the packed word, `BUSY` = 1, `seq` = `CFG_WR`, and nothing else changes; with
`BUSY` = 1 the command is ignored (41_config_packer.md R155). -/
def Obligations.ConfigureAccepted : Prop :=
  ∀ (ignored : BitVec 60) (s : State),
    let written : List HistEvent := .hostWrite 0 (commandWord ignored 0x1) :: s.history
    (s.busy = false →
      exec (.configure ignored) s =
        .next { s with cfgLatch := pack s.options, busy := true, seq := .cfgWr, history := written }) ∧
    (s.busy = true → exec (.configure ignored) s = .next { s with history := written })

/-- `FETCH` accepted where the block is configured, refused with `NotConfigured` where it is not, and nothing else
changes; with `BUSY` = 1 the command is ignored (42_fetch_poller.md R171, R172). -/
def Obligations.FetchAcceptedOrRefused : Prop :=
  ∀ (ignored : BitVec 60) (s : State),
    let written : List HistEvent := .hostWrite 0 (commandWord ignored 0x2) :: s.history
    (s.busy = false → s.configured = true →
      exec (.fetch ignored) s =
        .next { s with t0 := s.now, busy := true, seq := .pollRd, history := written }) ∧
    (s.busy = false → s.configured = false →
      exec (.fetch ignored) s = .next { s with err := .notConfigured, history := written }) ∧
    (s.busy = true → exec (.fetch ignored) s = .next { s with history := written })

/-- `PROCESS` writes the fifteen values by the formulas of 43_decode_scale.md R220 and `ERR` = 0 in one step, and
changes nothing else of the block; with `BUSY` = 1 it is ignored. The draw indices are the model's (entry 5). -/
def Obligations.ProcessComputesSample : Prop :=
  ∀ (ignored : BitVec 60) (s : State),
    let written : List HistEvent := .hostWrite 0 (commandWord ignored 0x3) :: s.history
    (s.busy = false →
      ∃ p n,
        exec (.process ignored) s = .next { s with proc := p, err := .ok, draws := n, history := written } ∧
        ∀ c, ∃ k1 k2 k3 k4 k5 k6,
          (p.get c).shuntMv = fmul k1 (f64OfInt (decodeCount (s.raw.shunt.get c))) s.cal.shuntLsb ∧
          (p.get c).busV = fmul k2 (f64OfInt (decodeCount (s.raw.bus.get c))) s.cal.busLsb ∧
          (p.get c).loadV = fadd k3 (p.get c).busV (fdiv k4 (p.get c).shuntMv 0x408F400000000000) ∧
          (p.get c).currentMa = fdiv k5 (p.get c).shuntMv (s.cal.rshunt.get c) ∧
          (p.get c).powerMw = fmul k6 (p.get c).loadV (p.get c).currentMa) ∧
    (s.busy = true → exec (.process ignored) s = .next { s with history := written })

/-- The processed values of a channel are a function of its raw words, the two coefficients and its resistance alone,
up to the pattern of a NaN; so a second `PROCESS` writes the values the first wrote (43_decode_scale.md R222; that NaN
patterns are drawn anew is entry 5). -/
def Obligations.ProcessIsFunctionOfChannel : Prop :=
  (∀ (ig1 ig2 : BitVec 60) (s1 s2 t1 t2 : State) (c : Channel), s1.busy = false → s2.busy = false →
    s1.raw.shunt.get c = s2.raw.shunt.get c → s1.raw.bus.get c = s2.raw.bus.get c →
    s1.cal.shuntLsb = s2.cal.shuntLsb → s1.cal.busLsb = s2.cal.busLsb →
    s1.cal.rshunt.get c = s2.cal.rshunt.get c →
    exec (.process ig1) s1 = .next t1 → exec (.process ig2) s2 = .next t2 →
    SameChannel (t1.proc.get c) (t2.proc.get c)) ∧
  (∀ (ig1 ig2 : BitVec 60) (s t u : State) (c : Channel), s.busy = false →
    exec (.process ig1) s = .next t → exec (.process ig2) t = .next u →
    SameChannel (t.proc.get c) (u.proc.get c))

/-- While `BUSY` = 1 every host write and every command word is ignored: only the record that it was made is added
(44_host_access.md R242). -/
def Obligations.BusyBlockIgnoresWrites : Prop :=
  ∀ s : State, s.busy = true →
    (∀ i d, HostWrites s i d s) ∧
    (∀ ig, exec (.configure ig) s = .next { s with history := .hostWrite 0 (commandWord ig 0x1) :: s.history }) ∧
    (∀ ig, exec (.fetch ig) s = .next { s with history := .hostWrite 0 (commandWord ig 0x2) :: s.history }) ∧
    (∀ ig, exec (.process ig) s = .next { s with history := .hostWrite 0 (commandWord ig 0x3) :: s.history }) ∧
    (∀ w, runCommand w s = .next { s with history := .hostWrite 0 w :: s.history })

/-! ## Host accesses -/

/-- A host write while `BUSY` = 0: each writable register takes the low bits of the data word, index 0x00 dispatches the
command word, and any other index changes nothing (44_host_access.md R240). -/
def Obligations.HostWriteWhenIdle : Prop :=
  ∀ (s : State) (d : Word64), s.busy = false →
    exec (.hwr 0x00 d) s = runCommand d s ∧
    HostWrites s 0x02 d { s with timeout := d.extractLsb' 0 32 } ∧
    HostWrites s 0x04 d { s with options := { s.options with rst := d.extractLsb' 0 1 } } ∧
    HostWrites s 0x05 d { s with options := { s.options with en1 := d.extractLsb' 0 1 } } ∧
    HostWrites s 0x06 d { s with options := { s.options with en2 := d.extractLsb' 0 1 } } ∧
    HostWrites s 0x07 d { s with options := { s.options with en3 := d.extractLsb' 0 1 } } ∧
    HostWrites s 0x08 d { s with options := { s.options with avg := d.extractLsb' 0 3 } } ∧
    HostWrites s 0x09 d { s with options := { s.options with vbusct := d.extractLsb' 0 3 } } ∧
    HostWrites s 0x0A d { s with options := { s.options with vshct := d.extractLsb' 0 3 } } ∧
    HostWrites s 0x0B d { s with options := { s.options with mode := d.extractLsb' 0 3 } } ∧
    HostWrites s 0x0C d { s with cal := { s.cal with shuntLsb := d } } ∧
    HostWrites s 0x0D d { s with cal := { s.cal with busLsb := d } } ∧
    HostWrites s 0x18 d { s with cal := { s.cal with rshunt := ⟨d, s.cal.rshunt.ch1, s.cal.rshunt.ch2⟩ } } ∧
    HostWrites s 0x19 d { s with cal := { s.cal with rshunt := ⟨s.cal.rshunt.ch0, d, s.cal.rshunt.ch2⟩ } } ∧
    HostWrites s 0x1A d { s with cal := { s.cal with rshunt := ⟨s.cal.rshunt.ch0, s.cal.rshunt.ch1, d⟩ } } ∧
    (∀ i : HostIndex,
      i ∉ [0x00#6, 0x02#6, 0x04#6, 0x05#6, 0x06#6, 0x07#6, 0x08#6, 0x09#6, 0x0A#6, 0x0B#6, 0x0C#6, 0x0D#6, 0x18#6,
        0x19#6, 0x1A#6] → HostWrites s i d s)

/-- Command dispatch by a host write to index 0x00 while `BUSY` = 0 (44_host_access.md R243, 60_exceptions.md R264,
R266). That a `PROCESS` takes eighteen draw indices from the counter `draws`, in the order in which `processedSample`
takes them, is the model's choice (entry 5). -/
def Obligations.CommandWriteDispatches : Prop :=
  ∀ (s : State) (d : Word64), s.busy = false →
    let code := d.extractLsb' 0 4
    (code = 0x1#4 → HostWrites s 0 d { s with cfgLatch := pack s.options, busy := true, seq := .cfgWr }) ∧
    (code = 0x2#4 → s.configured = true → HostWrites s 0 d { s with t0 := s.now, busy := true, seq := .pollRd }) ∧
    (code = 0x2#4 → s.configured = false → HostWrites s 0 d { s with err := .notConfigured }) ∧
    (code = 0x3#4 →
      HostWrites s 0 d { s with
        proc := processedSample s.draws s.raw s.cal, err := .ok, draws := s.draws + 3 * drawsPerChannel }) ∧
    (code ∉ [0x1#4, 0x2#4, 0x3#4] → HostWrites s 0 d { s with err := .badCommand })

/-- A command is a host write to index 0x00: a word at the command register and the access that writes it there have
the same step, in every state (30_encoding.md R113; that the model has both events is entry 2). -/
def Obligations.CommandIsHostWriteToIndexZero : Prop :=
  ∀ (s : State) (d : Word64) (rest : List EnvEvent),
    step { s with inbox := .command d :: rest } = step { s with inbox := .access 0x40 d :: rest }

/-- The word a host read returns, at every index, at any time; no element of the block changes (44_host_access.md
R246). -/
def Obligations.HostReadReturns : Prop :=
  ∀ s : State,
    HostReads s 0x01 (statusWord s) ∧
    HostReads s 0x02 (BitVec.ofNat 64 s.timeout.toNat) ∧
    HostReads s 0x03 (BitVec.ofNat 64 (pack s.options).toNat) ∧
    HostReads s 0x04 (BitVec.ofNat 64 s.options.rst.toNat) ∧
    HostReads s 0x05 (BitVec.ofNat 64 s.options.en1.toNat) ∧
    HostReads s 0x06 (BitVec.ofNat 64 s.options.en2.toNat) ∧
    HostReads s 0x07 (BitVec.ofNat 64 s.options.en3.toNat) ∧
    HostReads s 0x08 (BitVec.ofNat 64 s.options.avg.toNat) ∧
    HostReads s 0x09 (BitVec.ofNat 64 s.options.vbusct.toNat) ∧
    HostReads s 0x0A (BitVec.ofNat 64 s.options.vshct.toNat) ∧
    HostReads s 0x0B (BitVec.ofNat 64 s.options.mode.toNat) ∧
    HostReads s 0x0C s.cal.shuntLsb ∧
    HostReads s 0x0D s.cal.busLsb ∧
    HostReads s 0x0E s.fetchTs ∧
    HostReads s 0x10 (BitVec.ofNat 64 s.raw.shunt.ch0.toNat) ∧
    HostReads s 0x11 (BitVec.ofNat 64 s.raw.bus.ch0.toNat) ∧
    HostReads s 0x12 (BitVec.ofNat 64 s.raw.shunt.ch1.toNat) ∧
    HostReads s 0x13 (BitVec.ofNat 64 s.raw.bus.ch1.toNat) ∧
    HostReads s 0x14 (BitVec.ofNat 64 s.raw.shunt.ch2.toNat) ∧
    HostReads s 0x15 (BitVec.ofNat 64 s.raw.bus.ch2.toNat) ∧
    HostReads s 0x18 s.cal.rshunt.ch0 ∧ HostReads s 0x19 s.cal.rshunt.ch1 ∧ HostReads s 0x1A s.cal.rshunt.ch2 ∧
    HostReads s 0x20 s.proc.ch0.shuntMv ∧ HostReads s 0x21 s.proc.ch1.shuntMv ∧ HostReads s 0x22 s.proc.ch2.shuntMv ∧
    HostReads s 0x24 s.proc.ch0.busV ∧ HostReads s 0x25 s.proc.ch1.busV ∧ HostReads s 0x26 s.proc.ch2.busV ∧
    HostReads s 0x28 s.proc.ch0.loadV ∧ HostReads s 0x29 s.proc.ch1.loadV ∧ HostReads s 0x2A s.proc.ch2.loadV ∧
    HostReads s 0x2C s.proc.ch0.currentMa ∧ HostReads s 0x2D s.proc.ch1.currentMa ∧
    HostReads s 0x2E s.proc.ch2.currentMa ∧
    HostReads s 0x30 s.proc.ch0.powerMw ∧ HostReads s 0x31 s.proc.ch1.powerMw ∧ HostReads s 0x32 s.proc.ch2.powerMw ∧
    HostReads s 0x34 (BitVec.ofInt 64 (decodeCount s.raw.shunt.ch0)) ∧
    HostReads s 0x35 (BitVec.ofInt 64 (decodeCount s.raw.shunt.ch1)) ∧
    HostReads s 0x36 (BitVec.ofInt 64 (decodeCount s.raw.shunt.ch2)) ∧
    HostReads s 0x38 (BitVec.ofInt 64 (decodeCount s.raw.bus.ch0)) ∧
    HostReads s 0x39 (BitVec.ofInt 64 (decodeCount s.raw.bus.ch1)) ∧
    HostReads s 0x3A (BitVec.ofInt 64 (decodeCount s.raw.bus.ch2)) ∧
    (∀ i ∈ [0x00#6, 0x0F#6, 0x16#6, 0x17#6, 0x1B#6, 0x1C#6, 0x1D#6, 0x1E#6, 0x1F#6, 0x23#6, 0x27#6, 0x2B#6, 0x2F#6,
      0x33#6, 0x37#6, 0x3B#6, 0x3C#6, 0x3D#6, 0x3E#6, 0x3F#6], HostReads s i 0)

/-- The bits of `STATUS`, which index 0x01 reads and no write changes (30_encoding.md R112). -/
def Obligations.StatusWordBits : Prop :=
  (∀ s : State,
    HostReads s 0x01 (statusWord s) ∧
    (∀ d, HostWrites s 0x01 d s) ∧
    (statusWord s).getLsbD 0 = s.busy ∧
    (statusWord s).getLsbD 1 = s.configured ∧
    (statusWord s).getLsbD 2 = s.fetched ∧
    (statusWord s).getLsbD 3 = false ∧
    (statusWord s).extractLsb' 4 3 =
      (match s.err with
        | .ok => 0#3
        | .busError => 1#3
        | .fetchTimeout => 2#3
        | .notConfigured => 3#3
        | .badCommand => 4#3) ∧
    (∀ i, 7 ≤ i → (statusWord s).getLsbD i = false)) ∧
  statusWord State.reset = 0x00

/-! ## Bus transactions -/

/-- The one bus write of `CONFIGURE`: the wire word of the latch to register 0x00, issued unless it already was, and
both answers (41_config_packer.md R156, R157). -/
def Obligations.ConfigureWriteAnswered : Prop :=
  ∀ s : State, s.seq = .cfgWr →
    let issued := if s.inFlight then s.history else .bus (.write 0x00 (swap16 s.cfgLatch)) :: s.history
    (s.busIn.fail = false →
      exec .wrregConfig s =
        .next { s with
          configured := true, err := .ok, busy := false, seq := .idle, inFlight := false
          history := .bus .done :: issued }) ∧
    (s.busIn.fail = true →
      exec .wrregConfig s =
        .next { s with
          configured := false, err := .busError, busy := false, seq := .idle, inFlight := false
          history := .bus .fail :: issued })

/-- A poll answered: the failure first, then the flag, then the watchdog, then the sleep (42_fetch_poller.md R173 to
R178, R182). -/
def Obligations.PollAnswered : Prop :=
  ∀ s : State, s.seq = .pollRd →
    let m := swap16 s.busIn.rdata
    let elapsed := (s.now - s.t0).toNat
    let issued : List HistEvent := if s.inFlight then s.history else .bus (.read 0x0F) :: s.history
    let handled : List HistEvent := .bus (.data s.busIn.rdata) :: issued
    (s.busIn.fail = true →
      exec .rdregMasken s =
        .next { s with
          err := .busError, busy := false, seq := .idle, inFlight := false, history := .bus .fail :: issued }) ∧
    (s.busIn.fail = false → m.getLsbD 0 = true →
      exec .rdregMasken s = .next { s with seq := .dataRd 0, inFlight := false, history := handled }) ∧
    (s.busIn.fail = false → m.getLsbD 0 = false → s.timeout.toNat ≤ elapsed →
      exec .rdregMasken s =
        .next { s with
          fetched := false, err := .fetchTimeout, busy := false, seq := .idle, inFlight := false
          history := handled }) ∧
    (s.busIn.fail = false → m.getLsbD 0 = false → elapsed < s.timeout.toNat →
      exec .rdregMasken s =
        .next { s with w0 := s.now, seq := .pollWait, inFlight := false, history := handled })

/-- Bits 15:1 of the corrected mask/enable word are ignored, and its bit 0 is bit 8 of the wire word: two answers that
agree in that bit leave states that differ only in what the port and the history hold (30_encoding.md R105). -/
def Obligations.PollReadsOneBit : Prop :=
  ∀ (s : State) (w1 w2 : Word16), s.seq = .pollRd → w1.getLsbD 8 = w2.getLsbD 8 →
    ∃ t1 t2,
      exec .rdregMasken { s with busIn := ⟨false, w1⟩ } = .next t1 ∧
      exec .rdregMasken { s with busIn := ⟨false, w2⟩ } = .next t2 ∧
      t2 = { t1 with busIn := ⟨false, w2⟩, history := t2.history }

/-- The six data reads (`RDREG.SHUNT0`, `RDREG.BUS0`, `RDREG.SHUNT1`, `RDREG.BUS1`, `RDREG.SHUNT2`, `RDREG.BUS2`):
the corrected word of register 0x01 + i goes to `STG[i]`, and the next register is read, or the sixth commits
(42_fetch_poller.md R179). -/
def Obligations.DataReadStages : Prop :=
  ∀ (s : State) (i : Fin 6), s.seq = .dataRd i → s.busIn.fail = false →
    ∃ g : Staging, g.get i = swap16 s.busIn.rdata ∧ (∀ j, j ≠ i → g.get j = s.stg.get j) ∧
      let staged : State :=
        { s with
          stg := g, inFlight := false
          history := .bus (.data s.busIn.rdata) ::
            (if s.inFlight then s.history else .bus (.read (BitVec.ofNat 8 (i.val + 1))) :: s.history) }
      (i.val < 5 → exec (dataReadInstr i) s = .next { staged with seq := .dataRd (i + 1) }) ∧
      (i.val = 5 → exec (dataReadInstr i) s = .next (commit staged))

/-- The sixth data read (`RDREG.BUS2`) commits: raw sample, `FETCHED`, `FETCH_TS`, `ERR`, `BUSY` and `seq` in one step
(42_fetch_poller.md R180). -/
def Obligations.LastReadCommits : Prop :=
  ∀ s : State, s.seq = .dataRd 5 → s.busIn.fail = false →
    exec .rdregBus2 s =
      .next { s with
        stg := { s.stg with w5 := swap16 s.busIn.rdata }
        raw :=
          { shunt := ⟨s.stg.w0, s.stg.w2, s.stg.w4⟩
            bus := ⟨s.stg.w1, s.stg.w3, swap16 s.busIn.rdata⟩ }
        fetched := true
        fetchTs := s.wallclock
        err := .ok
        busy := false
        seq := .idle
        inFlight := false
        history := .wallclockSample s.wallclock :: .bus (.data s.busIn.rdata) ::
          (if s.inFlight then s.history else .bus (.read 0x06) :: s.history) }

/-- A failed poll or data read ends the fetch: `ERR` = 1, `BUSY` = 0, `seq` = `IDLE`, and nothing else of the block
changes (42_fetch_poller.md R182). -/
def Obligations.BusFailureEndsFetch : Prop :=
  ∀ s : State, s.busIn.fail = true →
    let ends (a : RegAddr) : State :=
      { s with
        err := .busError, busy := false, seq := .idle, inFlight := false
        history := .bus .fail :: (if s.inFlight then s.history else .bus (.read a) :: s.history) }
    (s.seq = .pollRd → exec .rdregMasken s = .next (ends 0x0F)) ∧
    (∀ i : Fin 6, s.seq = .dataRd i →
      exec (dataReadInstr i) s = .next (ends (BitVec.ofNat 8 (i.val + 1))))

/-- A bus transaction outside the phase that issues it has no step: nothing changes (42_fetch_poller.md R185, read as in
entry 3). -/
def Obligations.OtherPhaseHasNoStep : Prop :=
  ∀ s : State,
    (s.seq ≠ .cfgWr → exec .wrregConfig s = .next s) ∧
    (s.seq ≠ .pollRd → exec .rdregMasken s = .next s) ∧
    (∀ i : Fin 6, s.seq ≠ .dataRd i → exec (dataReadInstr i) s = .next s)

/-- The transaction of the phase is handed over once, and a phase without one hands over nothing (20_memory.md R63,
R73; that the handing over is an event of its own is entry 6). -/
def Obligations.TransactionIssuedOnce : Prop :=
  ∀ (s : State) (rest : List EnvEvent), s.inbox = .issue :: rest →
    let issues (e : BusEvent) : Prop :=
      step s = .next { s with
        inbox := rest, inFlight := true, history := if s.inFlight then s.history else .bus e :: s.history }
    match s.seq with
    | .cfgWr => issues (.write 0x00 (swap16 s.cfgLatch))
    | .pollRd => issues (.read 0x0F)
    | .dataRd i => issues (.read (BitVec.ofNat 8 (i.val + 1)))
    | .idle => step s = .next { s with inbox := rest }
    | .pollWait => step s = .next { s with inbox := rest }

/-! ## Time -/

/-- The sleep ends when `POLL_TICKS` = 20 ticks have passed since it began, not before, and its end changes nothing but
the phase; during the sleep no transaction is issued (42_fetch_poller.md R181). That a wake before its time, a handing
over and an answer, which have no step in this phase (R185), make a step that changes nothing is entry 3. -/
def Obligations.SleepEndsAfterPollTicks : Prop :=
  ∀ (s : State) (e : EnvEvent) (rest : List EnvEvent), s.inbox = e :: rest → s.seq = .pollWait →
    (e = .wake → 20 ≤ (s.now - s.w0).toNat → step s = .next { s with inbox := rest, seq := .pollRd }) ∧
    (e = .wake → (s.now - s.w0).toNat < 20 → step s = .next { s with inbox := rest }) ∧
    (e = .issue → step s = .next { s with inbox := rest }) ∧
    (∀ a, e = .answer a → step s = .next { s with inbox := rest })

/-- A tick adds 1 to `NOW` in any state and changes nothing else of the block (70_reset_and_hazards.md R320). -/
def Obligations.TickAddsOne : Prop :=
  ∀ (s : State) (rest : List EnvEvent), s.inbox = .tick :: rest →
    step s = .next { s with inbox := rest, now := s.now + 1, history := .tick :: s.history }

/-! ## Invariants -/

/-- The state after reset is consistent and ordered. -/
def Obligations.ResetIsConsistentAndOrdered : Prop :=
  State.reset.Consistent ∧ State.reset.Ordered

/-- Every step keeps a state consistent: `BUSY` = 1 exactly when `seq` ≠ `IDLE` (10_state.md R33), the latch is the
configuration word during a `CONFIGURE` (R26), a `FETCH` runs only configured (42_fetch_poller.md R171), and only a
phase with a transaction has one in flight (20_memory.md R63). -/
def Obligations.StepKeepsConsistent : Prop :=
  ∀ s t : State, s.Consistent → step s = .next t → t.Consistent

/-- Every step keeps the bus history ordered: no data register is read before a poll of the same fetch has returned the
flag, and the six are read in ascending order (20_memory.md R74). -/
def Obligations.StepKeepsFlagBeforeData : Prop :=
  ∀ s t : State, s.Consistent → s.Ordered → step s = .next t → t.Ordered

/-! ## Whole-machine rules -/

/-- A step adds to the bus history at most the transaction of the phase, one of the eight of 20_memory.md R61, and one
answer, the transaction first, and never issues one that is in flight (20_memory.md R62, R73). -/
def Obligations.BusTrafficIsThePhaseTransaction : Prop :=
  ∀ s t : State, step s = .next t →
    busTrace t.history = busTrace s.history ∨
    ∃ r, s.transaction = some r ∧ r.isKnownTransaction = true ∧
      ((s.inFlight = false ∧ busTrace t.history = r :: busTrace s.history) ∨
        (∃ a, a.isAnswer = true ∧
          busTrace t.history = a :: (if s.inFlight then busTrace s.history else r :: busTrace s.history)))

/-- The sequencer changes phase only as the transition table says (42_fetch_poller.md R185). -/
def Obligations.SequencerFollowsTable : Prop :=
  ∀ s t : State, s.Consistent → step s = .next t → (nextEvent s).1 ≠ .rst → t.seq ≠ s.seq →
    let e := (nextEvent s).1
    let elapsed := (s.now - s.t0).toNat
    match s.seq with
    | .idle =>
      (t.seq = .cfgWr ∧ writesCommand e 0x1) ∨ (t.seq = .pollRd ∧ writesCommand e 0x2 ∧ s.configured = true)
    | .cfgWr => ∃ a, e = .answer a ∧ t.seq = .idle ∧ t.configured = !a.fail
    | .pollRd =>
      ∃ a, e = .answer a ∧
        ((t.seq = .idle ∧ a.fail = true ∧ t.err = .busError) ∨
          (t.seq = .dataRd 0 ∧ a.fail = false ∧ a.rdata.getLsbD 8 = true) ∨
          (t.seq = .idle ∧ a.fail = false ∧ a.rdata.getLsbD 8 = false ∧ s.timeout.toNat ≤ elapsed ∧
            t.err = .fetchTimeout) ∨
          (t.seq = .pollWait ∧ a.fail = false ∧ a.rdata.getLsbD 8 = false ∧ elapsed < s.timeout.toNat))
    | .pollWait => e = .wake ∧ t.seq = .pollRd ∧ 20 ≤ (s.now - s.w0).toNat
    | .dataRd i =>
      ∃ a, e = .answer a ∧
        ((t.seq = .idle ∧ a.fail = true ∧ t.err = .busError) ∨
          (i.val < 5 ∧ t.seq = .dataRd (i + 1) ∧ a.fail = false) ∨
          (i.val = 5 ∧ t.seq = .idle ∧ a.fail = false ∧ t.err = .ok))

/-- The raw sample and `FETCH_TS` change only in the commit of a successful fetch (10_state.md R21, R35, 44_host_access.md
R247). -/
def Obligations.RawSampleChangesOnlyAtCommit : Prop :=
  ∀ s t : State, step s = .next t → (nextEvent s).1 ≠ .rst →
    (t.raw = s.raw ∧ t.fetchTs = s.fetchTs) ∨
    (s.seq = .dataRd 5 ∧ (∃ a, (nextEvent s).1 = .answer a ∧ a.fail = false) ∧
      t.fetched = true ∧ t.fetchTs = s.wallclock ∧ t.err = .ok ∧ t.busy = false ∧ t.seq = .idle)

/-- The processed sample changes only in a `PROCESS` written while the block is idle (10_state.md R22, 43_decode_scale.md
R220). The draw index from which `processedSample` takes the patterns of its NaNs is the model's choice (entry 5). -/
def Obligations.ProcessedSampleChangesOnlyByProcess : Prop :=
  ∀ s t : State, step s = .next t → (nextEvent s).1 ≠ .rst →
    t.proc = s.proc ∨
    (s.busy = false ∧ writesCommand (nextEvent s).1 0x3 ∧ t.proc = processedSample (nextEvent s).2.draws s.raw s.cal ∧
      t.err = .ok)

/-- `FETCHED` is set by the commit and cleared by a time-out, `CONFIGURED` follows the answer to the configuration
write, and nothing else writes either (10_state.md R30, R31). -/
def Obligations.FlagsHaveTheirWriters : Prop :=
  ∀ s t : State, step s = .next t → (nextEvent s).1 ≠ .rst →
    (t.fetched = s.fetched ∨
      (t.fetched = true ∧ s.seq = .dataRd 5 ∧ t.seq = .idle ∧ t.err = .ok) ∨
      (t.fetched = false ∧ s.seq = .pollRd ∧ t.seq = .idle ∧ t.err = .fetchTimeout)) ∧
    (t.configured = s.configured ∨
      (s.seq = .cfgWr ∧ ∃ a, (nextEvent s).1 = .answer a ∧ t.configured = !a.fail))

/-- The option registers, the calibration registers and `TIMEOUT` change only by a host write to a register while the
block is idle, which starts no command (10_state.md R24, R27 to R29). -/
def Obligations.ControlRegistersChangeOnlyByHostWrites : Prop :=
  ∀ s t : State, step s = .next t → (nextEvent s).1 ≠ .rst →
    (t.options = s.options ∧ t.cal = s.cal ∧ t.timeout = s.timeout) ∨
    (s.busy = false ∧ (∃ i d, hostWriteOf (nextEvent s).1 = some (i, d) ∧ i ≠ 0) ∧
      t.seq = s.seq ∧ t.busy = s.busy ∧ t.err = s.err ∧ t.raw = s.raw ∧ t.proc = s.proc)

/-- `ERR` changes only when a command ends or a command word is handled while the block is idle (10_state.md R32). -/
def Obligations.ErrChangesOnlyAtAnOutcome : Prop :=
  ∀ s t : State, step s = .next t → (nextEvent s).1 ≠ .rst →
    t.err = s.err ∨
    (s.seq ≠ .idle ∧ t.seq = .idle ∧ t.busy = false ∧ ∃ a, (nextEvent s).1 = .answer a) ∨
    (s.busy = false ∧ t.seq = s.seq ∧ ∃ code, code ≠ 0x1 ∧ writesCommand (nextEvent s).1 code)

/-- `NOW` changes only by a tick; `T0` takes `NOW` only at the acceptance of a `FETCH`, `W0` only on entering
`POLL_WAIT` (10_state.md R38, R39). -/
def Obligations.TimeElementsHaveTheirWriters : Prop :=
  ∀ s t : State, step s = .next t → (nextEvent s).1 ≠ .rst →
    (t.now = s.now ∨ (t.now = s.now + 1 ∧ (nextEvent s).1 = .tick)) ∧
    (t.t0 = s.t0 ∨ (t.t0 = s.now ∧ t.seq = .pollRd ∧ t.busy = true ∧ writesCommand (nextEvent s).1 0x2)) ∧
    (t.w0 = s.w0 ∨ (t.w0 = s.now ∧ s.seq = .pollRd ∧ t.seq = .pollWait))

/-- The lifecycle state changes only at the end of a `CONFIGURE`, at a commit and at a time-out (10_state.md R43). -/
def Obligations.LifecycleFollowsCommands : Prop :=
  ∀ s t : State, s.Consistent → step s = .next t → (nextEvent s).1 ≠ .rst → t.lifecycle ≠ s.lifecycle →
    (s.seq = .cfgWr ∧ t.err = .ok ∧ s.lifecycle = .uninitialized) ∨
    (s.seq = .cfgWr ∧ t.err = .busError ∧ t.lifecycle = .uninitialized) ∨
    (s.seq = .dataRd 5 ∧ t.err = .ok ∧ s.lifecycle = .configured ∧ t.lifecycle = .dataReady) ∨
    (s.seq = .pollRd ∧ t.err = .fetchTimeout ∧ s.lifecycle = .dataReady ∧ t.lifecycle = .configured)

/-! ## Whole fetches -/

/-- The big-step form of a fetch (42_fetch_poller.md R189), under every schedule of the fetch that no reset ends: from
the phase `POLL_RD` on, with polls that do not end the loop, each followed by a sleep of at least `POLL_TICKS`, then an
answer that ends it, and the data reads where the flag was seen, the run of the phases ends idle with the outcome that
the big-step form gives, after exactly one poll more than the polls that go on; the control registers and the processed
sample are as before. While a transaction is outstanding and during a sleep, any number of ticks may pass
(70_reset_and_hazards.md R321), the host may read and make writes, which are ignored (44_host_access.md R242), and the
wall clock may change (entry 7). That the handing over of a transaction is an event of its own is entry 6, and that one
during a sleep changes nothing is entry 3. The premise that the elapsed ticks stay below 2^64 rules out a wrapped `NOW`
(10_state.md R39, entry 10). -/
def Obligations.FetchRunMatchesBigStep : Prop :=
  ∀ (s : State) (f : FetchSchedule) (rest : List EnvEvent),
    let elapsed := (s.now - s.t0).toNat
    s.seq = .pollRd → s.busy = true → s.inFlight = false → s.inbox = f.events ++ rest →
    f.RunsToEnd s.timeout.toNat elapsed →
    elapsed + f.loopTicks < 2 ^ 64 →
    ∃ t : State,
      Host.Core.run Sys2Proof.core f.events.length s = .next t ∧
      t.inbox = rest ∧ t.seq = .idle ∧ t.busy = false ∧ t.inFlight = false ∧
      t.now = s.now + BitVec.ofNat 64 (tickCount f.events) ∧
      t.wallclock = wallclockAfter f.events s.wallclock ∧
      pollCount t.history = pollCount s.history + f.polls.length + 1 ∧
      t.options = s.options ∧ t.cal = s.cal ∧ t.timeout = s.timeout ∧ t.configured = s.configured ∧
      t.proc = s.proc ∧
      FetchOutcome s t f

/-- Under the prompt schedule, a fetch whose flag is never set makes `k + 1` polls with `k` = ceil(`TIMEOUT` / 20) and
times out `20 k` ticks after its acceptance, within `TIMEOUT` plus one poll interval; the raw sample is unchanged and
`FETCHED` = 0 (42_fetch_poller.md R186, R187). -/
def Obligations.PromptFetchTimesOut : Prop :=
  ∀ (s : State) (words : List Word16) (lastWord : Word16) (rest : List EnvEvent),
    let k := (s.timeout.toNat + 19) / 20
    let events := fetchEvents (words.map fun w => (w, 20)) ⟨false, lastWord⟩ []
    s.seq = .pollRd → s.inFlight = false → s.now = s.t0 → s.inbox = events ++ rest →
    words.length = k → (∀ w ∈ words, readyFlag (swap16 w) = false) → readyFlag (swap16 lastWord) = false →
    ∃ t : State,
      Host.Core.run Sys2Proof.core events.length s = .next t ∧
      t.inbox = rest ∧ t.seq = .idle ∧ t.busy = false ∧ t.err = .fetchTimeout ∧ t.fetched = false ∧
      t.raw = s.raw ∧ t.fetchTs = s.fetchTs ∧ t.proc = s.proc ∧
      pollCount t.history = pollCount s.history + k + 1 ∧
      (t.now - s.t0).toNat = 20 * k ∧ s.timeout.toNat ≤ 20 * k ∧
      (0 < s.timeout.toNat → 20 * k < s.timeout.toNat + 20)
end

