-- ==== Sys2Proof/Laws/Decode.lean ====
section
/-! SUPPORT. The small lemmas of the decoder and the encoder. -/

namespace Sys2Proof

/-- The bits of a command word. -/
theorem getLsbD_commandWord (ignored : BitVec 60) (code : BitVec 4) (i : Nat) :
    (commandWord ignored code).getLsbD i = if i < 4 then code.getLsbD i else ignored.getLsbD (i - 4) := by
  have h : ((ignored ++ code : BitVec (60 + 4)).getLsbD i) = _ := BitVec.getLsbD_append
  rw [commandWord]
  exact h.trans (by split <;> simp_all)

@[simp] theorem commandCode_commandWord (ignored : BitVec 60) (code : BitVec 4) :
    commandCode (commandWord ignored code) = code := by
  apply BitVec.eq_of_getLsbD_eq
  intro i hi
  simp [commandCode, getLsbD_commandWord, hi]

@[simp] theorem ignoredBits_commandWord (ignored : BitVec 60) (code : BitVec 4) :
    ignoredBits (commandWord ignored code) = ignored := by
  apply BitVec.eq_of_getLsbD_eq
  intro i hi
  simp [ignoredBits, getLsbD_commandWord, hi]

theorem commandWord_parts (w : Word64) : commandWord (ignoredBits w) (commandCode w) = w := by
  apply BitVec.eq_of_getLsbD_eq
  intro i hi
  rw [getLsbD_commandWord]
  split
  · rename_i h; simp [commandCode, h]
  · have h1 : i - 4 < 60 := by omega
    have h2 : 4 + (i - 4) = i := by omega
    simp [ignoredBits, h1, h2]

/-- Every outcome of decoding a command word. -/
theorem decodeCommand_cases (w : Word64) :
    (commandCode w = 0x1#4 ∧ decodeCommand w = .ok (.configure (ignoredBits w))) ∨
      (commandCode w = 0x2#4 ∧ decodeCommand w = .ok (.fetch (ignoredBits w))) ∨
      (commandCode w = 0x3#4 ∧ decodeCommand w = .ok (.process (ignoredBits w))) ∨
      (commandCode w ≠ 0x1#4 ∧ commandCode w ≠ 0x2#4 ∧ commandCode w ≠ 0x3#4 ∧
        decodeCommand w = .error (.reservedCommand (commandCode w))) := by
  unfold decodeCommand
  split
  · exact .inl ⟨‹_›, rfl⟩
  split
  · exact .inr (.inl ⟨‹_›, rfl⟩)
  split
  · exact .inr (.inr (.inl ⟨‹_›, rfl⟩))
  · exact .inr (.inr (.inr ⟨‹_›, ‹_›, ‹_›, rfl⟩))

/-- Every host descriptor decodes: a write where bit 6 is set, a read where it is clear. -/
theorem decodeAccess_cases (w : BitVec 7) (data : Word64) :
    (accessIsWrite w = true ∧ decodeAccess w data = .ok (.hwr (accessIndex w) data)) ∨
      (accessIsWrite w = false ∧ decodeAccess w data = .ok (.hrd (accessIndex w))) := by
  unfold decodeAccess
  cases accessIsWrite w
  · exact .inr ⟨rfl, rfl⟩
  · exact .inl ⟨rfl, rfl⟩

@[simp] theorem accessIsWrite_append (b : BitVec 1) (index : HostIndex) :
    accessIsWrite (b ++ index) = b.getLsbD 0 := by
  revert b index; decide

@[simp] theorem accessIndex_append (b : BitVec 1) (index : HostIndex) : accessIndex (b ++ index) = index := by
  revert b index; decide

end Sys2Proof
end

