-- ==== Sys2Proof/Laws/State.lean ====
section
/-! SUPPORT. What each unconditional operation over the state makes of each of its fields, true by `rfl`, so that no
later proof unfolds a record update. -/

namespace Sys2Proof.Machine

open Sys2Proof

/-! ## `State.record` -/

@[simp] theorem State.record_raw (s : State) (e : HistEvent) : (s.record e).raw = s.raw := rfl
@[simp] theorem State.record_proc (s : State) (e : HistEvent) : (s.record e).proc = s.proc := rfl
@[simp] theorem State.record_options (s : State) (e : HistEvent) : (s.record e).options = s.options := rfl
@[simp] theorem State.record_cal (s : State) (e : HistEvent) : (s.record e).cal = s.cal := rfl
@[simp] theorem State.record_timeout (s : State) (e : HistEvent) : (s.record e).timeout = s.timeout := rfl
@[simp] theorem State.record_fetched (s : State) (e : HistEvent) : (s.record e).fetched = s.fetched := rfl
@[simp] theorem State.record_configured (s : State) (e : HistEvent) : (s.record e).configured = s.configured := rfl
@[simp] theorem State.record_err (s : State) (e : HistEvent) : (s.record e).err = s.err := rfl
@[simp] theorem State.record_busy (s : State) (e : HistEvent) : (s.record e).busy = s.busy := rfl
@[simp] theorem State.record_fetchTs (s : State) (e : HistEvent) : (s.record e).fetchTs = s.fetchTs := rfl
@[simp] theorem State.record_seq (s : State) (e : HistEvent) : (s.record e).seq = s.seq := rfl
@[simp] theorem State.record_cfgLatch (s : State) (e : HistEvent) : (s.record e).cfgLatch = s.cfgLatch := rfl
@[simp] theorem State.record_stg (s : State) (e : HistEvent) : (s.record e).stg = s.stg := rfl
@[simp] theorem State.record_t0 (s : State) (e : HistEvent) : (s.record e).t0 = s.t0 := rfl
@[simp] theorem State.record_w0 (s : State) (e : HistEvent) : (s.record e).w0 = s.w0 := rfl
@[simp] theorem State.record_now (s : State) (e : HistEvent) : (s.record e).now = s.now := rfl
@[simp] theorem State.record_inFlight (s : State) (e : HistEvent) : (s.record e).inFlight = s.inFlight := rfl
@[simp] theorem State.record_busIn (s : State) (e : HistEvent) : (s.record e).busIn = s.busIn := rfl
@[simp] theorem State.record_wallclock (s : State) (e : HistEvent) : (s.record e).wallclock = s.wallclock := rfl
@[simp] theorem State.record_inbox (s : State) (e : HistEvent) : (s.record e).inbox = s.inbox := rfl
@[simp] theorem State.record_draws (s : State) (e : HistEvent) : (s.record e).draws = s.draws := rfl
@[simp] theorem State.record_history (s : State) (e : HistEvent) : (s.record e).history = e :: s.history := rfl

/-! ## `State.endCommand` -/

@[simp] theorem State.endCommand_raw (s : State) (e : ErrCode) : (s.endCommand e).raw = s.raw := rfl
@[simp] theorem State.endCommand_proc (s : State) (e : ErrCode) : (s.endCommand e).proc = s.proc := rfl
@[simp] theorem State.endCommand_options (s : State) (e : ErrCode) : (s.endCommand e).options = s.options := rfl
@[simp] theorem State.endCommand_cal (s : State) (e : ErrCode) : (s.endCommand e).cal = s.cal := rfl
@[simp] theorem State.endCommand_timeout (s : State) (e : ErrCode) : (s.endCommand e).timeout = s.timeout := rfl
@[simp] theorem State.endCommand_fetched (s : State) (e : ErrCode) : (s.endCommand e).fetched = s.fetched := rfl
@[simp] theorem State.endCommand_configured (s : State) (e : ErrCode) : (s.endCommand e).configured = s.configured := rfl
@[simp] theorem State.endCommand_err (s : State) (e : ErrCode) : (s.endCommand e).err = e := rfl
@[simp] theorem State.endCommand_busy (s : State) (e : ErrCode) : (s.endCommand e).busy = false := rfl
@[simp] theorem State.endCommand_fetchTs (s : State) (e : ErrCode) : (s.endCommand e).fetchTs = s.fetchTs := rfl
@[simp] theorem State.endCommand_seq (s : State) (e : ErrCode) : (s.endCommand e).seq = .idle := rfl
@[simp] theorem State.endCommand_cfgLatch (s : State) (e : ErrCode) : (s.endCommand e).cfgLatch = s.cfgLatch := rfl
@[simp] theorem State.endCommand_stg (s : State) (e : ErrCode) : (s.endCommand e).stg = s.stg := rfl
@[simp] theorem State.endCommand_t0 (s : State) (e : ErrCode) : (s.endCommand e).t0 = s.t0 := rfl
@[simp] theorem State.endCommand_w0 (s : State) (e : ErrCode) : (s.endCommand e).w0 = s.w0 := rfl
@[simp] theorem State.endCommand_now (s : State) (e : ErrCode) : (s.endCommand e).now = s.now := rfl
@[simp] theorem State.endCommand_inFlight (s : State) (e : ErrCode) : (s.endCommand e).inFlight = s.inFlight := rfl
@[simp] theorem State.endCommand_busIn (s : State) (e : ErrCode) : (s.endCommand e).busIn = s.busIn := rfl
@[simp] theorem State.endCommand_wallclock (s : State) (e : ErrCode) : (s.endCommand e).wallclock = s.wallclock := rfl
@[simp] theorem State.endCommand_inbox (s : State) (e : ErrCode) : (s.endCommand e).inbox = s.inbox := rfl
@[simp] theorem State.endCommand_draws (s : State) (e : ErrCode) : (s.endCommand e).draws = s.draws := rfl
@[simp] theorem State.endCommand_history (s : State) (e : ErrCode) : (s.endCommand e).history = s.history := rfl

/-! ## `State.refuseCommand` -/

@[simp] theorem State.refuseCommand_raw (s : State) (e : ErrCode) : (s.refuseCommand e).raw = s.raw := rfl
@[simp] theorem State.refuseCommand_proc (s : State) (e : ErrCode) : (s.refuseCommand e).proc = s.proc := rfl
@[simp] theorem State.refuseCommand_options (s : State) (e : ErrCode) : (s.refuseCommand e).options = s.options := rfl
@[simp] theorem State.refuseCommand_cal (s : State) (e : ErrCode) : (s.refuseCommand e).cal = s.cal := rfl
@[simp] theorem State.refuseCommand_timeout (s : State) (e : ErrCode) : (s.refuseCommand e).timeout = s.timeout := rfl
@[simp] theorem State.refuseCommand_fetched (s : State) (e : ErrCode) : (s.refuseCommand e).fetched = s.fetched := rfl
@[simp] theorem State.refuseCommand_configured (s : State) (e : ErrCode) : (s.refuseCommand e).configured = s.configured := rfl
@[simp] theorem State.refuseCommand_err (s : State) (e : ErrCode) : (s.refuseCommand e).err = e := rfl
@[simp] theorem State.refuseCommand_busy (s : State) (e : ErrCode) : (s.refuseCommand e).busy = s.busy := rfl
@[simp] theorem State.refuseCommand_fetchTs (s : State) (e : ErrCode) : (s.refuseCommand e).fetchTs = s.fetchTs := rfl
@[simp] theorem State.refuseCommand_seq (s : State) (e : ErrCode) : (s.refuseCommand e).seq = s.seq := rfl
@[simp] theorem State.refuseCommand_cfgLatch (s : State) (e : ErrCode) : (s.refuseCommand e).cfgLatch = s.cfgLatch := rfl
@[simp] theorem State.refuseCommand_stg (s : State) (e : ErrCode) : (s.refuseCommand e).stg = s.stg := rfl
@[simp] theorem State.refuseCommand_t0 (s : State) (e : ErrCode) : (s.refuseCommand e).t0 = s.t0 := rfl
@[simp] theorem State.refuseCommand_w0 (s : State) (e : ErrCode) : (s.refuseCommand e).w0 = s.w0 := rfl
@[simp] theorem State.refuseCommand_now (s : State) (e : ErrCode) : (s.refuseCommand e).now = s.now := rfl
@[simp] theorem State.refuseCommand_inFlight (s : State) (e : ErrCode) : (s.refuseCommand e).inFlight = s.inFlight := rfl
@[simp] theorem State.refuseCommand_busIn (s : State) (e : ErrCode) : (s.refuseCommand e).busIn = s.busIn := rfl
@[simp] theorem State.refuseCommand_wallclock (s : State) (e : ErrCode) : (s.refuseCommand e).wallclock = s.wallclock := rfl
@[simp] theorem State.refuseCommand_inbox (s : State) (e : ErrCode) : (s.refuseCommand e).inbox = s.inbox := rfl
@[simp] theorem State.refuseCommand_draws (s : State) (e : ErrCode) : (s.refuseCommand e).draws = s.draws := rfl
@[simp] theorem State.refuseCommand_history (s : State) (e : ErrCode) : (s.refuseCommand e).history = s.history := rfl

/-! ## `State.answered` -/

@[simp] theorem State.answered_raw (s : State) (e : BusEvent) : (s.answered e).raw = s.raw := rfl
@[simp] theorem State.answered_proc (s : State) (e : BusEvent) : (s.answered e).proc = s.proc := rfl
@[simp] theorem State.answered_options (s : State) (e : BusEvent) : (s.answered e).options = s.options := rfl
@[simp] theorem State.answered_cal (s : State) (e : BusEvent) : (s.answered e).cal = s.cal := rfl
@[simp] theorem State.answered_timeout (s : State) (e : BusEvent) : (s.answered e).timeout = s.timeout := rfl
@[simp] theorem State.answered_fetched (s : State) (e : BusEvent) : (s.answered e).fetched = s.fetched := rfl
@[simp] theorem State.answered_configured (s : State) (e : BusEvent) : (s.answered e).configured = s.configured := rfl
@[simp] theorem State.answered_err (s : State) (e : BusEvent) : (s.answered e).err = s.err := rfl
@[simp] theorem State.answered_busy (s : State) (e : BusEvent) : (s.answered e).busy = s.busy := rfl
@[simp] theorem State.answered_fetchTs (s : State) (e : BusEvent) : (s.answered e).fetchTs = s.fetchTs := rfl
@[simp] theorem State.answered_seq (s : State) (e : BusEvent) : (s.answered e).seq = s.seq := rfl
@[simp] theorem State.answered_cfgLatch (s : State) (e : BusEvent) : (s.answered e).cfgLatch = s.cfgLatch := rfl
@[simp] theorem State.answered_stg (s : State) (e : BusEvent) : (s.answered e).stg = s.stg := rfl
@[simp] theorem State.answered_t0 (s : State) (e : BusEvent) : (s.answered e).t0 = s.t0 := rfl
@[simp] theorem State.answered_w0 (s : State) (e : BusEvent) : (s.answered e).w0 = s.w0 := rfl
@[simp] theorem State.answered_now (s : State) (e : BusEvent) : (s.answered e).now = s.now := rfl
@[simp] theorem State.answered_inFlight (s : State) (e : BusEvent) : (s.answered e).inFlight = false := rfl
@[simp] theorem State.answered_busIn (s : State) (e : BusEvent) : (s.answered e).busIn = s.busIn := rfl
@[simp] theorem State.answered_wallclock (s : State) (e : BusEvent) : (s.answered e).wallclock = s.wallclock := rfl
@[simp] theorem State.answered_inbox (s : State) (e : BusEvent) : (s.answered e).inbox = s.inbox := rfl
@[simp] theorem State.answered_draws (s : State) (e : BusEvent) : (s.answered e).draws = s.draws := rfl
@[simp] theorem State.answered_history (s : State) (e : BusEvent) : (s.answered e).history = .bus e :: s.history := rfl

/-! ## `State.tick` -/

@[simp] theorem State.tick_raw (s : State) : (s.tick).raw = s.raw := rfl
@[simp] theorem State.tick_proc (s : State) : (s.tick).proc = s.proc := rfl
@[simp] theorem State.tick_options (s : State) : (s.tick).options = s.options := rfl
@[simp] theorem State.tick_cal (s : State) : (s.tick).cal = s.cal := rfl
@[simp] theorem State.tick_timeout (s : State) : (s.tick).timeout = s.timeout := rfl
@[simp] theorem State.tick_fetched (s : State) : (s.tick).fetched = s.fetched := rfl
@[simp] theorem State.tick_configured (s : State) : (s.tick).configured = s.configured := rfl
@[simp] theorem State.tick_err (s : State) : (s.tick).err = s.err := rfl
@[simp] theorem State.tick_busy (s : State) : (s.tick).busy = s.busy := rfl
@[simp] theorem State.tick_fetchTs (s : State) : (s.tick).fetchTs = s.fetchTs := rfl
@[simp] theorem State.tick_seq (s : State) : (s.tick).seq = s.seq := rfl
@[simp] theorem State.tick_cfgLatch (s : State) : (s.tick).cfgLatch = s.cfgLatch := rfl
@[simp] theorem State.tick_stg (s : State) : (s.tick).stg = s.stg := rfl
@[simp] theorem State.tick_t0 (s : State) : (s.tick).t0 = s.t0 := rfl
@[simp] theorem State.tick_w0 (s : State) : (s.tick).w0 = s.w0 := rfl
@[simp] theorem State.tick_now (s : State) : (s.tick).now = s.now + 1 := rfl
@[simp] theorem State.tick_inFlight (s : State) : (s.tick).inFlight = s.inFlight := rfl
@[simp] theorem State.tick_busIn (s : State) : (s.tick).busIn = s.busIn := rfl
@[simp] theorem State.tick_wallclock (s : State) : (s.tick).wallclock = s.wallclock := rfl
@[simp] theorem State.tick_inbox (s : State) : (s.tick).inbox = s.inbox := rfl
@[simp] theorem State.tick_draws (s : State) : (s.tick).draws = s.draws := rfl
@[simp] theorem State.tick_history (s : State) : (s.tick).history = .tick :: s.history := rfl

/-! ## `State.blockReset` -/

@[simp] theorem State.blockReset_raw (s : State) : (s.blockReset).raw = State.reset.raw := rfl
@[simp] theorem State.blockReset_proc (s : State) : (s.blockReset).proc = State.reset.proc := rfl
@[simp] theorem State.blockReset_options (s : State) : (s.blockReset).options = State.reset.options := rfl
@[simp] theorem State.blockReset_cal (s : State) : (s.blockReset).cal = State.reset.cal := rfl
@[simp] theorem State.blockReset_timeout (s : State) : (s.blockReset).timeout = State.reset.timeout := rfl
@[simp] theorem State.blockReset_fetched (s : State) : (s.blockReset).fetched = State.reset.fetched := rfl
@[simp] theorem State.blockReset_configured (s : State) : (s.blockReset).configured = State.reset.configured := rfl
@[simp] theorem State.blockReset_err (s : State) : (s.blockReset).err = State.reset.err := rfl
@[simp] theorem State.blockReset_busy (s : State) : (s.blockReset).busy = State.reset.busy := rfl
@[simp] theorem State.blockReset_fetchTs (s : State) : (s.blockReset).fetchTs = State.reset.fetchTs := rfl
@[simp] theorem State.blockReset_seq (s : State) : (s.blockReset).seq = State.reset.seq := rfl
@[simp] theorem State.blockReset_cfgLatch (s : State) : (s.blockReset).cfgLatch = State.reset.cfgLatch := rfl
@[simp] theorem State.blockReset_stg (s : State) : (s.blockReset).stg = State.reset.stg := rfl
@[simp] theorem State.blockReset_t0 (s : State) : (s.blockReset).t0 = State.reset.t0 := rfl
@[simp] theorem State.blockReset_w0 (s : State) : (s.blockReset).w0 = State.reset.w0 := rfl
@[simp] theorem State.blockReset_now (s : State) : (s.blockReset).now = State.reset.now := rfl
@[simp] theorem State.blockReset_inFlight (s : State) : (s.blockReset).inFlight = State.reset.inFlight := rfl
@[simp] theorem State.blockReset_busIn (s : State) : (s.blockReset).busIn = s.busIn := rfl
@[simp] theorem State.blockReset_wallclock (s : State) : (s.blockReset).wallclock = s.wallclock := rfl
@[simp] theorem State.blockReset_inbox (s : State) : (s.blockReset).inbox = s.inbox := rfl
@[simp] theorem State.blockReset_draws (s : State) : (s.blockReset).draws = s.draws := rfl
@[simp] theorem State.blockReset_history (s : State) : (s.blockReset).history = s.history := rfl

/-! ## `acceptConfigure` -/

@[simp] theorem acceptConfigure_raw (s : State) : (acceptConfigure s).raw = s.raw := rfl
@[simp] theorem acceptConfigure_proc (s : State) : (acceptConfigure s).proc = s.proc := rfl
@[simp] theorem acceptConfigure_options (s : State) : (acceptConfigure s).options = s.options := rfl
@[simp] theorem acceptConfigure_cal (s : State) : (acceptConfigure s).cal = s.cal := rfl
@[simp] theorem acceptConfigure_timeout (s : State) : (acceptConfigure s).timeout = s.timeout := rfl
@[simp] theorem acceptConfigure_fetched (s : State) : (acceptConfigure s).fetched = s.fetched := rfl
@[simp] theorem acceptConfigure_configured (s : State) : (acceptConfigure s).configured = s.configured := rfl
@[simp] theorem acceptConfigure_err (s : State) : (acceptConfigure s).err = s.err := rfl
@[simp] theorem acceptConfigure_busy (s : State) : (acceptConfigure s).busy = true := rfl
@[simp] theorem acceptConfigure_fetchTs (s : State) : (acceptConfigure s).fetchTs = s.fetchTs := rfl
@[simp] theorem acceptConfigure_seq (s : State) : (acceptConfigure s).seq = .cfgWr := rfl
@[simp] theorem acceptConfigure_cfgLatch (s : State) : (acceptConfigure s).cfgLatch = pack s.options := rfl
@[simp] theorem acceptConfigure_stg (s : State) : (acceptConfigure s).stg = s.stg := rfl
@[simp] theorem acceptConfigure_t0 (s : State) : (acceptConfigure s).t0 = s.t0 := rfl
@[simp] theorem acceptConfigure_w0 (s : State) : (acceptConfigure s).w0 = s.w0 := rfl
@[simp] theorem acceptConfigure_now (s : State) : (acceptConfigure s).now = s.now := rfl
@[simp] theorem acceptConfigure_inFlight (s : State) : (acceptConfigure s).inFlight = s.inFlight := rfl
@[simp] theorem acceptConfigure_busIn (s : State) : (acceptConfigure s).busIn = s.busIn := rfl
@[simp] theorem acceptConfigure_wallclock (s : State) : (acceptConfigure s).wallclock = s.wallclock := rfl
@[simp] theorem acceptConfigure_inbox (s : State) : (acceptConfigure s).inbox = s.inbox := rfl
@[simp] theorem acceptConfigure_draws (s : State) : (acceptConfigure s).draws = s.draws := rfl
@[simp] theorem acceptConfigure_history (s : State) : (acceptConfigure s).history = s.history := rfl

/-! ## `acceptFetch` -/

@[simp] theorem acceptFetch_raw (s : State) : (acceptFetch s).raw = s.raw := rfl
@[simp] theorem acceptFetch_proc (s : State) : (acceptFetch s).proc = s.proc := rfl
@[simp] theorem acceptFetch_options (s : State) : (acceptFetch s).options = s.options := rfl
@[simp] theorem acceptFetch_cal (s : State) : (acceptFetch s).cal = s.cal := rfl
@[simp] theorem acceptFetch_timeout (s : State) : (acceptFetch s).timeout = s.timeout := rfl
@[simp] theorem acceptFetch_fetched (s : State) : (acceptFetch s).fetched = s.fetched := rfl
@[simp] theorem acceptFetch_configured (s : State) : (acceptFetch s).configured = s.configured := rfl
@[simp] theorem acceptFetch_err (s : State) : (acceptFetch s).err = s.err := rfl
@[simp] theorem acceptFetch_busy (s : State) : (acceptFetch s).busy = true := rfl
@[simp] theorem acceptFetch_fetchTs (s : State) : (acceptFetch s).fetchTs = s.fetchTs := rfl
@[simp] theorem acceptFetch_seq (s : State) : (acceptFetch s).seq = .pollRd := rfl
@[simp] theorem acceptFetch_cfgLatch (s : State) : (acceptFetch s).cfgLatch = s.cfgLatch := rfl
@[simp] theorem acceptFetch_stg (s : State) : (acceptFetch s).stg = s.stg := rfl
@[simp] theorem acceptFetch_t0 (s : State) : (acceptFetch s).t0 = s.now := rfl
@[simp] theorem acceptFetch_w0 (s : State) : (acceptFetch s).w0 = s.w0 := rfl
@[simp] theorem acceptFetch_now (s : State) : (acceptFetch s).now = s.now := rfl
@[simp] theorem acceptFetch_inFlight (s : State) : (acceptFetch s).inFlight = s.inFlight := rfl
@[simp] theorem acceptFetch_busIn (s : State) : (acceptFetch s).busIn = s.busIn := rfl
@[simp] theorem acceptFetch_wallclock (s : State) : (acceptFetch s).wallclock = s.wallclock := rfl
@[simp] theorem acceptFetch_inbox (s : State) : (acceptFetch s).inbox = s.inbox := rfl
@[simp] theorem acceptFetch_draws (s : State) : (acceptFetch s).draws = s.draws := rfl
@[simp] theorem acceptFetch_history (s : State) : (acceptFetch s).history = s.history := rfl

/-! ## `fetchTimedOut` -/

@[simp] theorem fetchTimedOut_raw (s : State) : (fetchTimedOut s).raw = s.raw := rfl
@[simp] theorem fetchTimedOut_proc (s : State) : (fetchTimedOut s).proc = s.proc := rfl
@[simp] theorem fetchTimedOut_options (s : State) : (fetchTimedOut s).options = s.options := rfl
@[simp] theorem fetchTimedOut_cal (s : State) : (fetchTimedOut s).cal = s.cal := rfl
@[simp] theorem fetchTimedOut_timeout (s : State) : (fetchTimedOut s).timeout = s.timeout := rfl
@[simp] theorem fetchTimedOut_fetched (s : State) : (fetchTimedOut s).fetched = false := rfl
@[simp] theorem fetchTimedOut_configured (s : State) : (fetchTimedOut s).configured = s.configured := rfl
@[simp] theorem fetchTimedOut_err (s : State) : (fetchTimedOut s).err = .fetchTimeout := rfl
@[simp] theorem fetchTimedOut_busy (s : State) : (fetchTimedOut s).busy = false := rfl
@[simp] theorem fetchTimedOut_fetchTs (s : State) : (fetchTimedOut s).fetchTs = s.fetchTs := rfl
@[simp] theorem fetchTimedOut_seq (s : State) : (fetchTimedOut s).seq = .idle := rfl
@[simp] theorem fetchTimedOut_cfgLatch (s : State) : (fetchTimedOut s).cfgLatch = s.cfgLatch := rfl
@[simp] theorem fetchTimedOut_stg (s : State) : (fetchTimedOut s).stg = s.stg := rfl
@[simp] theorem fetchTimedOut_t0 (s : State) : (fetchTimedOut s).t0 = s.t0 := rfl
@[simp] theorem fetchTimedOut_w0 (s : State) : (fetchTimedOut s).w0 = s.w0 := rfl
@[simp] theorem fetchTimedOut_now (s : State) : (fetchTimedOut s).now = s.now := rfl
@[simp] theorem fetchTimedOut_inFlight (s : State) : (fetchTimedOut s).inFlight = s.inFlight := rfl
@[simp] theorem fetchTimedOut_busIn (s : State) : (fetchTimedOut s).busIn = s.busIn := rfl
@[simp] theorem fetchTimedOut_wallclock (s : State) : (fetchTimedOut s).wallclock = s.wallclock := rfl
@[simp] theorem fetchTimedOut_inbox (s : State) : (fetchTimedOut s).inbox = s.inbox := rfl
@[simp] theorem fetchTimedOut_draws (s : State) : (fetchTimedOut s).draws = s.draws := rfl
@[simp] theorem fetchTimedOut_history (s : State) : (fetchTimedOut s).history = s.history := rfl

/-! ## `commit` -/

@[simp] theorem commit_raw (s : State) : (commit s).raw = { shunt := ⟨s.stg.get 0, s.stg.get 2, s.stg.get 4⟩, bus := ⟨s.stg.get 1, s.stg.get 3, s.stg.get 5⟩ } := rfl
@[simp] theorem commit_proc (s : State) : (commit s).proc = s.proc := rfl
@[simp] theorem commit_options (s : State) : (commit s).options = s.options := rfl
@[simp] theorem commit_cal (s : State) : (commit s).cal = s.cal := rfl
@[simp] theorem commit_timeout (s : State) : (commit s).timeout = s.timeout := rfl
@[simp] theorem commit_fetched (s : State) : (commit s).fetched = true := rfl
@[simp] theorem commit_configured (s : State) : (commit s).configured = s.configured := rfl
@[simp] theorem commit_err (s : State) : (commit s).err = .ok := rfl
@[simp] theorem commit_busy (s : State) : (commit s).busy = false := rfl
@[simp] theorem commit_fetchTs (s : State) : (commit s).fetchTs = s.wallclock := rfl
@[simp] theorem commit_seq (s : State) : (commit s).seq = .idle := rfl
@[simp] theorem commit_cfgLatch (s : State) : (commit s).cfgLatch = s.cfgLatch := rfl
@[simp] theorem commit_stg (s : State) : (commit s).stg = s.stg := rfl
@[simp] theorem commit_t0 (s : State) : (commit s).t0 = s.t0 := rfl
@[simp] theorem commit_w0 (s : State) : (commit s).w0 = s.w0 := rfl
@[simp] theorem commit_now (s : State) : (commit s).now = s.now := rfl
@[simp] theorem commit_inFlight (s : State) : (commit s).inFlight = s.inFlight := rfl
@[simp] theorem commit_busIn (s : State) : (commit s).busIn = s.busIn := rfl
@[simp] theorem commit_wallclock (s : State) : (commit s).wallclock = s.wallclock := rfl
@[simp] theorem commit_inbox (s : State) : (commit s).inbox = s.inbox := rfl
@[simp] theorem commit_draws (s : State) : (commit s).draws = s.draws := rfl
@[simp] theorem commit_history (s : State) : (commit s).history = .wallclockSample s.wallclock :: s.history := rfl

/-! ## `processSample` -/

@[simp] theorem processSample_raw (s : State) : (processSample s).raw = s.raw := rfl
@[simp] theorem processSample_proc (s : State) : (processSample s).proc = processedSample s.draws s.raw s.cal := rfl
@[simp] theorem processSample_options (s : State) : (processSample s).options = s.options := rfl
@[simp] theorem processSample_cal (s : State) : (processSample s).cal = s.cal := rfl
@[simp] theorem processSample_timeout (s : State) : (processSample s).timeout = s.timeout := rfl
@[simp] theorem processSample_fetched (s : State) : (processSample s).fetched = s.fetched := rfl
@[simp] theorem processSample_configured (s : State) : (processSample s).configured = s.configured := rfl
@[simp] theorem processSample_err (s : State) : (processSample s).err = .ok := rfl
@[simp] theorem processSample_busy (s : State) : (processSample s).busy = s.busy := rfl
@[simp] theorem processSample_fetchTs (s : State) : (processSample s).fetchTs = s.fetchTs := rfl
@[simp] theorem processSample_seq (s : State) : (processSample s).seq = s.seq := rfl
@[simp] theorem processSample_cfgLatch (s : State) : (processSample s).cfgLatch = s.cfgLatch := rfl
@[simp] theorem processSample_stg (s : State) : (processSample s).stg = s.stg := rfl
@[simp] theorem processSample_t0 (s : State) : (processSample s).t0 = s.t0 := rfl
@[simp] theorem processSample_w0 (s : State) : (processSample s).w0 = s.w0 := rfl
@[simp] theorem processSample_now (s : State) : (processSample s).now = s.now := rfl
@[simp] theorem processSample_inFlight (s : State) : (processSample s).inFlight = s.inFlight := rfl
@[simp] theorem processSample_busIn (s : State) : (processSample s).busIn = s.busIn := rfl
@[simp] theorem processSample_wallclock (s : State) : (processSample s).wallclock = s.wallclock := rfl
@[simp] theorem processSample_inbox (s : State) : (processSample s).inbox = s.inbox := rfl
@[simp] theorem processSample_draws (s : State) : (processSample s).draws = s.draws + 3 * drawsPerChannel := rfl
@[simp] theorem processSample_history (s : State) : (processSample s).history = s.history := rfl

end Sys2Proof.Machine
end

