-- ==== Sys2Proof/Laws/Ops.lean ====
section
/-! SUPPORT. What each shared operation that decides something can do, said once; later proofs cite these lemmas and do
not unfold the operations. -/

namespace Sys2Proof.Machine

open Sys2Proof

/-! ## Selectors -/

@[simp] theorem Staging.get_set_same (g : Staging) (i : Fin 6) (v : Word16) : (g.set i v).get i = v := by
  revert i; intro i; match i with
  | 0 | 1 | 2 | 3 | 4 | 5 => rfl

theorem Staging.get_set_other (g : Staging) (i j : Fin 6) (v : Word16) (h : i ≠ j) :
    (g.set i v).get j = g.get j := by
  match i, j with
  | 0, 0 | 1, 1 | 2, 2 | 3, 3 | 4, 4 | 5, 5 => exact absurd rfl h
  | 0, 1 | 0, 2 | 0, 3 | 0, 4 | 0, 5 | 1, 0 | 1, 2 | 1, 3 | 1, 4 | 1, 5 | 2, 0 | 2, 1 | 2, 3 | 2, 4 | 2, 5
  | 3, 0 | 3, 1 | 3, 2 | 3, 4 | 3, 5 | 4, 0 | 4, 1 | 4, 2 | 4, 3 | 4, 5 | 5, 0 | 5, 1 | 5, 2 | 5, 3 | 5, 4 => rfl

@[simp] theorem PerChannel.get_set_same {α : Type} (p : PerChannel α) (v : α) (c : Channel) :
    (p.set v c).get c = v := by
  cases c <;> rfl

theorem PerChannel.get_set_other {α : Type} (p : PerChannel α) (v : α) (c c' : Channel) (h : c ≠ c') :
    (p.set v c).get c' = p.get c' := by
  cases c <;> cases c' <;> first | rfl | exact absurd rfl h

@[simp] theorem PerChannel.get_replicate {α : Type} (v : α) (c : Channel) :
    (PerChannel.replicate v).get c = v := by
  cases c <;> rfl

/-! ## The bus port -/

/-- The history after the transaction `e` is handed over: unchanged if it already was. -/
theorem State.issue_eq (s : State) (e : BusEvent) :
    s.issue e =
      { s with inFlight := true, history := if s.inFlight then s.history else .bus e :: s.history } := by
  unfold State.issue
  split
  · rename_i h; cases s; simp_all
  · rfl

/-- A transaction and its answer, together: the whole effect on the state is one or two bus events. -/
theorem State.answered_issue (s : State) (r a : BusEvent) :
    (s.issue r).answered a =
      { s with
        inFlight := false, history := .bus a :: (if s.inFlight then s.history else .bus r :: s.history) } := by
  rw [State.issue_eq]; rfl

/-- `WRREG`: the target's verdict, and the state with the bus events alone. -/
theorem wrreg_eq (a : RegAddr) (v : Word16) (s : State) :
    wrreg a v s =
      (!s.busIn.fail,
        { s with
          inFlight := false
          history := .bus (if s.busIn.fail then .fail else .done) ::
            (if s.inFlight then s.history else .bus (.write a (swap16 v)) :: s.history) }) := by
  unfold wrreg
  simp only [State.answered_issue]
  cases s.busIn.fail <;> rfl

/-- `RDREG` answered with a word. -/
theorem rdreg_word (a : RegAddr) (s : State) (h : s.busIn.fail = false) :
    rdreg a s =
      (some (swap16 s.busIn.rdata),
        { s with
          inFlight := false
          history := .bus (.data s.busIn.rdata) ::
            (if s.inFlight then s.history else .bus (.read a) :: s.history) }) := by
  unfold rdreg
  simp [h, State.answered_issue]

/-- `RDREG` answered with `fail`. -/
theorem rdreg_fail (a : RegAddr) (s : State) (h : s.busIn.fail = true) :
    rdreg a s =
      (none,
        { s with
          inFlight := false
          history := .bus .fail :: (if s.inFlight then s.history else .bus (.read a) :: s.history) }) := by
  unfold rdreg
  simp [h, State.answered_issue]

/-- The transaction of the phase, if there is one, is handed over at most once. -/
theorem runIssue_cases (s : State) :
    (s.transaction = none ∧ runIssue s = s) ∨ (∃ r, s.transaction = some r ∧ runIssue s = s.issue r) := by
  unfold runIssue
  cases h : s.transaction with
  | none => exact .inl ⟨rfl, rfl⟩
  | some r => exact .inr ⟨r, rfl, rfl⟩

@[simp] theorem State.transaction_idle (s : State) (h : s.seq = .idle) : s.transaction = none := by
  simp [State.transaction, h]

@[simp] theorem State.transaction_cfgWr (s : State) (h : s.seq = .cfgWr) :
    s.transaction = some (.write Config.devConfig (swap16 s.cfgLatch)) := by
  simp [State.transaction, h]

@[simp] theorem State.transaction_pollRd (s : State) (h : s.seq = .pollRd) :
    s.transaction = some (.read Config.devMaskEn) := by
  simp [State.transaction, h]

@[simp] theorem State.transaction_pollWait (s : State) (h : s.seq = .pollWait) : s.transaction = none := by
  simp [State.transaction, h]

@[simp] theorem State.transaction_dataRd (s : State) (i : Fin 6) (h : s.seq = .dataRd i) :
    s.transaction = some (.read (dataAddr i)) := by
  simp [State.transaction, h]

/-! ## Commands and host writes -/

theorem startFetch_cases (s : State) :
    (s.configured = true ∧ startFetch s = acceptFetch s) ∨
      (s.configured = false ∧ startFetch s = s.refuseCommand .notConfigured) := by
  unfold startFetch
  cases s.configured
  · exact .inr ⟨rfl, rfl⟩
  · exact .inl ⟨rfl, rfl⟩

/-- Every outcome of a dispatched command. -/
theorem dispatchCommand_cases (code : BitVec 4) (s : State) :
    (code = 0x1#4 ∧ dispatchCommand code s = acceptConfigure s) ∨
      (code = 0x2#4 ∧ s.configured = true ∧ dispatchCommand code s = acceptFetch s) ∨
      (code = 0x2#4 ∧ s.configured = false ∧ dispatchCommand code s = s.refuseCommand .notConfigured) ∨
      (code = 0x3#4 ∧ dispatchCommand code s = processSample s) ∨
      (code ≠ 0x1#4 ∧ code ≠ 0x2#4 ∧ code ≠ 0x3#4 ∧ dispatchCommand code s = s.refuseCommand .badCommand) := by
  unfold dispatchCommand
  split
  · exact .inl ⟨‹_›, rfl⟩
  split
  · obtain ⟨h, e⟩ | ⟨h, e⟩ := startFetch_cases s
    · exact .inr (.inl ⟨‹_›, h, e⟩)
    · exact .inr (.inr (.inl ⟨‹_›, h, e⟩))
  split
  · exact .inr (.inr (.inr (.inl ⟨‹_›, rfl⟩)))
  · exact .inr (.inr (.inr (.inr ⟨‹_›, ‹_›, ‹_›, rfl⟩)))

/-- A register write touches the control registers alone. -/
theorem writeReg_frame (r : HostReg) (d : Word64) (s : State) :
    ∃ o c n, writeReg r d s = { s with options := o, cal := c, timeout := n } := by
  cases r <;> exact ⟨_, _, _, rfl⟩

/-- A host write is a command dispatch at index 0x00, and a register write anywhere else. -/
theorem hostWrite_eq (index : HostIndex) (d : Word64) (s : State) :
    hostWrite index d s =
      if hostReg index = .cmd then dispatchCommand (commandCode d) s else writeReg (hostReg index) d s := by
  unfold hostWrite
  cases hostReg index <;> simp

/-- Index 0x00, and no other, is the command port. -/
theorem hostReg_eq_cmd_iff (index : HostIndex) : hostReg index = .cmd ↔ index = 0#6 := by
  revert index; decide

/-! ## The answers of a fetch -/

/-- After a poll: flag, then watchdog, then sleep. -/
theorem pollAnswer_cases (m : Word16) (s : State) :
    (readyFlag m = true ∧ pollAnswer m s = { s with seq := .dataRd 0 }) ∨
      (readyFlag m = false ∧ watchdogExpired s = true ∧ pollAnswer m s = fetchTimedOut s) ∨
      (readyFlag m = false ∧ watchdogExpired s = false ∧
        pollAnswer m s = { s with w0 := s.now, seq := .pollWait }) := by
  unfold pollAnswer
  cases readyFlag m
  · cases watchdogExpired s
    · exact .inr (.inr ⟨rfl, rfl, rfl⟩)
    · exact .inr (.inl ⟨rfl, rfl, rfl⟩)
  · exact .inl ⟨rfl, rfl⟩

/-- After a data read: the word is staged, and the sixth commits. -/
theorem dataAnswer_cases (i : Fin 6) (v : Word16) (s : State) :
    (i.val < 5 ∧ dataAnswer i v s = { s with stg := s.stg.set i v, seq := .dataRd (i + 1) }) ∨
      (i = 5 ∧ dataAnswer i v s = commit { s with stg := s.stg.set i v }) := by
  unfold dataAnswer
  by_cases h : i.val < 5
  · exact .inl ⟨h, by simp [h]⟩
  · exact .inr ⟨by omega, by simp [h]⟩

theorem dataRead_otherPhase (i : Fin 6) (s : State) (h : s.seq ≠ .dataRd i) : dataRead i s = s := by
  simp [dataRead, h]

theorem dataRead_word (i : Fin 6) (s : State) (h : s.seq = .dataRd i) (hf : s.busIn.fail = false) :
    dataRead i s = dataAnswer i (swap16 s.busIn.rdata) (rdreg (dataAddr i) s).2 := by
  simp [dataRead, h, rdreg_word _ _ hf]

theorem dataRead_fail (i : Fin 6) (s : State) (h : s.seq = .dataRd i) (hf : s.busIn.fail = true) :
    dataRead i s = (rdreg (dataAddr i) s).2.endCommand .busError := by
  simp [dataRead, h, rdreg_fail _ _ hf]

/-- The step out of the sleep, enabled or not. -/
theorem State.wake_cases (s : State) :
    (s.seq = .pollWait ∧ sleepOver s = true ∧ s.wake = { s with seq := .pollRd }) ∨
      (¬(s.seq = .pollWait ∧ sleepOver s = true) ∧ s.wake = s) := by
  unfold State.wake
  split
  · rename_i h; exact .inl ⟨h.1, h.2, rfl⟩
  · exact .inr ⟨‹_›, rfl⟩

end Sys2Proof.Machine
end

