-- ==== Sys2Proof/Laws/Step.lean ====
section
/-! SUPPORT. Where a step's event comes from and everything an event can make of the state: the inversion lemmas of
`step`. -/

namespace Sys2Proof.Machine

open Sys2Proof

theorem step_cons (s : State) (e : EnvEvent) (rest : List EnvEvent) (h : s.inbox = e :: rest) :
    step s = runEvent e { s with inbox := rest } := by
  simp [step, nextEvent, h]

theorem step_nil (s : State) (h : s.inbox = []) :
    step s = runEvent (Config.freeEvent s.draws) { s with draws := s.draws + 1 } := by
  simp [step, nextEvent, h]

/-- Taking the event changes `inbox` and `draws` alone. -/
theorem nextEvent_frame (s : State) :
    ∃ rest n, (nextEvent s).2 = { s with inbox := rest, draws := n } := by
  unfold nextEvent
  split <;> exact ⟨_, _, rfl⟩

/-- A data read's operation is the data read of its phase. -/
theorem exec_dataReadInstr (i : Fin 6) (s : State) : exec (dataReadInstr i) s = .next (dataRead i s) := by
  match i with
  | 0 | 1 | 2 | 3 | 4 | 5 => rfl

/-- A host write while the block is busy, and while it is not. -/
theorem execHwr_eq (index : HostIndex) (data : Word64) (s : State) :
    exec (.hwr index data) s =
      .next (if s.busy then s.record (.hostWrite index data)
        else hostWrite index data (s.record (.hostWrite index data))) := by
  cases hb : s.busy <;> simp [exec, execHwr, State.accepts, hb]

/-- A word at the command register does what a host write to index 0x00 does. -/
theorem runCommand_eq (w : Word64) (s : State) :
    runCommand w s =
      .next (if s.busy then s.record (.hostWrite 0#6 w)
        else dispatchCommand (commandCode w) (s.record (.hostWrite 0#6 w))) := by
  have hw := commandWord_parts w
  simp only [runCommand, decode]
  obtain ⟨hc, hd⟩ | ⟨hc, hd⟩ | ⟨hc, hd⟩ | ⟨h1, h2, h3, hd⟩ := decodeCommand_cases w
  · rw [hc] at hw
    cases hb : s.busy <;> simp [hd, exec, execConfigure, State.accepts, dispatchCommand, hw, hc, hb]
  · rw [hc] at hw
    cases hb : s.busy <;> simp [hd, exec, execFetch, State.accepts, dispatchCommand, hw, hc, hb]
  · rw [hc] at hw
    cases hb : s.busy <;> simp [hd, exec, execProcess, State.accepts, dispatchCommand, hw, hc, hb]
  · cases hb : s.busy <;> simp [hd, reservedCommandWord, State.accepts, dispatchCommand, h1, h2, h3, hb]

theorem runAccess_write (w : BitVec 7) (data : Word64) (s : State) (h : accessIsWrite w = true) :
    runAccess w data s = exec (.hwr (accessIndex w) data) s := by
  simp [runAccess, decode, decodeAccess, h]

theorem runAccess_read (w : BitVec 7) (data : Word64) (s : State) (h : accessIsWrite w = false) :
    runAccess w data s = exec (.hrd (accessIndex w)) s := by
  simp [runAccess, decode, decodeAccess, h]

theorem runAnswer_cfgWr (a : BusAnswer) (s : State) (h : s.seq = .cfgWr) :
    runAnswer a s = exec .wrregConfig { s with busIn := a } := by
  simp [runAnswer, State.busDescriptor, h, BusEvent.descriptor, writeDescriptor, Config.devConfig, decode, decodeBus]

theorem runAnswer_pollRd (a : BusAnswer) (s : State) (h : s.seq = .pollRd) :
    runAnswer a s = exec .rdregMasken { s with busIn := a } := by
  simp [runAnswer, State.busDescriptor, h, BusEvent.descriptor, readDescriptor, Config.devMaskEn, decode, decodeBus]

theorem runAnswer_dataRd (a : BusAnswer) (s : State) (i : Fin 6) (h : s.seq = .dataRd i) :
    runAnswer a s = .next (dataRead i { s with busIn := a }) := by
  have hd : decode (.bus (readDescriptor (dataAddr i))) = .ok (dataReadInstr i) := by
    match i with
    | 0 | 1 | 2 | 3 | 4 | 5 => rfl
  simp [runAnswer, State.busDescriptor, h, BusEvent.descriptor, hd, exec_dataReadInstr]

theorem runAnswer_noTransaction (a : BusAnswer) (s : State) (h : s.transaction = none) : runAnswer a s = .next s := by
  simp [runAnswer, State.busDescriptor, h]

/-- An event that makes a host write is a host access. -/
theorem isHostAccess_of_write {e : EnvEvent} {i : HostIndex} {d : Word64} (h : hostWriteOf e = some (i, d)) :
    isHostAccess e = true := by
  cases e <;> first | rfl | cases h

/-- Everything the event `e` can make of the state `s`, one constructor per kind of step. -/
inductive EventEffect (s : State) : EnvEvent → State → Prop where
  | ignoredWrite {e i d} (he : hostWriteOf e = some (i, d)) (hb : s.busy = true) :
      EventEffect s e (s.record (.hostWrite i d))
  | hostWrite {e i d} (he : hostWriteOf e = some (i, d)) (hb : s.busy = false) :
      EventEffect s e (hostWrite i d (s.record (.hostWrite i d)))
  | hostRead {e} (i) (he : hostWriteOf e = none) (hh : isHostAccess e = true) :
      EventEffect s e (s.record (.hostRead i (readReg (hostReg i) s)))
  | issue : EventEffect s .issue (runIssue s)
  | noTransaction (a) (h : s.transaction = none) : EventEffect s (.answer a) s
  | configureAnswer {a t} (hs : s.seq = .cfgWr) (h : exec .wrregConfig { s with busIn := a } = .next t) :
      EventEffect s (.answer a) t
  | pollAnswer {a t} (hs : s.seq = .pollRd) (h : exec .rdregMasken { s with busIn := a } = .next t) :
      EventEffect s (.answer a) t
  | dataAnswer {a i} (hs : s.seq = .dataRd i) : EventEffect s (.answer a) (dataRead i { s with busIn := a })
  | wake : EventEffect s .wake s.wake
  | tick : EventEffect s .tick s.tick
  | rst : EventEffect s .rst s.blockReset
  | wallclock (v) : EventEffect s (.wallclock v) { s with wallclock := v }

/-- An event makes of the state what `EventEffect` says. -/
theorem runEvent_effect {e : EnvEvent} {s t : State} (h : runEvent e s = .next t) : EventEffect s e t := by
  cases e with
  | command w =>
    simp only [runEvent, runCommand_eq, Host.Outcome.next.injEq] at h
    subst h
    cases hb : s.busy with
    | true => simpa using EventEffect.ignoredWrite rfl hb
    | false =>
      have := EventEffect.hostWrite (s := s) (e := .command w) rfl hb
      rw [hostWrite_eq, if_pos ((hostReg_eq_cmd_iff 0#6).2 rfl)] at this
      simpa using this
  | access w data =>
    cases hw : accessIsWrite w with
    | true =>
      simp only [runEvent, runAccess_write w data s hw, execHwr_eq, Host.Outcome.next.injEq] at h
      have he : hostWriteOf (.access w data) = some (accessIndex w, data) := by simp [hostWriteOf, hw]
      subst h
      cases hb : s.busy with
      | true => simpa using EventEffect.ignoredWrite he hb
      | false => simpa using EventEffect.hostWrite he hb
    | false =>
      simp only [runEvent, runAccess_read w data s hw, exec, execHrd, Host.Outcome.next.injEq] at h
      subst h
      exact .hostRead _ (by simp [hostWriteOf, hw]) rfl
  | answer a =>
    simp only [runEvent] at h
    obtain ⟨q, hs⟩ : ∃ q, s.seq = q := ⟨_, rfl⟩
    cases q with
    | idle =>
      rw [runAnswer_noTransaction a s (by simp [hs])] at h
      cases h; exact .noTransaction a (by simp [hs])
    | pollWait =>
      rw [runAnswer_noTransaction a s (by simp [hs])] at h
      cases h; exact .noTransaction a (by simp [hs])
    | cfgWr => rw [runAnswer_cfgWr a s hs] at h; exact .configureAnswer hs h
    | pollRd => rw [runAnswer_pollRd a s hs] at h; exact .pollAnswer hs h
    | dataRd i => rw [runAnswer_dataRd a s i hs] at h; cases h; exact .dataAnswer hs
  | issue => cases h; exact .issue
  | wake => cases h; exact .wake
  | tick => cases h; exact .tick
  | rst => cases h; exact .rst
  | wallclock v => cases h; exact .wallclock v

/-- The answer to the configuration write, both ways. -/
theorem execWrregConfig_cases {s t : State} (hs : s.seq = .cfgWr) (h : exec .wrregConfig s = .next t) :
    (s.busIn.fail = false ∧
      t = { (wrreg Config.devConfig s.cfgLatch s).2 with configured := true }.endCommand .ok) ∨
    (s.busIn.fail = true ∧
      t = { (wrreg Config.devConfig s.cfgLatch s).2 with configured := false }.endCommand .busError) := by
  simp only [exec, execWrregConfig, hs, if_true, wrreg_eq, Host.Outcome.next.injEq, configureAnswer] at h
  cases hf : s.busIn.fail <;> simp [hf, wrreg_eq] at h ⊢ <;> exact h.symm

/-- The answer to a poll: failure, flag, watchdog, sleep. -/
theorem execRdregMasken_cases {s t : State} (hs : s.seq = .pollRd) (h : exec .rdregMasken s = .next t) :
    (s.busIn.fail = true ∧ t = (rdreg Config.devMaskEn s).2.endCommand .busError) ∨
    (s.busIn.fail = false ∧ t = pollAnswer (swap16 s.busIn.rdata) (rdreg Config.devMaskEn s).2) := by
  simp only [exec, execRdregMasken, hs, if_true] at h
  cases hf : s.busIn.fail with
  | true => rw [rdreg_fail _ _ hf] at h ⊢; exact .inl ⟨rfl, (Host.Outcome.next.inj h).symm⟩
  | false => rw [rdreg_word _ _ hf] at h ⊢; exact .inr ⟨rfl, (Host.Outcome.next.inj h).symm⟩

end Sys2Proof.Machine
end

