-- ==== Sys2Proof/Laws/Effects.lean ====
section
/-! SUPPORT. The next state of every kind of step written out field by field: each constructor of `Effect` is one line
of the block's behaviour. Proofs about a step take its cases and do not unfold a meaning. -/

namespace Sys2Proof.Machine

open Sys2Proof

/-- The flag is bit 8 of the wire word. -/
theorem readyFlag_swap16 (w : Word16) : readyFlag (swap16 w) = w.getLsbD 8 := by
  simp [readyFlag, swap16]

/-- The watchdog's comparison on numbers. -/
theorem watchdogExpired_eq (s : State) :
    watchdogExpired s = decide (s.timeout.toNat ≤ (s.now - s.t0).toNat) := by
  have h : s.timeout.toNat % 2 ^ 64 = s.timeout.toNat := Nat.mod_eq_of_lt (by have := s.timeout.isLt; omega)
  simp only [watchdogExpired, BitVec.le_def, BitVec.toNat_setWidth, h]

/-- The history after the transaction `e` of a phase, handed over now unless it already was. -/
def State.issuedHistory (s : State) (e : BusEvent) : List HistEvent :=
  if s.inFlight then s.history else .bus e :: s.history

/-- Everything the event `e` can make of the state `s`, with the next state written out. -/
inductive Effect (s : State) : EnvEvent → State → Prop where
  /-- A host read, or a host write while busy: no element of the block changes, no bus event. -/
  | recordOnly {e h} (he : isHostAccess e = true) (hb : busTrace h = busTrace s.history) :
      Effect s e { s with history := h }
  | notIssued (h : s.transaction = none ∨ s.inFlight = true) : Effect s .issue s
  | notAnswered {a} (h : s.transaction = none) : Effect s (.answer a) s
  | notWoken (h : s.seq ≠ .pollWait ∨ (s.now - s.w0).toNat < 20) : Effect s .wake s
  | configureAccepted {e d} (he : hostWriteOf e = some (0#6, d)) (hc : commandCode d = 0x1#4) (hb : s.busy = false) :
      Effect s e { s with
        history := .hostWrite 0#6 d :: s.history, cfgLatch := pack s.options, busy := true, seq := .cfgWr }
  | fetchAccepted {e d} (he : hostWriteOf e = some (0#6, d)) (hc : commandCode d = 0x2#4) (hb : s.busy = false)
      (hf : s.configured = true) :
      Effect s e { s with history := .hostWrite 0#6 d :: s.history, t0 := s.now, busy := true, seq := .pollRd }
  | fetchRefused {e d} (he : hostWriteOf e = some (0#6, d)) (hc : commandCode d = 0x2#4) (hb : s.busy = false)
      (hf : s.configured = false) :
      Effect s e { s with history := .hostWrite 0#6 d :: s.history, err := .notConfigured }
  | processed {e d} (he : hostWriteOf e = some (0#6, d)) (hc : commandCode d = 0x3#4) (hb : s.busy = false) :
      Effect s e { s with
        history := .hostWrite 0#6 d :: s.history, proc := processedSample s.draws s.raw s.cal, err := .ok
        draws := s.draws + 3 * drawsPerChannel }
  | badCommand {e d} (he : hostWriteOf e = some (0#6, d)) (h1 : commandCode d ≠ 0x1#4) (h2 : commandCode d ≠ 0x2#4)
      (h3 : commandCode d ≠ 0x3#4) (hb : s.busy = false) :
      Effect s e { s with history := .hostWrite 0#6 d :: s.history, err := .badCommand }
  | registerWrite {e i d o c n} (he : hostWriteOf e = some (i, d)) (hi : i ≠ 0#6) (hb : s.busy = false) :
      Effect s e { s with history := .hostWrite i d :: s.history, options := o, cal := c, timeout := n }
  | issued {r} (ht : s.transaction = some r) (hf : s.inFlight = false) :
      Effect s .issue { s with inFlight := true, history := .bus r :: s.history }
  | configured {a} (hs : s.seq = .cfgWr) (ha : a.fail = false) :
      Effect s (.answer a) { s with
        busIn := a, configured := true, err := .ok, busy := false, seq := .idle, inFlight := false
        history := .bus .done :: s.issuedHistory (.write 0x00 (swap16 s.cfgLatch)) }
  | configureFailed {a} (hs : s.seq = .cfgWr) (ha : a.fail = true) :
      Effect s (.answer a) { s with
        busIn := a, configured := false, err := .busError, busy := false, seq := .idle, inFlight := false
        history := .bus .fail :: s.issuedHistory (.write 0x00 (swap16 s.cfgLatch)) }
  | pollFailed {a} (hs : s.seq = .pollRd) (ha : a.fail = true) :
      Effect s (.answer a) { s with
        busIn := a, err := .busError, busy := false, seq := .idle, inFlight := false
        history := .bus .fail :: s.issuedHistory (.read 0x0F) }
  | flagSeen {a} (hs : s.seq = .pollRd) (ha : a.fail = false) (hr : a.rdata.getLsbD 8 = true) :
      Effect s (.answer a) { s with
        busIn := a, seq := .dataRd 0, inFlight := false
        history := .bus (.data a.rdata) :: s.issuedHistory (.read 0x0F) }
  | timedOut {a} (hs : s.seq = .pollRd) (ha : a.fail = false) (hr : a.rdata.getLsbD 8 = false)
      (hw : s.timeout.toNat ≤ (s.now - s.t0).toNat) :
      Effect s (.answer a) { s with
        busIn := a, fetched := false, err := .fetchTimeout, busy := false, seq := .idle, inFlight := false
        history := .bus (.data a.rdata) :: s.issuedHistory (.read 0x0F) }
  | pollAgain {a} (hs : s.seq = .pollRd) (ha : a.fail = false) (hr : a.rdata.getLsbD 8 = false)
      (hw : (s.now - s.t0).toNat < s.timeout.toNat) :
      Effect s (.answer a) { s with
        busIn := a, w0 := s.now, seq := .pollWait, inFlight := false
        history := .bus (.data a.rdata) :: s.issuedHistory (.read 0x0F) }
  | dataFailed {a i} (hs : s.seq = .dataRd i) (ha : a.fail = true) :
      Effect s (.answer a) { s with
        busIn := a, err := .busError, busy := false, seq := .idle, inFlight := false
        history := .bus .fail :: s.issuedHistory (.read (dataAddr i)) }
  | staged {a i} (hs : s.seq = .dataRd i) (hi : i.val < 5) (ha : a.fail = false) :
      Effect s (.answer a) { s with
        busIn := a, stg := s.stg.set i (swap16 a.rdata), seq := .dataRd (i + 1), inFlight := false
        history := .bus (.data a.rdata) :: s.issuedHistory (.read (dataAddr i)) }
  | committed {a} (hs : s.seq = .dataRd 5) (ha : a.fail = false) :
      Effect s (.answer a) { s with
        busIn := a, stg := s.stg.set 5 (swap16 a.rdata)
        raw :=
          { shunt := ⟨s.stg.w0, s.stg.w2, s.stg.w4⟩
            bus := ⟨s.stg.w1, s.stg.w3, swap16 a.rdata⟩ }
        fetched := true, fetchTs := s.wallclock, err := .ok, busy := false, seq := .idle, inFlight := false
        history := .wallclockSample s.wallclock :: .bus (.data a.rdata) :: s.issuedHistory (.read 0x06) }
  | woken (hs : s.seq = .pollWait) (hw : 20 ≤ (s.now - s.w0).toNat) : Effect s .wake { s with seq := .pollRd }
  | ticked : Effect s .tick { s with now := s.now + 1, history := .tick :: s.history }
  | reset : Effect s .rst s.blockReset
  | wallclock (v) : Effect s (.wallclock v) { s with wallclock := v }

/-- What an event makes of the state is one of these. -/
theorem EventEffect.effect {s t : State} {e : EnvEvent} (h : EventEffect s e t) : Effect s e t := by
  cases h with
  | ignoredWrite he hb => exact .recordOnly (isHostAccess_of_write he) rfl
  | @hostWrite _ i d he hb =>
    rw [hostWrite_eq]
    split
    · rename_i hi
      rw [hostReg_eq_cmd_iff] at hi
      subst hi
      obtain ⟨hc, e⟩ | ⟨hc, hf, e⟩ | ⟨hc, hf, e⟩ | ⟨hc, e⟩ | ⟨h1, h2, h3, e⟩ :=
        dispatchCommand_cases (commandCode d) (s.record (.hostWrite 0#6 d)) <;> rw [e]
      · exact .configureAccepted he hc hb
      · exact .fetchAccepted he hc hb hf
      · exact .fetchRefused he hc hb hf
      · exact .processed he hc hb
      · exact .badCommand he h1 h2 h3 hb
    · rename_i hi
      rw [hostReg_eq_cmd_iff] at hi
      obtain ⟨o, c, n, e⟩ := writeReg_frame (hostReg i) d (s.record (.hostWrite i d))
      rw [e]
      exact .registerWrite he hi hb
  | hostRead i he hh => exact .recordOnly hh rfl
  | issue =>
    obtain ⟨hn, e⟩ | ⟨r, hr, e⟩ := runIssue_cases s <;> rw [e]
    · exact .notIssued (.inl hn)
    · unfold State.issue
      split
      · rename_i h
        exact .notIssued (.inr h)
      · rename_i h
        exact .issued hr (by simpa using h)
  | noTransaction a h => exact .notAnswered h
  | @configureAnswer a t hs h =>
    obtain ⟨hf, e⟩ | ⟨hf, e⟩ := execWrregConfig_cases (s := { s with busIn := a }) hs h <;> rw [e, wrreg_eq]
    · dsimp only
      rw [hf]
      exact .configured (a := a) hs hf
    · dsimp only
      rw [hf]
      exact .configureFailed (a := a) hs hf
  | @pollAnswer a t hs h =>
    obtain ⟨hf, e⟩ | ⟨hf, e⟩ := execRdregMasken_cases (s := { s with busIn := a }) hs h
    · rw [e, rdreg_fail _ _ hf]
      exact .pollFailed (a := a) hs hf
    · rw [e, rdreg_word _ _ hf]
      obtain ⟨hr, e⟩ | ⟨hr, hw, e⟩ | ⟨hr, hw, e⟩ := pollAnswer_cases (swap16 a.rdata) _ <;> rw [e] <;>
        rw [readyFlag_swap16] at hr
      · exact .flagSeen (a := a) hs hf hr
      · rw [watchdogExpired_eq] at hw
        exact .timedOut (a := a) hs hf hr (of_decide_eq_true hw)
      · rw [watchdogExpired_eq] at hw
        exact .pollAgain (a := a) hs hf hr (Nat.lt_of_not_le (of_decide_eq_false hw))
  | @dataAnswer a i hs =>
    cases hf : a.fail
    · rw [dataRead_word i { s with busIn := a } hs hf, rdreg_word _ _ hf]
      obtain ⟨hi, e⟩ | ⟨hi, e⟩ := dataAnswer_cases i (swap16 a.rdata) _ <;> rw [e]
      · exact .staged (a := a) hs hi hf
      · subst hi
        exact .committed (a := a) hs hf
    · rw [dataRead_fail i { s with busIn := a } hs hf, rdreg_fail _ _ hf]
      exact .dataFailed (a := a) hs hf
  | wake =>
    obtain ⟨hs, hw, e⟩ | ⟨hn, e⟩ := State.wake_cases s <;> rw [e]
    · exact .woken hs (of_decide_eq_true hw)
    · refine .notWoken ?_
      by_cases hs : s.seq = .pollWait
      · exact .inr (Nat.lt_of_not_le fun h => hn ⟨hs, decide_eq_true h⟩)
      · exact .inl hs
  | tick => exact .ticked
  | rst => exact .reset
  | wallclock v => exact .wallclock v

/-- A step: the next event is taken, which changes `inbox` and `draws` alone, and then one of these. -/
theorem step_effect {s t : State} (h : step s = .next t) :
    ∃ rest n, (nextEvent s).2 = { s with inbox := rest, draws := n } ∧
      Effect { s with inbox := rest, draws := n } (nextEvent s).1 t := by
  obtain ⟨rest, n, hn⟩ := nextEvent_frame s
  have he := (runEvent_effect h).effect
  rw [hn] at he
  exact ⟨rest, n, hn, he⟩

end Sys2Proof.Machine
end

