-- ==== Sys2Proof/Laws/Float.lean ====
section
/-! SUPPORT. The small lemmas of the binary64 operations. -/

namespace Sys2Proof.Machine

open Sys2Proof

theorem unitsInOne_pos : 0 < unitsInOne := by
  unfold unitsInOne
  exact Nat.two_pow_pos 1074

/-- A rounded magnitude is at most an infinity's. -/
theorem roundUnits_le (n d : Nat) : roundUnits n d ≤ infMagnitude := by
  unfold roundUnits; exact Nat.min_le_right _ _

theorem infMagnitude_lt : infMagnitude < 2 ^ 63 := by decide

/-- The bits of a pattern made from a sign and a magnitude. -/
theorem getLsbD_withSign (neg : Bool) (m i : Nat) :
    (withSign neg m).getLsbD i = if i < 63 then m.testBit i else (decide (i = 63) && neg) := by
  have h : ((BitVec.ofBool neg ++ BitVec.ofNat 63 m : BitVec (1 + 63)).getLsbD i) = _ := BitVec.getLsbD_append
  refine Eq.trans h ?_
  split
  · rename_i hi; simp only [BitVec.getLsbD_ofNat, hi, decide_true, Bool.true_and]
  · rename_i hi
    have hz : decide (i - 63 = 0) = decide (i = 63) := by
      rw [decide_eq_decide]; omega
    rw [BitVec.getLsbD_ofBool, hz]

@[simp] theorem magnitude_withSign (neg : Bool) (m : Nat) (h : m < 2 ^ 63) : magnitude (withSign neg m) = m := by
  have : (withSign neg m).extractLsb' 0 63 = BitVec.ofNat 63 m := by
    apply BitVec.eq_of_getLsbD_eq
    intro i hi
    simp only [BitVec.getLsbD_extractLsb', Nat.zero_add, getLsbD_withSign, hi, if_true, decide_true, Bool.true_and,
      BitVec.getLsbD_ofNat]
  rw [magnitude, this, BitVec.toNat_ofNat, Nat.mod_eq_of_lt h]

@[simp] theorem negative_withSign (neg : Bool) (m : Nat) : negative (withSign neg m) = neg := by
  simp only [negative, getLsbD_withSign]; simp

/-- A NaN that is drawn is a NaN, whatever the free values are. -/
@[simp] theorem isNaN_freeNaN (draw : Nat) : isNaN (freeNaN draw) = true := by
  have hp := (Config.freeNaNPayload draw).isLt
  have hlt : infMagnitude + 2 ^ 52 ≤ 2 ^ 63 := by decide
  unfold freeNaN isNaN
  simp only [decide_eq_true_eq]
  split
  · rw [magnitude_withSign _ _ (by omega)]; omega
  · rw [magnitude_withSign _ _ (by omega)]; omega

/-- A signed magnitude up to an infinity's is no NaN. -/
@[simp] theorem isNaN_withSign (neg : Bool) (m : Nat) (h : m ≤ infMagnitude) : isNaN (withSign neg m) = false := by
  simp [isNaN, magnitude_withSign neg m (Nat.lt_of_le_of_lt h infMagnitude_lt)]
  exact h

/-- A NaN is neither an infinity nor a zero, and not finite. -/
theorem isNaN_excludes (a : F64) (h : isNaN a = true) : isInf a = false ∧ isZero a = false ∧ isFinite a = false := by
  simp only [isNaN, isInf, isZero, isFinite, decide_eq_true_eq, decide_eq_false_iff_not] at *
  omega

/-- The four kinds of a pattern. -/
theorem pattern_cases (a : F64) : isNaN a = true ∨ isInf a = true ∨ isFinite a = true := by
  simp only [isNaN, isInf, isFinite, decide_eq_true_eq]
  omega

theorem isFinite_excludes {a : F64} (h : isFinite a = true) : isNaN a = false ∧ isInf a = false := by
  simp only [isFinite, isNaN, isInf, decide_eq_true_eq, decide_eq_false_iff_not] at *
  omega

theorem isInf_excludes {a : F64} (h : isInf a = true) : isNaN a = false ∧ isZero a = false := by
  have : 0 < infMagnitude := by decide
  simp only [isZero, isNaN, isInf, decide_eq_true_eq, decide_eq_false_iff_not] at *
  omega

@[simp] theorem isInf_withSign_infMagnitude (neg : Bool) : isInf (withSign neg infMagnitude) = true := by
  simp only [isInf, magnitude_withSign _ _ infMagnitude_lt, decide_true]

@[simp] theorem isZero_withSign_zero (neg : Bool) : isZero (withSign neg 0) = true := by
  simp only [isZero, magnitude_withSign neg 0 (by decide), decide_true]

/-! The operations on finite operands: one rounding. -/

theorem fmul_finite (draw : Nat) {a b : F64} (ha : isFinite a = true) (hb : isFinite b = true) :
    fmul draw a b = withSign (negative a ^^ negative b) (roundUnits (units a * units b) unitsInOne) := by
  unfold fmul
  rw [(isFinite_excludes ha).1, (isFinite_excludes hb).1, (isFinite_excludes ha).2, (isFinite_excludes hb).2]
  exact (if_neg (by decide)).trans (if_neg (by decide))

theorem fdiv_finite (draw : Nat) {a b : F64} (ha : isFinite a = true) (hb : isFinite b = true)
    (hz : isZero b = false) :
    fdiv draw a b = withSign (negative a ^^ negative b) (roundUnits (units a * unitsInOne) (units b)) := by
  unfold fdiv
  rw [(isFinite_excludes ha).1, (isFinite_excludes hb).1, (isFinite_excludes ha).2, (isFinite_excludes hb).2, hz]
  exact (if_neg (by decide)).trans
    ((if_neg (by decide)).trans ((if_neg (by decide)).trans (if_neg (by decide))))

theorem fadd_finite (draw : Nat) {a b : F64} (ha : isFinite a = true) (hb : isFinite b = true) :
    fadd draw a b =
      if signedUnits a + signedUnits b = 0 then withSign (negative a && negative b) 0
      else withSign (decide (signedUnits a + signedUnits b < 0))
        (roundUnits (signedUnits a + signedUnits b).natAbs 1) := by
  unfold fadd
  rw [(isFinite_excludes ha).1, (isFinite_excludes hb).1, (isFinite_excludes ha).2, (isFinite_excludes hb).2]
  exact (if_neg (by decide)).trans ((if_neg (by decide)).trans (if_neg (by decide)))

end Sys2Proof.Machine
end

