-- ==== Sys2Proof/Laws/PerInstr.lean ====
section
/-! SUPPORT. One lemma per operation for each statement about all of them. -/

namespace Sys2Proof.Laws.TableRow

open Sys2Proof

/-- The number that names the operation has the width of its row of spec/opcode_table.json and, under the row's mask,
the row's match. -/
def Statement (i : Instr) : Prop :=
  (encode i).number.1 = (tableRow i).1 ∧ (encode i).number.2 &&& (tableRow i).2.2 = (tableRow i).2.1

theorem command_masked (ignored : BitVec 60) (code : BitVec 4) :
    (commandWord ignored code).toNat &&& 0xF = code.toNat := by
  have h := congrArg BitVec.toNat (commandCode_commandWord ignored code)
  rw [commandCode, BitVec.extractLsb'_toNat] at h
  have h15 : (0xF : Nat) = 2 ^ 4 - 1 := by decide
  rw [h15, Nat.and_two_pow_sub_one_eq_mod]
  simpa using h

theorem host_masked (b : BitVec 1) (index : HostIndex) : (b ++ index).toNat &&& 0x40 = b.toNat * 0x40 := by
  revert b index; decide

theorem configure (ignored : BitVec 60) : Statement (.configure ignored) :=
  ⟨rfl, command_masked ignored 0x1#4⟩

theorem fetch (ignored : BitVec 60) : Statement (.fetch ignored) :=
  ⟨rfl, command_masked ignored 0x2#4⟩

theorem process (ignored : BitVec 60) : Statement (.process ignored) :=
  ⟨rfl, command_masked ignored 0x3#4⟩

theorem hwr (index : HostIndex) (data : Word64) : Statement (.hwr index data) :=
  ⟨rfl, host_masked 1#1 index⟩

theorem hrd (index : HostIndex) : Statement (.hrd index) :=
  ⟨rfl, host_masked 0#1 index⟩

theorem wrregConfig : Statement .wrregConfig := ⟨rfl, rfl⟩

theorem rdregShunt0 : Statement .rdregShunt0 := ⟨rfl, rfl⟩

theorem rdregBus0 : Statement .rdregBus0 := ⟨rfl, rfl⟩

theorem rdregShunt1 : Statement .rdregShunt1 := ⟨rfl, rfl⟩

theorem rdregBus1 : Statement .rdregBus1 := ⟨rfl, rfl⟩

theorem rdregShunt2 : Statement .rdregShunt2 := ⟨rfl, rfl⟩

theorem rdregBus2 : Statement .rdregBus2 := ⟨rfl, rfl⟩

theorem rdregMasken : Statement .rdregMasken := ⟨rfl, rfl⟩

end Sys2Proof.Laws.TableRow
end

