-- ==== Sys2Proof/Laws/Rounding.lean ====
section
/-! SUPPORT. `roundUnits` gives a nearest binary64, ties to even: the one lemma behind the rounding of products, sums and
quotients (43_decode_scale.md R211). -/

namespace Sys2Proof.Machine

open Sys2Proof

/-- The units of the magnitude pattern `m`. -/
def patternUnits (m : Nat) : Nat :=
  if m / 2 ^ 52 = 0 then m % 2 ^ 52 else (2 ^ 52 + m % 2 ^ 52) * 2 ^ (m / 2 ^ 52 - 1)

theorem units_eq (a : F64) : units a = patternUnits (magnitude a) := by
  have he : (a.extractLsb' 52 11).toNat = magnitude a / 2 ^ 52 := by
    simp only [magnitude, BitVec.extractLsb'_toNat, Nat.shiftRight_eq_div_pow]
    omega
  have hf : (a.extractLsb' 0 52).toNat = magnitude a % 2 ^ 52 := by
    simp only [magnitude, BitVec.extractLsb'_toNat, Nat.shiftRight_eq_div_pow]
    omega
  simp only [units, patternUnits, he, hf]

/-- A pattern of exponent part `k` and fraction part `q`, where `q` has 53 bits, or fewer at the bottom, or has just
carried: it stands for `q * 2^k` units. -/
theorem patternUnits_parts (k q : Nat) (h : k = 0 ∨ 2 ^ 52 ≤ q) (hq : q ≤ 2 ^ 53) :
    patternUnits (k * 2 ^ 52 + q) = q * 2 ^ k := by
  unfold patternUnits
  by_cases h0 : q < 2 ^ 52
  · have hk : k = 0 := by omega
    subst hk
    rw [if_pos (by omega)]
    omega
  · by_cases h1 : q < 2 ^ 53
    · have hd : (k * 2 ^ 52 + q) / 2 ^ 52 = k + 1 := by omega
      have hm : (k * 2 ^ 52 + q) % 2 ^ 52 = q - 2 ^ 52 := by omega
      rw [hd, hm, if_neg (by omega), Nat.add_sub_cancel, Nat.add_sub_cancel' (by omega)]
    · have hq' : q = 2 ^ 53 := by omega
      have hd : (k * 2 ^ 52 + q) / 2 ^ 52 = k + 2 := by omega
      have hm : (k * 2 ^ 52 + q) % 2 ^ 52 = 0 := by omega
      rw [hd, hm, if_neg (by omega), hq']
      have : k + 2 - 1 = k + 1 := by omega
      rw [this, Nat.pow_succ]
      omega

/-- The next pattern stands for more units. -/
theorem patternUnits_lt_succ (m : Nat) : patternUnits m < patternUnits (m + 1) := by
  by_cases h : m / 2 ^ 52 = 0
  · have hm : m = 0 * 2 ^ 52 + m := by omega
    have h1 := patternUnits_parts 0 m (.inl rfl) (by omega)
    have h2 := patternUnits_parts 0 (m + 1) (.inl rfl) (by omega)
    simp only [Nat.zero_mul, Nat.zero_add, Nat.pow_zero, Nat.mul_one] at h1 h2
    omega
  · obtain ⟨k, hk⟩ : ∃ k, m / 2 ^ 52 = k + 1 := ⟨m / 2 ^ 52 - 1, by omega⟩
    have e1 : m = k * 2 ^ 52 + (2 ^ 52 + m % 2 ^ 52) := by omega
    have h1 := patternUnits_parts k (2 ^ 52 + m % 2 ^ 52) (.inr (by omega)) (by omega)
    have h2 := patternUnits_parts k (2 ^ 52 + m % 2 ^ 52 + 1) (.inr (by omega)) (by omega)
    rw [← e1] at h1
    rw [show k * 2 ^ 52 + (2 ^ 52 + m % 2 ^ 52 + 1) = m + 1 by omega] at h2
    rw [h1, h2]
    exact Nat.mul_lt_mul_of_pos_right (Nat.lt_succ_self _) (Nat.two_pow_pos k)

theorem patternUnits_mono {m n : Nat} (h : m ≤ n) : patternUnits m ≤ patternUnits n := by
  induction h with
  | refl => exact Nat.le_refl _
  | step _ ih => exact Nat.le_of_lt (Nat.lt_of_le_of_lt ih (patternUnits_lt_succ _))

/-- The quotient that `roundUnits` cuts to 53 bits: which binade it is in. -/
theorem quotient_bounds (n d : Nat) :
    let k := (n / d).log2 - 52
    let q := n / (d * 2 ^ k)
    (k = 0 ∨ 2 ^ 52 ≤ q) ∧ q < 2 ^ 53 := by
  intro k q
  have hq : q = n / d / 2 ^ k := (Nat.div_div_eq_div_mul n d (2 ^ k)).symm
  by_cases h0 : n / d = 0
  · rw [hq, h0]
    simp [k, h0]
  · have h1 : 2 ^ (n / d).log2 ≤ n / d := Nat.log2_self_le h0
    have h2 : n / d < 2 ^ ((n / d).log2 + 1) := Nat.lt_log2_self
    rw [hq]
    by_cases hk : (n / d).log2 ≤ 52
    · have : k = 0 := by omega
      refine ⟨.inl this, ?_⟩
      rw [this, Nat.pow_zero, Nat.div_one]
      exact Nat.lt_of_lt_of_le h2 (Nat.pow_le_pow_right (by omega) (by omega))
    · have e : (n / d).log2 = 52 + k := by omega
      rw [e] at h1 h2
      refine ⟨.inr ?_, ?_⟩
      · rw [Nat.le_div_iff_mul_le (Nat.two_pow_pos k), ← Nat.pow_add]
        exact h1
      · rw [Nat.div_lt_iff_lt_mul (Nat.two_pow_pos k), ← Nat.pow_add, show 53 + k = 52 + k + 1 by omega]
        exact h2

/-- How `roundUnits` rounds, before the cut at infinity: to the pattern `p` just below the exact quotient, or to the one
after it, the nearer of the two, the even one at a tie. -/
theorem roundUnits_cases (n d : Nat) (hd : 0 < d) :
    ∃ p m, patternUnits p * d ≤ n ∧ n < patternUnits (p + 1) * d ∧ roundUnits n d = min m infMagnitude ∧
      ((m = p ∧
          (2 * n < (patternUnits p + patternUnits (p + 1)) * d ∨
            (2 * n = (patternUnits p + patternUnits (p + 1)) * d ∧ p % 2 = 0))) ∨
        (m = p + 1 ∧
          ((patternUnits p + patternUnits (p + 1)) * d < 2 * n ∨
            (2 * n = (patternUnits p + patternUnits (p + 1)) * d ∧ (p + 1) % 2 = 0)))) := by
  obtain ⟨hk, hq⟩ := quotient_bounds n d
  generalize hkd : (n / d).log2 - 52 = k at hk hq
  generalize hqd : n / (d * 2 ^ k) = q at hk hq
  have hg : 0 < d * 2 ^ k := Nat.mul_pos hd (Nat.two_pow_pos k)
  have hn : d * 2 ^ k * q + n % (d * 2 ^ k) = n := by rw [← hqd]; exact Nat.div_add_mod n _
  have hlt : n % (d * 2 ^ k) < d * 2 ^ k := Nat.mod_lt _ hg
  have e0 : patternUnits (k * 2 ^ 52 + q) * d = d * 2 ^ k * q := by
    rw [patternUnits_parts k q hk (by omega), Nat.mul_comm, Nat.mul_comm q, Nat.mul_assoc]
  have e1 : patternUnits (k * 2 ^ 52 + q + 1) * d = d * 2 ^ k * q + d * 2 ^ k := by
    rw [Nat.add_assoc, patternUnits_parts k (q + 1) (hk.imp id (by omega)) (by omega), Nat.mul_comm,
      Nat.mul_comm (q + 1), ← Nat.mul_assoc, Nat.mul_succ]
  have es : (patternUnits (k * 2 ^ 52 + q) + patternUnits (k * 2 ^ 52 + q + 1)) * d =
      2 * (d * 2 ^ k * q) + d * 2 ^ k := by
    rw [Nat.add_mul, e0, e1]; omega
  refine ⟨k * 2 ^ 52 + q,
    k * 2 ^ 52 +
      if d * 2 ^ k < 2 * (n % (d * 2 ^ k)) ∨ 2 * (n % (d * 2 ^ k)) = d * 2 ^ k ∧ q % 2 = 1 then q + 1 else q,
    by omega, by omega, by simp only [roundUnits, hkd, hqd], ?_⟩
  rw [es]
  have heven : k * 2 ^ 52 % 2 = 0 := by omega
  generalize k * 2 ^ 52 = base at *
  generalize d * 2 ^ k * q = b at *
  generalize d * 2 ^ k = g at *
  generalize n % g = r at *
  by_cases hc : g < 2 * r ∨ 2 * r = g ∧ q % 2 = 1
  · rw [if_pos hc]
    right
    omega
  · rw [if_neg hc]
    left
    omega

theorem two_halfwayUnits (k : Nat) :
    2 * halfwayUnits k =
      patternUnits ((k + 1) * 2 ^ 52 + (2 ^ 53 - 1)) + patternUnits ((k + 1) * 2 ^ 52 + 2 ^ 53) := by
  have h : 2 ^ (k + 1) = 2 ^ k * 2 := Nat.pow_succ 2 k
  rw [patternUnits_parts (k + 1) (2 ^ 53 - 1) (.inr (by decide)) (by decide),
    patternUnits_parts (k + 1) (2 ^ 53) (.inr (by decide)) (by decide), h, halfwayUnits]
  generalize 2 ^ k = x
  omega

/-- `overflowUnits` lies half way between the largest finite pattern and the one after it. -/
theorem two_overflowUnits :
    2 * overflowUnits = patternUnits (infMagnitude - 1) + patternUnits (infMagnitude - 1 + 1) := by
  have h0 : infMagnitude - 1 = (2044 + 1) * 2 ^ 52 + (2 ^ 53 - 1) := by decide
  have h1 : infMagnitude - 1 + 1 = (2044 + 1) * 2 ^ 52 + 2 ^ 53 := by decide
  exact (two_halfwayUnits 2044).trans (by rw [h1, h0])

theorem overflowUnits_pos : 0 < overflowUnits := by
  have := two_overflowUnits
  have := patternUnits_lt_succ (infMagnitude - 1)
  omega

/-- `roundUnits` overflows exactly from half way above the largest finite value on. -/
theorem roundUnits_lt_iff (n d : Nat) (hd : 0 < d) :
    roundUnits n d < infMagnitude ↔ n < overflowUnits * d := by
  obtain ⟨p, m, h1, h2, hm, h3⟩ := roundUnits_cases n d hd
  have ho : 2 * (overflowUnits * d) = (patternUnits (infMagnitude - 1) + patternUnits (infMagnitude - 1 + 1)) * d := by
    rw [← two_overflowUnits, Nat.mul_assoc]
  have hodd : (infMagnitude - 1) % 2 = 1 := by decide
  have hpos : 1 ≤ infMagnitude := by decide
  have mono (i j : Nat) (h : i ≤ j) : patternUnits i * d ≤ patternUnits j * d :=
    Nat.mul_le_mul_right d (patternUnits_mono h)
  have hstep : patternUnits (infMagnitude - 1) * d ≤ patternUnits (infMagnitude - 1 + 1) * d := mono _ _ (by omega)
  have hp := Nat.lt_trichotomy p (infMagnitude - 1)
  rw [Nat.add_mul] at ho h3
  rw [hm]
  generalize infMagnitude = top at *
  rcases hp with h | h | h
  · have := mono (p + 1) (top - 1) (by omega)
    generalize patternUnits (top - 1) * d = x at *
    generalize patternUnits (top - 1 + 1) * d = y at *
    omega
  · subst h
    omega
  · have := mono (top - 1 + 1) p (by omega)
    generalize patternUnits (top - 1) * d = x at *
    generalize patternUnits (top - 1 + 1) * d = y at *
    omega

/-- `roundUnits` is nearest, and even at a tie. -/
theorem roundUnits_nearest (n d m : Nat) (hd : 0 < d) (hr : roundUnits n d < infMagnitude) :
    ((n : Int) - (patternUnits (roundUnits n d) * d : Nat)).natAbs ≤ ((n : Int) - (patternUnits m * d : Nat)).natAbs ∧
      (((n : Int) - (patternUnits (roundUnits n d) * d : Nat)).natAbs =
          ((n : Int) - (patternUnits m * d : Nat)).natAbs →
        m = roundUnits n d ∨ roundUnits n d % 2 = 0) := by
  obtain ⟨p, v, h1, h2, hv, h3⟩ := roundUnits_cases n d hd
  have hv : roundUnits n d = v := by omega
  rw [hv]
  have hm : (m < p ∧ patternUnits m * d < patternUnits p * d) ∨ m = p ∨ m = p + 1 ∨
      (p + 1 < m ∧ patternUnits (p + 1) * d < patternUnits m * d) := by
    rcases Nat.lt_trichotomy m p with h | h | h
    · exact .inl ⟨h, Nat.mul_lt_mul_of_pos_right
        (Nat.lt_of_lt_of_le (patternUnits_lt_succ m) (patternUnits_mono h)) hd⟩
    · exact .inr (.inl h)
    · rcases Nat.lt_or_eq_of_le h with h | h
      · exact .inr (.inr (.inr ⟨h, Nat.mul_lt_mul_of_pos_right
          (Nat.lt_of_lt_of_le (patternUnits_lt_succ (p + 1)) (patternUnits_mono h)) hd⟩))
      · exact .inr (.inr (.inl h.symm))
  rw [Nat.add_mul] at h3
  rcases h3 with ⟨e, h3⟩ | ⟨e, h3⟩ <;> subst e <;> rcases hm with ⟨h, hm⟩ | hm | hm | ⟨h, hm⟩ <;>
    (try subst hm) <;> omega

/-- The value of a pattern made from a sign and a magnitude. -/
theorem signedUnits_withSign (neg : Bool) (m : Nat) (h : m < 2 ^ 63) :
    signedUnits (withSign neg m) = if neg then -(patternUnits m : Int) else (patternUnits m : Int) := by
  simp only [signedUnits, units_eq, negative_withSign, magnitude_withSign neg m h]

/-- A ratio rounded with the ratio's sign is a nearest binary64, ties to even. -/
theorem nearestEven_withSign (neg : Bool) (n d : Nat) (hd : 0 < d) (hr : roundUnits n d < infMagnitude) :
    NearestEven (if neg then -(n : Int) else (n : Int)) d (withSign neg (roundUnits n d)) := by
  intro c _
  have hlsb : (withSign neg (roundUnits n d)).getLsbD 0 = decide (roundUnits n d % 2 = 1) := by
    rw [getLsbD_withSign, if_pos (by omega), Nat.testBit_zero]
  have h0 := roundUnits_nearest n d 0 hd hr
  have hc := roundUnits_nearest n d (magnitude c) hd hr
  have hz : patternUnits 0 = 0 := rfl
  rw [signedUnits_withSign neg _ (Nat.lt_trans hr infMagnitude_lt), hlsb]
  rw [hz, Nat.zero_mul] at h0
  have hm : magnitude c = roundUnits n d → patternUnits (magnitude c) = patternUnits (roundUnits n d) :=
    congrArg patternUnits
  have hi : 0 = roundUnits n d → 0 = patternUnits (roundUnits n d) := fun h => by rw [← h, hz]
  have hs : signedUnits c = (patternUnits (magnitude c) : Int) ∨ signedUnits c = -(patternUnits (magnitude c) : Int) := by
    simp only [signedUnits, units_eq]
    cases negative c <;> simp
  have hpos : patternUnits (magnitude c) = 0 ∨ 0 < patternUnits (magnitude c) * d := by
    rcases Nat.eq_zero_or_pos (patternUnits (magnitude c)) with h | h
    · exact .inl h
    · exact .inr (Nat.mul_pos h hd)
  have hzero : patternUnits (magnitude c) = 0 → patternUnits (magnitude c) * d = 0 := fun h => by rw [h, Nat.zero_mul]
  simp only [decide_eq_false_iff_not]
  generalize patternUnits (magnitude c) = u at *
  generalize patternUnits (roundUnits n d) = v at *
  generalize roundUnits n d = r at *
  generalize infMagnitude = top at *
  have hud : ((u : Int) * (d : Int)) = ((u * d : Nat) : Int) := (Int.natCast_mul u d).symm
  have hvd : ((v : Int) * (d : Int)) = ((v * d : Nat) : Int) := (Int.natCast_mul v d).symm
  rcases hs with hs | hs <;> rw [hs] <;> cases neg <;>
    simp only [Bool.false_eq_true, if_true, if_false, Int.neg_mul, hud, hvd] <;>
    generalize u * d = x at * <;> generalize v * d = y at * <;> omega

/-- A ratio rounded with the ratio's sign is rounded once: to an infinity on overflow, to a nearest value otherwise.
The sign of a ratio that is zero is free. -/
theorem roundedOnce_withSign (neg : Bool) (n d : Nat) (hd : 0 < d) :
    RoundedOnce (if neg then -(n : Int) else (n : Int)) d (withSign neg (roundUnits n d)) := by
  have habs : (if neg then -(n : Int) else (n : Int)).natAbs = n := by cases neg <;> simp
  have hle := roundUnits_le n d
  have hmag := magnitude_withSign neg _ (Nat.lt_of_le_of_lt hle infMagnitude_lt)
  have hiff := roundUnits_lt_iff n d hd
  have ho0 : 0 < overflowUnits * d := Nat.mul_pos overflowUnits_pos hd
  unfold RoundedOnce
  rw [habs]
  generalize overflowUnits = o at *
  by_cases ho : o * d ≤ n
  · rw [if_pos ho]
    have hn : 0 < n := Nat.lt_of_lt_of_le ho0 ho
    refine ⟨?_, ?_⟩
    · simp only [isInf, hmag, decide_eq_true_eq]
      exact Nat.le_antisymm hle (Nat.le_of_not_lt fun h => absurd (hiff.1 h) (Nat.not_lt_of_le ho))
    · rw [negative_withSign]
      cases neg <;> simp [hn]
  · rw [if_neg ho]
    have hr : roundUnits n d < infMagnitude := hiff.2 (Nat.lt_of_not_le ho)
    exact ⟨by simp only [isFinite, hmag, decide_eq_true_eq]; exact hr, nearestEven_withSign neg n d hd hr⟩

end Sys2Proof.Machine
end

