-- ==== Sys2Proof/Laws/Runs.lean ====
section
/-! SUPPORT. Runs of several steps: how they join, and what the background events of a running command leave as it is
(70_reset_and_hazards.md R320, R321, 44_host_access.md R242). -/

namespace Sys2Proof.Machine

open Sys2Proof

theorem tickCount_append (es fs : List EnvEvent) : tickCount (es ++ fs) = tickCount es + tickCount fs :=
  List.count_append

theorem wallclockAfter_append (es fs : List EnvEvent) (w : Word64) :
    wallclockAfter (es ++ fs) w = wallclockAfter fs (wallclockAfter es w) := by
  induction es generalizing w with
  | nil => rfl
  | cons e es ih => cases e <;> exact ih _

/-- The elapsed time after `n` more ticks, where it does not wrap. -/
theorem elapsed_add (now t0 : Word64) (n : Nat) (h : (now - t0).toNat + n < 2 ^ 64) :
    (now + BitVec.ofNat 64 n - t0).toNat = (now - t0).toNat + n := by
  have e : now + BitVec.ofNat 64 n - t0 = (now - t0) + BitVec.ofNat 64 n := by
    rw [BitVec.sub_eq_add_neg, BitVec.sub_eq_add_neg, BitVec.add_assoc, BitVec.add_comm (BitVec.ofNat 64 n),
      BitVec.add_assoc]
  rw [e, BitVec.toNat_add, BitVec.toNat_ofNat, Nat.mod_eq_of_lt (a := n) (by omega), Nat.mod_eq_of_lt (by omega)]

/-- `k` steps of the machine: `Host.Core.run` with the machine's own types written out. -/
def runSteps : Nat → State → Host.Outcome State Fault Refusal
  | 0, s => .next s
  | k + 1, s =>
    match step s with
    | .next t => runSteps k t
    | .fault r => .fault r
    | .refused r => .refused r

theorem core_run_succ (M : Host.Core) (k : Nat) (s : M.State) :
    M.run (k + 1) s =
      match M.step s with
      | .next t => M.run k t
      | .fault r => .fault r
      | .refused r => .refused r := by
  cases h : M.step s <;> simp [Host.Core.run, h]

theorem core_run_eq (k : Nat) (s : State) : Host.Core.run Sys2Proof.core k s = runSteps k s := by
  induction k generalizing s with
  | zero => rfl
  | succ k ih =>
    refine (core_run_succ Sys2Proof.core k s).trans ?_
    unfold runSteps
    rw [show Sys2Proof.core.step s = step s from rfl]
    cases step s with
    | next t => exact ih t
    | fault r => rfl
    | refused r => rfl

/-- A run goes on from where its first part ends. -/
theorem runSteps_add (m n : Nat) (s t : State) (h : runSteps m s = .next t) : runSteps (m + n) s = runSteps n t := by
  induction m generalizing s with
  | zero =>
    simp only [runSteps, Host.Outcome.next.injEq] at h
    rw [h, Nat.zero_add]
  | succ m ih =>
    rw [Nat.succ_add]
    simp only [runSteps] at h ⊢
    split at h
    · exact ih _ h
    · cases h
    · cases h

/-- One step with the event `e` lined up. -/
theorem runSteps_one (e : EnvEvent) (rest : List EnvEvent) (s t : State) (hi : s.inbox = e :: rest)
    (h : runEvent e { s with inbox := rest } = .next t) : runSteps 1 s = .next t := by
  simp only [runSteps, step_cons _ _ _ hi, h]

/-- The polls of a history, and the one that the phase still has to hand over. -/
def pollsIssuedOrDue (s : State) : Nat :=
  pollCount s.history + (if s.seq = .pollRd ∧ s.inFlight = false then 1 else 0)

theorem pollCount_bus (b : BusEvent) (h : List HistEvent) :
    pollCount (.bus b :: h) = pollCount h + (if b = .read Config.devMaskEn then 1 else 0) := by
  simp [pollCount, busTrace, List.count_cons]

/-- The polls after an answer, with the read of `a` handed over now unless it already was. -/
theorem pollCount_answered (b : BusEvent) (hb : b.isAnswer = true) (inFlight : Bool) (a : RegAddr)
    (h : List HistEvent) :
    pollCount (.bus b :: (if inFlight then h else .bus (.read a) :: h)) =
      pollCount h + (if inFlight = false ∧ a = Config.devMaskEn then 1 else 0) := by
  have hn : b ≠ .read Config.devMaskEn := by rintro rfl; cases hb
  rw [pollCount_bus, if_neg hn]
  cases inFlight <;> simp [pollCount_bus]

theorem dataAddr_ne_devMaskEn (i : Fin 6) : dataAddr i ≠ Config.devMaskEn := by
  revert i; decide

/-- What a background event makes of a busy block: `NOW`, the wall clock, the transaction in flight and the history may
change, and nothing else does. -/
theorem runEvent_background (e : EnvEvent) (he : isBackground e = true) (s : State) (hb : s.busy = true) :
    ∃ inFlight history,
      runEvent e s =
        .next { s with
          now := s.now + BitVec.ofNat 64 (tickCount [e]), wallclock := wallclockAfter [e] s.wallclock
          inFlight := inFlight, history := history } ∧
      pollsIssuedOrDue { s with inFlight := inFlight, history := history } = pollsIssuedOrDue s ∧
      (s.transaction = none → inFlight = s.inFlight) := by
  cases e with
  | command w =>
    refine ⟨s.inFlight, .hostWrite 0 w :: s.history, ?_, ?_, fun _ => rfl⟩
    · simp only [runEvent, runCommand_eq, hb, if_true]
      simp [State.record, tickCount, wallclockAfter, hb]
    · simp [pollsIssuedOrDue, pollCount, busTrace]
  | access w d =>
    cases hw : accessIsWrite w with
    | true =>
      refine ⟨s.inFlight, .hostWrite (accessIndex w) d :: s.history, ?_, ?_, fun _ => rfl⟩
      · simp only [runEvent, runAccess_write w d s hw, execHwr_eq, hb, if_true]
        simp [State.record, tickCount, wallclockAfter, hb]
      · simp [pollsIssuedOrDue, pollCount, busTrace]
    | false =>
      refine ⟨s.inFlight, .hostRead (accessIndex w) (readReg (hostReg (accessIndex w)) s) :: s.history, ?_, ?_,
        fun _ => rfl⟩
      · simp only [runEvent, runAccess_read w d s hw, exec, execHrd]
        simp [State.record, tickCount, wallclockAfter]
      · simp [pollsIssuedOrDue, pollCount, busTrace]
  | issue =>
    have ht : tickCount [.issue] = 0 := rfl
    obtain ⟨-, h⟩ | ⟨r, hr, h⟩ := runIssue_cases s
    · refine ⟨s.inFlight, s.history, ?_, rfl, fun _ => rfl⟩
      simp only [runEvent, h, ht]
      simp [wallclockAfter]
    · refine ⟨true, if s.inFlight then s.history else .bus r :: s.history, ?_, ?_, fun h => by simp [h] at hr⟩
      · simp only [runEvent, h, ht, State.issue_eq]
        simp [wallclockAfter]
      · cases hf : s.inFlight with
        | true => simp [pollsIssuedOrDue, hf]
        | false =>
          cases hq : s.seq with
          | idle => simp [hq] at hr
          | pollWait => simp [hq] at hr
          | cfgWr => simp [hq] at hr; subst hr; simp [pollsIssuedOrDue, hf, hq, pollCount_bus]
          | pollRd => simp [hq] at hr; subst hr; simp [pollsIssuedOrDue, hf, hq, pollCount_bus]
          | dataRd i =>
            simp [hq] at hr
            subst hr
            simp [pollsIssuedOrDue, hf, hq, pollCount_bus, dataAddr_ne_devMaskEn i]
  | tick => exact ⟨s.inFlight, .tick :: s.history, rfl, by simp [pollsIssuedOrDue, pollCount, busTrace], fun _ => rfl⟩
  | wallclock v =>
    exact ⟨s.inFlight, s.history, by simp [runEvent, tickCount, wallclockAfter], rfl, fun _ => rfl⟩
  | answer a => cases he
  | wake => cases he
  | rst => cases he

/-- What any number of background events make of a busy block. -/
theorem runSteps_background (es : List EnvEvent) (hes : es.all isBackground = true) (rest : List EnvEvent) (s : State)
    (hb : s.busy = true) (hi : s.inbox = es ++ rest) :
    ∃ inFlight history,
      runSteps es.length s =
        .next { s with
          inbox := rest, now := s.now + BitVec.ofNat 64 (tickCount es), wallclock := wallclockAfter es s.wallclock
          inFlight := inFlight, history := history } ∧
      pollsIssuedOrDue { s with inFlight := inFlight, history := history } = pollsIssuedOrDue s ∧
      (s.transaction = none → inFlight = s.inFlight) := by
  induction es generalizing s with
  | nil =>
    refine ⟨s.inFlight, s.history, ?_, rfl, fun _ => rfl⟩
    simp only [List.nil_append] at hi
    subst hi
    simp [runSteps, tickCount, wallclockAfter]
  | cons e es ih =>
    simp only [List.all_cons, Bool.and_eq_true] at hes
    obtain ⟨f, h, h1, h2, h3⟩ := runEvent_background e hes.1 { s with inbox := es ++ rest } hb
    have hstep := runSteps_one e (es ++ rest) s _ hi h1
    obtain ⟨f', h', g1, g2, g3⟩ :=
      ih hes.2
        { s with
          inbox := es ++ rest, now := s.now + BitVec.ofNat 64 (tickCount [e])
          wallclock := wallclockAfter [e] s.wallclock, inFlight := f, history := h } hb rfl
    refine ⟨f', h', ?_, g2.trans h2, fun hn => (g3 hn).trans (h3 hn)⟩
    have e1 : tickCount (e :: es) = tickCount [e] + tickCount es := tickCount_append [e] es
    have e2 : wallclockAfter (e :: es) s.wallclock = _ := wallclockAfter_append [e] es s.wallclock
    rw [List.length_cons, Nat.add_comm, runSteps_add _ _ _ _ hstep, g1, e1, e2, BitVec.ofNat_add, ← BitVec.add_assoc]

end Sys2Proof.Machine
end

