-- ==== Sys2Proof/Laws/Termination.lean ====
section
/-! SUPPORT. Under a fair schedule every command ends, and without fairness it need not (42_fetch_poller.md R188). -/

namespace Sys2Proof.Machine

open Sys2Proof

/-- An event answers a next state. -/
theorem runEvent_next (e : EnvEvent) (s : State) : ∃ t, runEvent e s = .next t := by
  cases e with
  | command w => exact ⟨_, runCommand_eq w s⟩
  | access w d =>
    cases hw : accessIsWrite w with
    | true => exact ⟨_, (runAccess_write w d s hw).trans (execHwr_eq _ _ _)⟩
    | false => exact ⟨_, (runAccess_read w d s hw).trans rfl⟩
  | answer a =>
    cases hq : s.seq with
    | idle => exact ⟨_, runAnswer_noTransaction a s (by simp [hq])⟩
    | pollWait => exact ⟨_, runAnswer_noTransaction a s (by simp [hq])⟩
    | cfgWr =>
      simp only [runEvent, runAnswer_cfgWr a s hq, exec, execWrregConfig]
      rw [if_pos hq]
      exact ⟨_, rfl⟩
    | pollRd =>
      simp only [runEvent, runAnswer_pollRd a s hq, exec, execRdregMasken]
      rw [if_pos hq]
      split <;> exact ⟨_, rfl⟩
    | dataRd i => exact ⟨_, runAnswer_dataRd a s i hq⟩
  | issue | wake | tick | rst | wallclock v => exact ⟨_, rfl⟩

/-- One turn of a run, as an effect. -/
theorem stateAt_effect (schedule : Nat → EnvEvent) (s : State) (n : Nat) :
    Effect { stateAt schedule s n with inbox := [] } (schedule n) (stateAt schedule s (n + 1)) := by
  obtain ⟨t, ht⟩ := runEvent_next (schedule n) { stateAt schedule s n with inbox := [] }
  have hs : step { stateAt schedule s n with inbox := [schedule n] } = .next t :=
    (step_cons _ (schedule n) [] rfl).trans ht
  have : stateAt schedule s (n + 1) = t := by simp only [stateAt, hs]
  rw [this]
  exact (runEvent_effect ht).effect

/-! ## The turns of a running command -/

/-- A command is running. -/
def State.Running (s : State) : Prop := s.busy = true ∧ s.seq ≠ .idle

/-- The turn ends the command: by a reset, or by an answer with the outcome in `ERR`. -/
def EndsCommand (e : EnvEvent) (t : State) : Prop :=
  t.busy = false ∧ t.seq = .idle ∧
    (e = .rst ∨ (∃ a, e = .answer a) ∧ (t.err = .ok ∨ t.err = .busError ∨ t.err = .fetchTimeout))

/-- The turn leaves the phase and what it counts from; only the transaction in flight and `NOW` may have changed. -/
structure Stays (s : State) (e : EnvEvent) (t : State) : Prop where
  seq       : t.seq = s.seq
  busy      : t.busy = s.busy
  t0        : t.t0 = s.t0
  w0        : t.w0 = s.w0
  timeout   : t.timeout = s.timeout
  now       : t.now = s.now + BitVec.ofNat 64 (if e = .tick then 1 else 0)
  inFlight  : s.inFlight = true → t.inFlight = true
  noAnswer  : s.seq ≠ .idle → s.seq ≠ .pollWait → ∀ a, e ≠ .answer a
  issued    : s.seq ≠ .idle → s.seq ≠ .pollWait → e = .issue → t.inFlight = true
  notWoken  : s.seq = .pollWait → e = .wake → sleepOver s = false

/-- The turns that take a running command to its next phase. -/
inductive Moves (s t : State) : Prop where
  /-- The flag is clear and the watchdog has not expired (R177). -/
  | sleeps (hs : s.seq = .pollRd) (ht : t.seq = .pollWait) (hb : t.busy = true) (h0 : t.t0 = s.t0)
      (hw : t.w0 = s.now) (hn : t.now = s.now) (ho : t.timeout = s.timeout)
      (he : (s.now - s.t0).toNat < s.timeout.toNat)
  /-- The sleep is over (R181). -/
  | wakes (hs : s.seq = .pollWait) (ht : t.seq = .pollRd) (hb : t.busy = true) (h0 : t.t0 = s.t0)
      (hn : t.now = s.now) (ho : t.timeout = s.timeout) (hw : 20 ≤ (s.now - s.w0).toNat)
  /-- The flag is set (R174). -/
  | seesFlag (hs : s.seq = .pollRd) (ht : t.seq = .dataRd 0) (hb : t.busy = true)
  /-- A word is staged (R179). -/
  | readsOn (i : Fin 6) (hi : i.val < 5) (hs : s.seq = .dataRd i) (ht : t.seq = .dataRd (i + 1)) (hb : t.busy = true)

/-- Everything a turn can make of a running command. -/
theorem running_cases {s t : State} {e : EnvEvent} (hr : s.Running) (h : Effect s e t) :
    EndsCommand e t ∨ Stays s e t ∨ Moves s t := by
  obtain ⟨hb, hq⟩ := hr
  have host {e' : EnvEvent} (he : isHostAccess e' = true) :
      e' ≠ .tick ∧ (∀ a, e' ≠ .answer a) ∧ e' ≠ .issue ∧ e' ≠ .wake := by
    cases e' <;> simp_all [isHostAccess]
  have idleOnly {p : Prop} (hf : s.busy = false) : p := by rw [hb] at hf; cases hf
  cases h with
  | recordOnly he _ =>
    obtain ⟨h1, h2, h3, h4⟩ := host he
    exact .inr (.inl ⟨rfl, rfl, rfl, rfl, rfl, by simp [h1], id, fun _ _ => h2, fun _ _ h => absurd h h3,
      fun _ h => absurd h h4⟩)
  | notIssued hn =>
    refine .inr (.inl ⟨rfl, rfl, rfl, rfl, rfl, by simp, id, by simp, fun _ hw _ => ?_, by simp⟩)
    refine hn.resolve_left fun hn => ?_
    cases hs : s.seq <;> simp_all [State.transaction]
  | notAnswered hn =>
    refine .inr (.inl ⟨rfl, rfl, rfl, rfl, rfl, by simp, id, fun _ hw => ?_, by simp, by simp⟩)
    cases hs : s.seq <;> simp_all [State.transaction]
  | notWoken hn =>
    refine .inr (.inl ⟨rfl, rfl, rfl, rfl, rfl, by simp, id, by simp, by simp, fun hs _ => ?_⟩)
    exact decide_eq_false (Nat.not_le_of_lt (hn.resolve_left fun h => h hs))
  | configureAccepted _ _ hf => exact idleOnly hf
  | fetchAccepted _ _ hf _ => exact idleOnly hf
  | fetchRefused _ _ hf _ => exact idleOnly hf
  | processed _ _ hf => exact idleOnly hf
  | badCommand _ _ _ _ hf => exact idleOnly hf
  | registerWrite _ _ hf => exact idleOnly hf
  | issued _ _ =>
    exact .inr (.inl ⟨rfl, rfl, rfl, rfl, rfl, by simp, fun _ => rfl, by simp, fun _ _ _ => rfl, by simp⟩)
  | configured _ _ => exact .inl ⟨rfl, rfl, .inr ⟨⟨_, rfl⟩, .inl rfl⟩⟩
  | configureFailed _ _ => exact .inl ⟨rfl, rfl, .inr ⟨⟨_, rfl⟩, .inr (.inl rfl)⟩⟩
  | pollFailed _ _ => exact .inl ⟨rfl, rfl, .inr ⟨⟨_, rfl⟩, .inr (.inl rfl)⟩⟩
  | flagSeen hs _ _ => exact .inr (.inr (.seesFlag hs rfl hb))
  | timedOut _ _ _ _ => exact .inl ⟨rfl, rfl, .inr ⟨⟨_, rfl⟩, .inr (.inr rfl)⟩⟩
  | pollAgain hs _ _ hw => exact .inr (.inr (.sleeps hs rfl hb rfl rfl rfl rfl hw))
  | dataFailed _ _ => exact .inl ⟨rfl, rfl, .inr ⟨⟨_, rfl⟩, .inr (.inl rfl)⟩⟩
  | staged hs hi _ => exact .inr (.inr (.readsOn _ hi hs rfl hb))
  | committed _ _ => exact .inl ⟨rfl, rfl, .inr ⟨⟨_, rfl⟩, .inl rfl⟩⟩
  | woken hs hw => exact .inr (.inr (.wakes hs rfl hb rfl rfl rfl hw))
  | ticked => exact .inr (.inl ⟨rfl, rfl, rfl, rfl, rfl, by simp, id, by simp, by simp, by simp⟩)
  | reset => exact .inl ⟨rfl, rfl, .inl rfl⟩
  | wallclock v => exact .inr (.inl ⟨rfl, rfl, rfl, rfl, rfl, by simp, id, by simp, by simp, by simp⟩)

/-- Everything a turn can make of a sleeping block: a reset, nothing of note, or the end of a sleep that is over. -/
theorem sleeping_cases {s t : State} {e : EnvEvent} (hb : s.busy = true) (hs : s.seq = .pollWait)
    (h : Effect s e t) : e = .rst ∨ Stays s e t ∨ 20 ≤ (s.now - s.w0).toNat := by
  obtain ⟨hf, hq, he⟩ | h' | h' := running_cases ⟨hb, by simp [hs]⟩ h
  · refine .inl (he.resolve_right fun ⟨⟨a, ha⟩, _⟩ => ?_)
    subst ha
    cases h <;> simp_all [isHostAccess]
  · exact .inr (.inl h')
  · cases h' with
    | wakes _ _ _ _ _ _ hw => exact .inr (.inr hw)
    | _ => simp_all

theorem Moves.running {s t : State} (h : Moves s t) : t.Running := by
  cases h <;> exact ⟨‹_›, by simp [*]⟩

theorem Seq.dataRd_succ_ne (i : Fin 6) (hi : i.val < 5) : (i + 1).val = i.val + 1 ∧ Seq.dataRd (i + 1) ≠ .dataRd i := by
  revert i; decide

theorem Moves.seq_ne {s t : State} (h : Moves s t) : t.seq ≠ s.seq := by
  cases h with
  | readsOn i hi hs ht _ =>
    rw [hs, ht]
    exact (Seq.dataRd_succ_ne i hi).2
  | _ => simp [*]

/-! ## A run in which no command ends -/

/-- In the run from `s` a command is running at every turn. -/
def NeverEnds (schedule : Nat → EnvEvent) (s : State) : Prop :=
  ∀ n, (stateAt schedule s n).Running ∧ ¬EndsCommand (schedule n) (stateAt schedule s (n + 1))

section
variable {schedule : Nat → EnvEvent} {s : State}

theorem NeverEnds.turn (h : NeverEnds schedule s) (n : Nat) :
    Stays (stateAt schedule s n) (schedule n) (stateAt schedule s (n + 1)) ∨
      Moves (stateAt schedule s n) (stateAt schedule s (n + 1)) := by
  have hr := (h n).1
  obtain h' | h' | h' :=
    running_cases (s := { stateAt schedule s n with inbox := [] }) hr (stateAt_effect schedule s n)
  · exact absurd h' (h n).2
  · exact .inl ⟨h'.1, h'.2, h'.3, h'.4, h'.5, h'.6, h'.7, h'.8, h'.9, h'.10⟩
  · refine .inr ?_
    cases h' with
    | sleeps a b c d e f g i => exact .sleeps a b c d e f g i
    | wakes a b c d e f g => exact .wakes a b c d e f g
    | seesFlag a b c => exact .seesFlag a b c
    | readsOn i a b c d => exact .readsOn i a b c d

/-- Over a stretch of turns that stay, `NOW` counts the ticks and the rest is kept. -/
theorem stays_stretch (n k : Nat)
    (h : ∀ j, j < k → Stays (stateAt schedule s (n + j)) (schedule (n + j)) (stateAt schedule s (n + j + 1))) :
    let a := stateAt schedule s n
    let b := stateAt schedule s (n + k)
    b.seq = a.seq ∧ b.t0 = a.t0 ∧ b.w0 = a.w0 ∧ b.timeout = a.timeout ∧
      b.now = a.now + BitVec.ofNat 64 (ticksFrom schedule n k) ∧ (a.inFlight = true → b.inFlight = true) := by
  induction k with
  | zero => exact ⟨rfl, rfl, rfl, rfl, by simp [ticksFrom], id⟩
  | succ k ih =>
    obtain ⟨h1, h2, h3, h4, h5, h6⟩ := ih fun j hj => h j (Nat.lt_succ_of_lt hj)
    have hk := h k (Nat.lt_succ_self k)
    refine ⟨hk.seq.trans h1, hk.t0.trans h2, hk.w0.trans h3, hk.timeout.trans h4, ?_, fun hi => hk.inFlight (h6 hi)⟩
    refine hk.now.trans ?_
    rw [h5, ticksFrom, BitVec.ofNat_add, ← BitVec.add_assoc]

/-- The stretch of turns that stay up to the first one that moves. -/
theorem first_move (h : NeverEnds schedule s) (n : Nat)
    (hm : ∃ k, Moves (stateAt schedule s (n + k)) (stateAt schedule s (n + k + 1))) :
    ∃ k, (∀ j, j < k → Stays (stateAt schedule s (n + j)) (schedule (n + j)) (stateAt schedule s (n + j + 1))) ∧
      Moves (stateAt schedule s (n + k)) (stateAt schedule s (n + k + 1)) := by
  obtain ⟨k, hk⟩ := hm
  induction k using Nat.strongRecOn with
  | ind k ih =>
    by_cases he : ∃ j, j < k ∧ Moves (stateAt schedule s (n + j)) (stateAt schedule s (n + j + 1))
    · obtain ⟨j, hj, hmj⟩ := he
      exact ih j hj hmj
    · exact ⟨k, fun j hj => (h.turn (n + j)).resolve_right fun hmj => he ⟨j, hj, hmj⟩, hk⟩

theorem exists_offset {n m : Nat} (h : n ≤ m) : ∃ k, m = n + k := ⟨m - n, by omega⟩

/-- The ticks among the turns grow without bound. -/
theorem ticks_unbounded (ht : FairToTimeBase schedule) (n b : Nat) : ∃ k, b ≤ ticksFrom schedule n k := by
  induction b with
  | zero => exact ⟨0, Nat.zero_le _⟩
  | succ b ih =>
    obtain ⟨k, hk⟩ := ih
    obtain ⟨m, hm, hs⟩ := ht (n + k)
    obtain ⟨d, rfl⟩ := exists_offset hm
    refine ⟨k + d + 1, ?_⟩
    have mono : ∀ d, ticksFrom schedule n k ≤ ticksFrom schedule n (k + d) := by
      intro d
      induction d with
      | zero => exact Nat.le_refl _
      | succ d ih => exact Nat.le_trans ih (Nat.le_add_right _ _)
    have : schedule (n + (k + d)) = .tick := by rw [← Nat.add_assoc]; exact hs
    have := mono d
    rw [ticksFrom, if_pos ‹_›]
    omega

/-- At some point of a stretch of ticks their number is exactly `b`. -/
theorem ticks_hit (n k b : Nat) (h : b ≤ ticksFrom schedule n k) : ∃ j, j ≤ k ∧ ticksFrom schedule n j = b := by
  induction k with
  | zero => exact ⟨0, Nat.le_refl _, (Nat.le_zero.mp h).symm⟩
  | succ k ih =>
    by_cases hk : b ≤ ticksFrom schedule n k
    · obtain ⟨j, hj, e⟩ := ih hk
      exact ⟨j, Nat.le_succ_of_le hj, e⟩
    · refine ⟨k + 1, Nat.le_refl _, ?_⟩
      rw [ticksFrom] at h ⊢
      split at h <;> rename_i hs
      · rw [if_pos hs]; omega
      · omega

/-- In a fair run every phase is left. -/
theorem phase_is_left (h : NeverEnds schedule s) (hf : FairRun schedule s) (n : Nat) :
    ∃ k, Moves (stateAt schedule s (n + k)) (stateAt schedule s (n + k + 1)) := by
  refine Classical.byContradiction fun hno => ?_
  have stay (k : Nat) : Stays (stateAt schedule s (n + k)) (schedule (n + k)) (stateAt schedule s (n + k + 1)) :=
    (h.turn (n + k)).resolve_right fun hm => hno ⟨k, hm⟩
  have st (k : Nat) := stays_stretch n k fun j _ => stay j
  have busy (m : Nat) : (stateAt schedule s m).busy ≠ false := by rw [(h m).1.1]; simp
  have hidle := (h n).1.2
  by_cases hw : (stateAt schedule s n).seq = .pollWait
  · -- a sleep: 2^64 ticks from any `NOW - W0` on, at most, take it to `POLL_TICKS`
    have hx := ((stateAt schedule s n).now - (stateAt schedule s n).w0).isLt
    obtain ⟨b, hb⟩ : ∃ b,
        20 ≤ ((stateAt schedule s n).now + BitVec.ofNat 64 b - (stateAt schedule s n).w0).toNat := by
      by_cases h20 : 20 ≤ ((stateAt schedule s n).now - (stateAt schedule s n).w0).toNat
      · exact ⟨0, by simpa using h20⟩
      · exact ⟨20, by rw [elapsed_add _ _ _ (by omega)]; omega⟩
    obtain ⟨k, hk⟩ := ticks_unbounded hf.time_base n b
    obtain ⟨j, -, hj⟩ := ticks_hit n k b hk
    obtain ⟨h1, -, h3, -, h5, -⟩ := st j
    have hs : (stateAt schedule s (n + j)).seq = .pollWait := h1.trans hw
    have hen : blockEnabled (stateAt schedule s (n + j)) = true := by
      simp only [blockEnabled, hs, sleepOver, decide_eq_true_eq]
      rw [h3, h5, hj]
      exact hb
    obtain ⟨m, hm, ht⟩ := hf.block _ hen
    obtain ⟨d, rfl⟩ := exists_offset hm
    have ht := ht.resolve_right (busy _)
    rw [Nat.add_assoc] at ht
    have hs' : (stateAt schedule s (n + (j + d))).seq = .pollWait := (st (j + d)).1.trans hw
    cases he : schedule (n + (j + d)) <;> simp [blockTakes, he, hs'] at ht
    have := (stay (j + d)).notWoken hs' he
    rw [ht] at this
    cases this
  · -- a transaction: it is handed over, and then answered
    have hseq (k : Nat) : (stateAt schedule s (n + k)).seq ≠ .idle ∧ (stateAt schedule s (n + k)).seq ≠ .pollWait := by
      rw [(st k).1]; exact ⟨hidle, hw⟩
    have hfl : ∃ k, (stateAt schedule s (n + k)).inFlight = true := by
      refine Classical.byContradiction fun hnf => ?_
      have hf0 : (stateAt schedule s (n + 0)).inFlight = false := by
        cases hc : (stateAt schedule s (n + 0)).inFlight with
        | false => rfl
        | true => exact absurd ⟨0, hc⟩ hnf
      have hen : blockEnabled (stateAt schedule s n) = true := by
        have hf0 : (stateAt schedule s n).inFlight = false := hf0
        unfold blockEnabled
        cases hq : (stateAt schedule s n).seq <;> simp_all
      obtain ⟨m, hm, ht⟩ := hf.block _ hen
      obtain ⟨d, rfl⟩ := exists_offset hm
      have ht := ht.resolve_right (busy _)
      obtain ⟨h1, h2⟩ := hseq d
      cases he : schedule (n + d) <;> simp [blockTakes, he, h2] at ht
      · exact hnf ⟨d + 1, (stay d).issued h1 h2 he⟩
      · exact (stay d).noAnswer h1 h2 _ he
    obtain ⟨k, hk⟩ := hfl
    have always (m : Nat) (hm : n + k ≤ m) : (stateAt schedule s m).inFlight = true := by
      obtain ⟨d, rfl⟩ := exists_offset hm
      have := stays_stretch (schedule := schedule) (s := s) (n + k) d fun j _ => by
        rw [Nat.add_assoc]; exact stay (k + j)
      exact this.2.2.2.2.2 hk
    obtain ⟨m, a, hm, he⟩ := hf.bus_target (n + k) always
    obtain ⟨d, rfl⟩ := exists_offset hm
    rw [Nat.add_assoc] at he
    exact (stay (k + d)).noAnswer (hseq _).1 (hseq _).2 a he

/-- The first move after turn `n`, with what is kept up to it. -/
theorem next_move (h : NeverEnds schedule s) (hf : FairRun schedule s) (n : Nat) :
    ∃ k, let a := stateAt schedule s n
      let b := stateAt schedule s (n + k)
      Moves b (stateAt schedule s (n + k + 1)) ∧ b.seq = a.seq ∧ b.t0 = a.t0 ∧ b.w0 = a.w0 ∧ b.timeout = a.timeout ∧
      b.now = a.now + BitVec.ofNat 64 (ticksFrom schedule n k) ∧
      (a.seq = .pollRd ∨ a.seq = .pollWait → ticksFrom schedule n k < 2 ^ 62) := by
  obtain ⟨k, hstay, hm⟩ := first_move h n (phase_is_left h hf n)
  obtain ⟨h1, h2, h3, h4, h5, -⟩ := stays_stretch n k hstay
  refine ⟨k, hm, h1, h2, h3, h4, h5, fun hp => hf.clock n k hp (fun j hj => ?_) ?_⟩
  · exact (stays_stretch n j fun i hi => hstay i (Nat.lt_of_lt_of_le hi hj)).1
  · rw [← h1]; exact hm.seq_ne

/-- In such a run no data register is being read: the six reads come to an end. -/
theorem no_dataRd (h : NeverEnds schedule s) (hf : FairRun schedule s) (d : Nat) :
    ∀ n (i : Fin 6), i.val + d = 5 → (stateAt schedule s n).seq ≠ .dataRd i := by
  induction d with
  | zero =>
    intro n i hi hs
    obtain ⟨k, hm, h1, -⟩ := next_move h hf n
    rw [hs] at h1
    cases hm with
    | readsOn j hj hs' _ _ =>
      rw [h1] at hs'
      injection hs' with e
      subst e
      omega
    | _ => simp_all
  | succ d ih =>
    intro n i hi hs
    obtain ⟨k, hm, h1, -⟩ := next_move h hf n
    rw [hs] at h1
    cases hm with
    | readsOn j hj hs' ht _ =>
      rw [h1] at hs'
      injection hs' with e
      subst e
      refine ih _ (i + 1) ?_ ht
      have := (Seq.dataRd_succ_ne i hj).1
      omega
    | _ => simp_all

/-- In such a run the block never falls asleep: each round of the poll loop takes at least `POLL_TICKS`, and the watchdog
expires. -/
theorem no_sleep (h : NeverEnds schedule s) (hf : FairRun schedule s) (d : Nat) :
    ∀ n, (stateAt schedule s n).seq = .pollWait → (stateAt schedule s n).w0 = (stateAt schedule s n).now →
      ((stateAt schedule s n).now - (stateAt schedule s n).t0).toNat < (stateAt schedule s n).timeout.toNat →
      (stateAt schedule s n).timeout.toNat -
        ((stateAt schedule s n).now - (stateAt schedule s n).t0).toNat ≤ d → False := by
  induction d with
  | zero => intro n _ _ h1 h2; omega
  | succ d ih =>
    intro n hs hw hlt hd
    have htl := (stateAt schedule s n).timeout.isLt
    obtain ⟨k, hm, h1, h2, h3, h4, h5, h6⟩ := next_move h hf n
    have hx := h6 (.inr hs)
    rw [hs] at h1
    cases hm with
    | wakes _ ht _ g0 gn go gw =>
      -- the sleep has taken at least 20 ticks
      rw [h3, h5, hw] at gw
      have hz := elapsed_add (stateAt schedule s n).now (stateAt schedule s n).now (ticksFrom schedule n k)
        (by simp; omega)
      rw [hz] at gw
      simp only [BitVec.sub_self, BitVec.toNat_ofNat, Nat.zero_mod, Nat.zero_add] at gw
      -- and the poll after it is answered
      obtain ⟨k', hm', f1, f2, f3, f4, f5, f6⟩ := next_move h hf (n + k + 1)
      have hy := f6 (.inl ht)
      rw [ht] at f1
      have hel : ((stateAt schedule s (n + k + 1 + k')).now - (stateAt schedule s (n + k + 1 + k')).t0).toNat =
          ((stateAt schedule s n).now - (stateAt schedule s n).t0).toNat +
            (ticksFrom schedule n k + ticksFrom schedule (n + k + 1) k') := by
        rw [f2, g0, h2, f5, gn, h5, BitVec.add_assoc, ← BitVec.ofNat_add]
        exact elapsed_add _ _ _ (by omega)
      cases hm' with
      | sleeps _ pt _ p0 pw pn po pe =>
        refine ih (n + k + 1 + k' + 1) pt (pw.trans pn.symm) ?_ ?_
        · rw [pn, p0, po]; exact pe
        · rw [pn, p0, po, hel, f4, go, h4]; omega
      | seesFlag _ pt _ => exact no_dataRd h hf 5 _ 0 rfl pt
      | _ => simp_all
    | _ => simp_all

theorem not_neverEnds (hf : FairRun schedule s) : ¬NeverEnds schedule s := by
  intro h
  have poll (n : Nat) : (stateAt schedule s n).seq ≠ .pollRd := by
    intro hs
    obtain ⟨k, hm, h1, -⟩ := next_move h hf n
    rw [hs] at h1
    cases hm with
    | sleeps _ pt _ p0 pw pn po pe =>
      exact no_sleep h hf _ _ pt (pw.trans pn.symm) (by rw [pn, p0, po]; exact pe) (Nat.le_refl _)
    | seesFlag _ pt _ => exact no_dataRd h hf 5 _ 0 rfl pt
    | _ => simp_all
  obtain ⟨k, hm, -⟩ := next_move h hf 0
  cases hm with
  | sleeps hs => exact poll _ hs
  | wakes _ ht => exact poll _ ht
  | seesFlag hs => exact poll _ hs
  | readsOn i hi hs => exact no_dataRd h hf (5 - i.val) _ i (by omega) hs

end

/-- Before the first turn that ends it, the command is running. -/
theorem running_until (schedule : Nat → EnvEvent) (s : State) (hr : s.Running) (n : Nat)
    (h : ∀ j, j < n → ¬EndsCommand (schedule j) (stateAt schedule s (j + 1))) : (stateAt schedule s n).Running := by
  induction n with
  | zero => exact hr
  | succ n ih =>
    have hn := ih fun j hj => h j (Nat.lt_succ_of_lt hj)
    obtain h' | h' | h' :=
      running_cases (s := { stateAt schedule s n with inbox := [] }) hn (stateAt_effect schedule s n)
    · exact absurd h' (h n (Nat.lt_succ_self n))
    · exact ⟨h'.busy.trans hn.1, fun hc => hn.2 (h'.seq.symm.trans hc)⟩
    · exact h'.running

/-- Termination (42_fetch_poller.md R188). -/
theorem every_command_ends : EveryCommandEnds := by
  intro schedule s hb hq hf
  have hr : s.Running := ⟨hb, hq⟩
  have hex : ∃ n, EndsCommand (schedule n) (stateAt schedule s (n + 1)) := by
    refine Classical.byContradiction fun hno => not_neverEnds hf fun n => ⟨?_, fun he => hno ⟨n, he⟩⟩
    exact running_until schedule s hr n fun j _ he => hno ⟨j, he⟩
  obtain ⟨n, hn⟩ := hex
  induction n using Nat.strongRecOn with
  | ind n ih =>
    by_cases he : ∃ j, j < n ∧ EndsCommand (schedule j) (stateAt schedule s (j + 1))
    · obtain ⟨j, hj, he⟩ := he
      exact ih j hj he
    · refine ⟨n, fun m hm => ?_, hn⟩
      exact (running_until schedule s hr m fun j hj h => he ⟨j, Nat.lt_of_lt_of_le hj hm, h⟩).1

/-- No other watchdog (42_fetch_poller.md R188). -/
theorem stuck_without_fairness : StuckWithoutFairness := by
  intro schedule s hb hq hrst
  refine ⟨fun hans n => ?_, fun hs hw htick n => ?_⟩
  · refine (running_until schedule s ⟨hb, hq⟩ n fun j _ he => ?_).1
    obtain hr | ⟨⟨a, ha⟩, -⟩ := he.2.2
    · exact hrst j hr
    · exact hans j a ha
  · have main : (stateAt schedule s n).busy = true ∧ (stateAt schedule s n).seq = .pollWait ∧
        sleepOver (stateAt schedule s n) = false := by
      induction n with
      | zero => exact ⟨hb, hs, hw⟩
      | succ n ih =>
        obtain ⟨i1, i2, i3⟩ := ih
        obtain he | h' | hw' :=
          sleeping_cases (s := { stateAt schedule s n with inbox := [] }) i1 i2 (stateAt_effect schedule s n)
        · exact absurd he (hrst n)
        · refine ⟨h'.busy.trans i1, h'.seq.trans i2, ?_⟩
          have hn := h'.now
          rw [if_neg (htick n), BitVec.add_zero] at hn
          unfold sleepOver
          rw [hn, h'.w0]
          exact i3
        · exact absurd hw' (Nat.not_le_of_lt (Nat.lt_of_not_le (of_decide_eq_false i3)))
    exact ⟨main.1, main.2.1⟩

end Sys2Proof.Machine
end

