-- ==== Sys2Proof/Tests/Slice0.lean ====
section
/-! SUPPORT. Tests of one step or one function, each with its expected result from spec/95_test_vectors.md or from the
rule named, and one witness per statement that has hypotheses: concrete values that meet all of them together. -/

namespace Sys2Proof.Tests

open Sys2Proof Sys2Proof.Machine

/-! ## Small states -/

/-- `p` of the next state; false where there is none. -/
def holdsAfter (o : Host.Outcome State Fault Refusal) (p : State → Bool) : Bool :=
  match o with
  | .next t => p t
  | .fault _ => false
  | .refused _ => false

/-- Idle and configured: `STATUS` 0x02. -/
def configured : State := { State.reset with configured := true }

/-- Idle, configured, fetched: `STATUS` 0x06. -/
def fetched : State := { configured with fetched := true }

/-- In phase `CFG_WR` after a `CONFIGURE` from `s`. -/
def configuring (s : State) : State := { s with cfgLatch := pack s.options, busy := true, seq := .cfgWr }

/-- In phase `q` of a `FETCH` from `s`. -/
def fetching (q : Seq) (s : State) : State := { s with busy := true, seq := q }

/-- `s` with the bus target about to answer the wire word `w`. -/
def answering (w : Word16) (s : State) : State := { s with busIn := ⟨false, w⟩ }

/-- `s` with the bus target about to answer `fail`. -/
def failing (s : State) : State := { s with busIn := ⟨true, 0⟩ }

/-- `s` with `e` as its next event. -/
def next (e : EnvEvent) (s : State) : State := { s with inbox := [e] }

/-- The staging registers before the last data read of program P1 (95 section 5). -/
def stagedP1 : Staging := ⟨0x1F40, 0x2EE0, 0xE0C0, 0x5DC0, 0x8000, 0⟩

/-- The raw sample of program P1 (42_fetch_poller.md R190). -/
def rawP1 : RawSample := ⟨⟨0x1F40, 0xE0C0, 0x8000⟩, ⟨0x2EE0, 0x5DC0, 0xFFFF⟩⟩

/-! ## Decoding: words written out from 30_encoding.md -/

/-- R113: code 0x1 in bits 3:0, the ignored bits 63:4 kept. -/
theorem test_decode_configure : decodeTableWord 64 0b10100001 = some (.configure 0b1010) := by decide

theorem test_decode_fetch : decodeTableWord 64 0b0010 = some (.fetch 0) := by decide

theorem test_decode_process : decodeTableWord 64 0x00000000000000F3 = some (.process 0xF) := by decide

/-- R115: `HWR TIMEOUT` is 0x42; 95 section 7 writes 0x32 beside it. -/
theorem test_decode_hwr :
    decodeTableWord 8 0b01000010 = some (.hwr 0x02 0) ∧ decodeTableWord 72 0x3242 = some (.hwr 0x02 0x32) := by
  decide

/-- R115: `HRD STATUS` is 0x01. -/
theorem test_decode_hrd : decodeTableWord 7 0b0000001 = some (.hrd 0x01) := by decide

/-- R116: direction in bit 8, register address in bits 7:0. -/
theorem test_decode_wrregConfig : decodeTableWord 16 0b000000000 = some .wrregConfig := by decide

theorem test_decode_rdregShunt0 : decodeTableWord 16 0b100000001 = some .rdregShunt0 := by decide

theorem test_decode_rdregBus0 : decodeTableWord 16 0b100000010 = some .rdregBus0 := by decide

theorem test_decode_rdregShunt1 : decodeTableWord 16 0b100000011 = some .rdregShunt1 := by decide

theorem test_decode_rdregBus1 : decodeTableWord 16 0b100000100 = some .rdregBus1 := by decide

theorem test_decode_rdregShunt2 : decodeTableWord 16 0b100000101 = some .rdregShunt2 := by decide

theorem test_decode_rdregBus2 : decodeTableWord 9 0b100000110 = some .rdregBus2 := by decide

theorem test_decode_rdregMasken : decodeTableWord 16 0b100001111 = some .rdregMasken := by decide

/-- R114, R62: reserved codes and unused descriptors are rejected by name. -/
theorem test_decode_rejects :
    decode (.cmd 0x0) = .error (.reservedCommand 0x0) ∧ decode (.cmd 0x14) = .error (.reservedCommand 0x4) ∧
      decode (.cmd 0xFF) = .error (.reservedCommand 0xF) ∧ decode (.bus 0x100) = .error (.unusedDescriptor 0x100) ∧
      decode (.bus 0x001) = .error (.unusedDescriptor 0x001) ∧
      decode (.bus 0x107) = .error (.unusedDescriptor 0x107) ∧ decodeTableWord 64 0x4 = none :=
  ⟨rfl, rfl, rfl, rfl, rfl, rfl, rfl⟩

/-! ## WellFormed: an ill-formed number for each check -/

theorem test_wf_isBus_refuses : TableWord.isBus 8 = false := by decide

theorem test_wf_isHost_refuses : TableWord.isHost 9 = false := by decide

theorem test_wf_isCmd_refuses : TableWord.isCmd 63 = false := by decide

theorem test_wf_knownWidth_refuses : TableWord.knownWidth 12 = false ∧ TableWord.wf 12 0 = false := by decide

theorem test_wf_fits_refuses : TableWord.fits 8 0x100 = false ∧ TableWord.wf 8 0x100 = false := by decide

theorem test_wf_padClear_refuses :
    TableWord.padClear 8 0x80 = false ∧ TableWord.padClear 16 0x200 = false ∧ TableWord.padClear 72 0x80 = false ∧
      decodeTableWord 8 0x81 = none ∧ decodeTableWord 16 0x301 = none ∧ decodeTableWord 12 0 = none := by
  decide

/-! ## Pure functions -/

/-- 95 section 3. -/
theorem test_swap16 : swap16 0x0001 = 0x0100 ∧ swap16 0x1234 = 0x3412 ∧ swap16 0xFF23 = 0x23FF := by decide

/-- 95 section 4: one word per field. -/
theorem test_pack_fields :
    pack ⟨1, 0, 0, 0, 0, 0, 0, 0⟩ = 0x8000 ∧ pack ⟨0, 1, 0, 0, 0, 0, 0, 0⟩ = 0x4000 ∧
      pack ⟨0, 0, 1, 0, 0, 0, 0, 0⟩ = 0x2000 ∧ pack ⟨0, 0, 0, 1, 0, 0, 0, 0⟩ = 0x1000 ∧
      pack ⟨0, 0, 0, 0, 7, 0, 0, 0⟩ = 0x0E00 ∧ pack ⟨0, 0, 0, 0, 0, 7, 0, 0⟩ = 0x01C0 ∧
      pack ⟨0, 0, 0, 0, 0, 0, 7, 0⟩ = 0x0038 ∧ pack ⟨0, 0, 0, 0, 0, 0, 0, 1⟩ = 0x0001 := by
  decide

/-- 95 section 2. -/
theorem test_decodeCount :
    decodeCount 0x7FF7 = 4094 ∧ decodeCount 0x8000 = 0 ∧ decodeCount 0x8001 = -4095 ∧ decodeCount 0x8009 = -4094 ∧
      decodeCount 0xA5A5 = -2891 ∧ decodeCount 0xE0C1 = -999 ∧ decodeCount 0xFFF9 = 0 := by
  decide

/-- 95 section 2: × 0.04 and × 0.008, both signs. -/
theorem test_scale :
    scale binary64 0 0x1234 0x3FA47AE147AE147B = 0x403747AE147AE148 ∧
      scale binary64 0 0xA5A5 0x3F80624DD2F1A9FC = 0xC03720C49BA5E354 := by
  decide +kernel

/-- 30_encoding.md R121: `PROCESS` follows only where `ERR` is 0. -/
theorem test_measureRest : measureRest 0x06 = [.hwr 0x00 0x3] ∧ measureRest 0x22 = [] := by decide

/-! ## One step of each operation -/

/-- 95 section 4: after reset the latch takes 0xFF23. -/
theorem test_configure_accepted :
    holdsAfter (exec (.configure 0) State.reset)
      (fun t => t.cfgLatch == 0xFF23 && t.seq == .cfgWr && statusWord t == 0x01) = true := by
  decide

/-- R242: ignored while busy, so the running poll goes on. -/
theorem test_configure_busy :
    holdsAfter (exec (.configure 0) (fetching .pollRd configured))
      (fun t => t.cfgLatch == 0 && t.seq == .pollRd && statusWord t == 0x03) = true := by
  decide

/-- 95 section 8: `FETCH` after reset gives `STATUS` 0x30 and no bus event. -/
theorem test_fetch_refused :
    holdsAfter (exec (.fetch 0) State.reset)
      (fun t => statusWord t == 0x30 && t.seq == .idle && busTrace t.history == []) = true := by
  decide

/-- R172: `T0` takes `NOW`. -/
theorem test_fetch_accepted :
    holdsAfter (exec (.fetch 0) { configured with now := 40 })
      (fun t => t.t0 == 40 && t.seq == .pollRd && statusWord t == 0x03) = true := by
  decide

/-- 95 section 6, first and second row. -/
theorem test_process_sample :
    holdsAfter (exec (.process 0) { fetched with raw := rawP1 })
      (fun t =>
        t.proc.ch0 == ⟨0x4044000000000000, 0x4028000000000000, 0x4028147AE147AE14, 0x4079000000000000,
          0x40B2D00000000000⟩ &&
        t.proc.ch1 == ⟨0xC044000000000000, 0x4038000000000000, 0x4037F5C28F5C28F6, 0xC079000000000000,
          0xC0C2B80000000000⟩) = true := by
  decide +kernel

/-- 95 section 6, corner: a resistance of +0.0 gives +infinity, and the voltages are as ever. -/
theorem test_process_zero_resistance :
    holdsAfter (exec (.process 0)
        { fetched with raw := rawP1, cal := { Calibration.reset with rshunt := PerChannel.replicate 0 } })
      (fun t => t.proc.ch0.currentMa == 0x7FF0000000000000 && t.proc.ch0.loadV == 0x4028147AE147AE14 &&
        t.proc.ch0.powerMw == 0x7FF0000000000000) = true := by
  decide +kernel

/-- 95 section 7: bits 63:32 dropped. -/
theorem test_hwr_timeout :
    holdsAfter (exec (.hwr 0x02 0x0000000100000032) State.reset) (fun t => t.timeout == 0x32) = true := by
  decide

/-- 95 section 7: code 0x7 is `BadCommand` before `NotConfigured`. -/
theorem test_hwr_badCommand :
    holdsAfter (exec (.hwr 0x00 0x7) State.reset) (fun t => statusWord t == 0x40 && t.seq == .idle) = true := by
  decide

/-- 95 section 7: `SHUNT_CNT[1]` of 0xE0C0. -/
theorem test_hrd_count :
    holdsAfter (exec (.hrd 0x35) { fetched with raw := rawP1 })
      (fun t => t.history == [.hostRead 0x35 0xFFFFFFFFFFFFFC18]) = true := by
  decide

/-- 95 section 7: `TIMEOUT` after reset. -/
theorem test_hrd_timeout :
    holdsAfter (exec (.hrd 0x02) State.reset) (fun t => t.history == [.hostRead 0x02 0x00000000000493E0]) = true := by
  decide

/-- 95 section 4: `W 0x000 <- 0x23FF -> done`, `STATUS` 0x02. -/
theorem test_wrregConfig_done :
    holdsAfter (exec .wrregConfig (configuring State.reset))
      (fun t => statusWord t == 0x02 && busTrace t.history == [.done, .write 0x00 0x23FF]) = true := by
  decide

/-- 95 section 8: from `STATUS` 0x06, `fail` gives 0x14. -/
theorem test_wrregConfig_fail :
    holdsAfter (exec .wrregConfig (failing (configuring fetched))) (fun t => statusWord t == 0x14) = true := by
  decide

/-- 95 section 3: wire word 0x0001 is no flag; the block sleeps. -/
theorem test_rdregMasken_wire_trap :
    holdsAfter (exec .rdregMasken (answering 0x0001 (fetching .pollRd { configured with now := 7 })))
      (fun t => t.seq == .pollWait && t.w0 == 7 && busTrace t.history == [.data 0x0001, .read 0x0F]) = true := by
  decide

/-- 95 section 5: `TIMEOUT` = 0, flag set: success before the watchdog. -/
theorem test_rdregMasken_flag_first :
    holdsAfter (exec .rdregMasken (answering 0x0100 (fetching .pollRd { configured with timeout := 0 })))
      (fun t => t.seq == .dataRd 0 && t.err == .ok) = true := by
  decide

theorem test_rdregShunt0 :
    holdsAfter (exec .rdregShunt0 (answering 0x401F (fetching (.dataRd 0) configured)))
      (fun t => t.stg == ⟨0x1F40, 0, 0, 0, 0, 0⟩ && t.seq == .dataRd 1 &&
        busTrace t.history == [.data 0x401F, .read 0x01]) = true := by
  decide

theorem test_rdregBus0 :
    holdsAfter (exec .rdregBus0 (answering 0xE02E (fetching (.dataRd 1) configured)))
      (fun t => t.stg == ⟨0, 0x2EE0, 0, 0, 0, 0⟩ && t.seq == .dataRd 2) = true := by
  decide

theorem test_rdregShunt1 :
    holdsAfter (exec .rdregShunt1 (answering 0xC0E0 (fetching (.dataRd 2) configured)))
      (fun t => t.stg == ⟨0, 0, 0xE0C0, 0, 0, 0⟩ && t.seq == .dataRd 3) = true := by
  decide

/-- Program P3, line 12: the fourth data read fails, `STATUS` 0x16. -/
theorem test_rdregBus1_fail :
    holdsAfter (exec .rdregBus1 (failing (fetching (.dataRd 3) fetched)))
      (fun t => statusWord t == 0x16 && t.raw == fetched.raw && busTrace t.history == [.fail, .read 0x04]) = true := by
  decide

theorem test_rdregShunt2 :
    holdsAfter (exec .rdregShunt2 (answering 0x0080 (fetching (.dataRd 4) configured)))
      (fun t => t.stg == ⟨0, 0, 0, 0, 0x8000, 0⟩ && t.seq == .dataRd 5) = true := by
  decide

/-- Program P1: the commit. -/
theorem test_rdregBus2_commits :
    holdsAfter (exec .rdregBus2
        (answering 0xFFFF (fetching (.dataRd 5) { configured with stg := stagedP1, wallclock := 0x65000000 })))
      (fun t => t.raw == rawP1 && t.fetchTs == 0x65000000 && statusWord t == 0x06 && t.seq == .idle) = true := by
  decide

/-- 95 section 5: `TIMEOUT` = 20, elapsed 20: expired, 20 ≥ 20. -/
theorem test_watchdog_boundary :
    holdsAfter (exec .rdregMasken (answering 0x0000 (fetching .pollRd { fetched with timeout := 20, now := 20 })))
      (fun t => statusWord t == 0x22 && t.seq == .idle) = true := by
  decide

/-- A placed operation is the next one run. -/
theorem test_withFetchWord :
    holdsAfter (step (State.reset.withFetchWord 64 0x1)) (fun t => t.seq == .cfgWr) = true ∧
      holdsAfter (step (State.reset.withFetchWord 8 0x42)) (fun t => t.timeout == 0) = true ∧
      holdsAfter (step (State.reset.withFetchWord 16 0x10F)) (fun t => t.seq == .pollWait) = true := by
  decide

/-! ## Witnesses: encoding and step -/

theorem witness_EncodeOfDecodeIsIdentity :
    decode (.cmd 0x8000000000000003) = .ok (.process 0x800000000000000) ∧
      decode (.host 0x7F 0x1) = .ok (.hwr 0x3F 0x1) ∧ decode (.host 0x3F 0x1) = .ok (.hrd 0x3F) ∧
      decode (.bus 0x10F) = .ok .rdregMasken :=
  ⟨rfl, rfl, rfl, rfl⟩

theorem witness_StepRunsDecodedOperation :
    (next (.command 0x2) State.reset).inbox = [.command 0x2] ∧
      ((nextEvent (next (.command 0x2) State.reset)).1 = .command 0x2 ∧ decode (.cmd 0x2) = .ok (.fetch 0)) ∧
      ((nextEvent (next (.access 0x42 5) State.reset)).1 = .access 0x42 5 ∧
        decode (.host 0x42 5) = .ok (.hwr 0x02 5)) ∧
      (nextEvent (next (.answer ⟨false, 0⟩) (fetching (.dataRd 5) configured))).1 = .answer ⟨false, 0⟩ ∧
      (fetching (.dataRd 5) configured).busDescriptor = some 0x106#9 ∧ decode (.bus 0x106#9) = .ok .rdregBus2 :=
  ⟨rfl, ⟨rfl, rfl⟩, ⟨rfl, rfl⟩, rfl, rfl, rfl⟩

theorem witness_ResetInputResetsTheBlock :
    (next .rst { fetching .pollRd configured with inFlight := true }).inbox = [.rst] := by
  decide

theorem witness_LoopbackRoundTrip : State.reset.inFlight = false ∧ State.reset.busIn.fail = false := by decide

/-! ## Witnesses: decoder and binary64 -/

/-- The words at which the clauses meet: 0x7FFF; 0x8000 (k = 0, j = 0); 0x8008 and 0xFFF8 (j = 0, k = 1 and 4095);
0x8001 and 0xFFFF (j = 1 and 7). -/
theorem witness_DecodeClosedForms :
    (0x7FFF#16).toNat < 0x8000 ∧
      (0x8000 ≤ (0x8000#16).toNat ∧ ((0x8000#16).extractLsb' 0 3).toNat = 0 ∧
        ((0x8000#16).extractLsb' 3 12).toNat = 0) ∧
      (0x8000 ≤ (0x8008#16).toNat ∧ ((0x8008#16).extractLsb' 0 3).toNat = 0 ∧
        1 ≤ ((0x8008#16).extractLsb' 3 12).toNat) ∧
      (0x8000 ≤ (0xFFF8#16).toNat ∧ ((0xFFF8#16).extractLsb' 0 3).toNat = 0 ∧
        1 ≤ ((0xFFF8#16).extractLsb' 3 12).toNat) ∧
      (0x8000 ≤ (0x8001#16).toNat ∧ 1 ≤ ((0x8001#16).extractLsb' 0 3).toNat) ∧
      (0x8000 ≤ (0xFFFF#16).toNat ∧ 1 ≤ ((0xFFFF#16).extractLsb' 0 3).toNat) := by
  decide

/-- The clauses of `DecodeVersusTwosComplement` have the same premises, and the word 0x8000. -/
theorem witness_DecodeVersusTwosComplement :
    (0x7FFF#16).toNat < 0x8000 ∧
      (0x8000 ≤ (0x8008#16).toNat ∧ ((0x8008#16).extractLsb' 0 3).toNat = 0 ∧
        1 ≤ ((0x8008#16).extractLsb' 3 12).toNat) ∧
      (0x8000 ≤ (0x8001#16).toNat ∧ 1 ≤ ((0x8001#16).extractLsb' 0 3).toNat) := by
  decide

theorem witness_DecodeRangeAndZeros : (-4095 : Int) ≤ -4095 ∧ (-4095 : Int) ≤ 4095 := by decide

/-- 0.1 × 0.04; the least subnormal halved, a tie; the largest finite value doubled, an overflow; and infinite
operands. -/
theorem witness_MulRoundsToNearestEven :
    (isFinite 0x3FB999999999999A = true ∧ isFinite 0x3FA47AE147AE147B = true) ∧
      (isFinite 0x0000000000000001 = true ∧ isFinite 0x3FE0000000000000 = true ∧
        fmul 0 0x0000000000000001 0x3FE0000000000000 = 0x0000000000000000) ∧
      (isFinite 0x7FEFFFFFFFFFFFFF = true ∧ isFinite 0xC000000000000000 = true ∧
        fmul 0 0x7FEFFFFFFFFFFFFF 0xC000000000000000 = 0xFFF0000000000000) ∧
      (isInf 0x7FF0000000000000 = true ∧ isInf 0xFFF0000000000000 = true ∧ isNaN 0x3FF0000000000000 = false ∧
        isZero 0x3FF0000000000000 = false) ∧
      isNaN (fmul 0 0x8000000000000000 0x3FF0000000000000) = false := by
  decide +kernel

/-- 1 + 2^-53, a tie, rounded to the even 1; the largest finite value and half its last place, a tie that overflows, and
a little less, which does not; and infinite operands. -/
theorem witness_AddRoundsToNearestEven :
    (isFinite 0x3FF0000000000000 = true ∧ isFinite 0x3CA0000000000000 = true ∧
        fadd 0 0x3FF0000000000000 0x3CA0000000000000 = 0x3FF0000000000000) ∧
      (isFinite 0x7FEFFFFFFFFFFFFF = true ∧ isFinite 0x7C90000000000000 = true ∧
        fadd 0 0x7FEFFFFFFFFFFFFF 0x7C90000000000000 = 0x7FF0000000000000 ∧
        fadd 0 0x7FEFFFFFFFFFFFFF 0x7C8FFFFFFFFFFFFF = 0x7FEFFFFFFFFFFFFF) ∧
      isInf 0xFFF0000000000000 = true ∧ negative 0xFFF0000000000000 = true := by
  decide +kernel

/-- −40 / 0.1; 1 / −0, an infinity; the largest finite value over the least subnormal, an overflow; and infinite
operands. -/
theorem witness_DivRoundsToNearestEven :
    (isFinite 0xC044000000000000 = true ∧ isFinite 0x3FB999999999999A = true ∧ isZero 0x3FB999999999999A = false) ∧
      (isNaN 0x3FF0000000000000 = false ∧ isZero 0x3FF0000000000000 = false ∧ isZero 0x8000000000000000 = true ∧
        fdiv 0 0x3FF0000000000000 0x8000000000000000 = 0xFFF0000000000000) ∧
      (isFinite 0x7FEFFFFFFFFFFFFF = true ∧ isFinite 0x0000000000000001 = true ∧
        isZero 0x0000000000000001 = false ∧ fdiv 0 0x7FEFFFFFFFFFFFFF 0x0000000000000001 = 0x7FF0000000000000) ∧
      isInf 0x7FF0000000000000 = true ∧ isNaN (fdiv 0 0x3FF0000000000000 0x7FF0000000000000) = false := by
  decide +kernel

theorem witness_ScaleOfACount :
    decodeCount 0x8000 = 0 ∧ (isFinite 0x3FA47AE147AE147B = true ∧ negative 0x3FA47AE147AE147B = false) ∧
      (isFinite 0xBFA47AE147AE147B = true ∧ negative 0xBFA47AE147AE147B = true) ∧
      isFinite 0x7FF0000000000000 = false ∧ isFinite 0x7FF8000000000000 = false := by
  decide

theorem witness_CountsConvertExactly : (-4095 : Int) ≤ 4095 ∧ (4095 : Int) ≤ 4095 := by decide

theorem witness_OrdinaryCalibrationGivesNoNaN : State.reset.busy = false ∧ State.reset.cal.ordinary = true := by
  decide

/-! ## Witnesses: commands and host accesses -/

/-- An idle and a busy state: the premises of `ConfigureAccepted`, `ProcessComputesSample`, `BusyBlockIgnoresWrites`,
`HostWriteWhenIdle`, and with `CONFIGURED` both ways those of `FetchAcceptedOrRefused`. -/
theorem witness_FetchAcceptedOrRefused :
    (configured.busy = false ∧ configured.configured = true) ∧
      (State.reset.busy = false ∧ State.reset.configured = false) ∧ (fetching .pollRd configured).busy = true := by
  decide

theorem witness_ConfigureAccepted : State.reset.busy = false ∧ (configuring State.reset).busy = true := by decide

theorem witness_ProcessComputesSample : fetched.busy = false ∧ (configuring State.reset).busy = true := by decide

theorem witness_BusyBlockIgnoresWrites : (fetching .pollWait configured).busy = true := by decide

theorem witness_HostWriteWhenIdle :
    configured.busy = false ∧
      0x01#6 ∉ [0x00#6, 0x02#6, 0x04#6, 0x05#6, 0x06#6, 0x07#6, 0x08#6, 0x09#6, 0x0A#6, 0x0B#6, 0x0C#6, 0x0D#6,
        0x18#6, 0x19#6, 0x1A#6] ∧
      0x3F#6 ∉ [0x00#6, 0x02#6, 0x04#6, 0x05#6, 0x06#6, 0x07#6, 0x08#6, 0x09#6, 0x0A#6, 0x0B#6, 0x0C#6, 0x0D#6,
        0x18#6, 0x19#6, 0x1A#6] := by
  decide

theorem witness_HostReadReturns : 0x3F#6 ∈ [0x00#6, 0x0F#6, 0x3F#6] := by decide

/-- A word for each clause: codes 1, 2 (both ways), 3, 0, 4 and 15. -/
theorem witness_CommandWriteDispatches :
    State.reset.busy = false ∧ State.reset.configured = false ∧ configured.busy = false ∧
      configured.configured = true ∧ (0xF1#64).extractLsb' 0 4 = 0x1#4 ∧ (0x2#64).extractLsb' 0 4 = 0x2#4 ∧
      (0x3#64).extractLsb' 0 4 = 0x3#4 ∧ (0x0#64).extractLsb' 0 4 ∉ [0x1#4, 0x2#4, 0x3#4] ∧
      (0x4#64).extractLsb' 0 4 ∉ [0x1#4, 0x2#4, 0x3#4] ∧ (0xFF#64).extractLsb' 0 4 ∉ [0x1#4, 0x2#4, 0x3#4] := by
  decide

/-- Two states that share channel 1 and differ in channel 0. -/
theorem witness_ProcessIsFunctionOfChannel :
    let s1 : State := { fetched with raw := rawP1 }
    let s2 : State := { s1 with raw := { rawP1 with shunt := ⟨0, 0xE0C0, 0⟩ } }
    s1.busy = false ∧ s2.busy = false ∧ s1.raw.shunt.get .ch1 = s2.raw.shunt.get .ch1 ∧
      s1.raw.bus.get .ch1 = s2.raw.bus.get .ch1 ∧ s1.cal = s2.cal ∧
      ∃ t1 t2 u, exec (.process 0) s1 = .next t1 ∧ exec (.process 0) s2 = .next t2 ∧
        exec (.process 0) t1 = .next u :=
  ⟨by decide, by decide, by decide, by decide, by decide, _, _, _, rfl, rfl, rfl⟩

/-! ## Witnesses: bus transactions and time -/

theorem witness_ConfigureWriteAnswered :
    ((configuring State.reset).seq = .cfgWr ∧ (configuring State.reset).busIn.fail = false) ∧
      (failing (configuring State.reset)).seq = .cfgWr ∧ (failing (configuring State.reset)).busIn.fail = true := by
  decide

/-- Failure; flag; and, with the flag clear, the watchdog at its boundary: elapsed 20 of 20, and 19 of 20. -/
theorem witness_PollAnswered :
    let s (w : Word16) (n : Word64) : State :=
      answering w (fetching .pollRd { configured with timeout := 20, now := n })
    ((failing (s 0 0)).seq = .pollRd ∧ (failing (s 0 0)).busIn.fail = true) ∧
      ((s 0x0100 20).seq = .pollRd ∧ (s 0x0100 20).busIn.fail = false ∧ (swap16 0x0100).getLsbD 0 = true) ∧
      ((s 0x0001 20).busIn.fail = false ∧ (swap16 0x0001).getLsbD 0 = false ∧
        (s 0x0001 20).timeout.toNat ≤ ((s 0x0001 20).now - (s 0x0001 20).t0).toNat) ∧
      (s 0x0001 19).busIn.fail = false ∧
      ((s 0x0001 19).now - (s 0x0001 19).t0).toNat < (s 0x0001 19).timeout.toNat := by
  decide

theorem witness_PollReadsOneBit :
    (fetching .pollRd configured).seq = .pollRd ∧ (0x0001#16).getLsbD 8 = (0xFEFF#16).getLsbD 8 ∧
      (0x0100#16).getLsbD 8 = (0xFFFF#16).getLsbD 8 := by
  decide

theorem witness_DataReadStages :
    ((fetching (.dataRd 0) configured).seq = .dataRd 0 ∧ (fetching (.dataRd 0) configured).busIn.fail = false) ∧
      ((fetching (.dataRd 4) configured).seq = .dataRd 4 ∧ (4 : Fin 6).val < 5) ∧
      (fetching (.dataRd 5) configured).seq = .dataRd 5 ∧ (5 : Fin 6).val = 5 := by
  decide

theorem witness_LastReadCommits :
    (fetching (.dataRd 5) configured).seq = .dataRd 5 ∧ (fetching (.dataRd 5) configured).busIn.fail = false := by
  decide

theorem witness_BusFailureEndsFetch :
    ((failing (fetching .pollRd configured)).busIn.fail = true ∧
        (failing (fetching .pollRd configured)).seq = .pollRd) ∧
      (failing (fetching (.dataRd 3) configured)).busIn.fail = true ∧
      (failing (fetching (.dataRd 3) configured)).seq = .dataRd 3 := by
  decide

theorem witness_OtherPhaseHasNoStep :
    State.reset.seq ≠ .cfgWr ∧ State.reset.seq ≠ .pollRd ∧ (fetching (.dataRd 0) configured).seq ≠ .dataRd 1 := by
  decide

/-- One state per phase, with the handing over as the next event. -/
theorem witness_TransactionIssuedOnce :
    (next .issue (configuring State.reset)).inbox = [.issue] ∧
      (next .issue (fetching .pollRd configured)).inbox = [.issue] ∧
      (next .issue (fetching (.dataRd 5) configured)).inbox = [.issue] ∧
      (next .issue State.reset).inbox = [.issue] ∧ (next .issue (fetching .pollWait configured)).inbox = [.issue] := by
  decide

/-- Asleep for 20 ticks and for 19. -/
theorem witness_SleepEndsAfterPollTicks :
    let s (e : EnvEvent) (n : Word64) : State := next e (fetching .pollWait { configured with now := n, w0 := 7 })
    ((s .wake 27).inbox = [.wake] ∧ (s .wake 27).seq = .pollWait ∧
        20 ≤ ((s .wake 27).now - (s .wake 27).w0).toNat) ∧
      ((s .wake 26).seq = .pollWait ∧ ((s .wake 26).now - (s .wake 26).w0).toNat < 20) ∧
      (s .issue 7).inbox = [.issue] ∧ (s (.answer ⟨true, 0⟩) 7).inbox = [.answer ⟨true, 0⟩] := by
  decide

theorem witness_TickAddsOne : (next .tick State.reset).inbox = [.tick] := by decide

/-! ## Witnesses: invariants and whole-machine rules -/

/-- The four conditions of `State.Consistent`, as one check. -/
def isConsistent (s : State) : Bool :=
  (s.busy == (s.seq != .idle)) && (!s.inFlight || s.transaction.isSome) &&
    (s.seq != .cfgWr || s.cfgLatch == pack s.options) && (s.seq == .idle || s.seq == .cfgWr || s.configured)

theorem consistent_of_check (s : State) (h : isConsistent s = true) : s.Consistent := by
  simp only [isConsistent, Bool.and_eq_true, Bool.or_eq_true, beq_iff_eq, bne_iff_ne, Bool.not_eq_true'] at h
  obtain ⟨⟨⟨h1, h2⟩, h3⟩, h4⟩ := h
  refine ⟨?_, fun hi => ?_, fun hs => ?_, fun h0 hw => ?_⟩
  · rw [h1]; simp
  · exact h2.resolve_left (by simp [hi])
  · exact h3.resolve_left (by simp [hs])
  · exact h4.elim (fun h => h.elim (fun h => absurd h h0) (fun h => absurd h hw)) id

/-- A step that is not a reset, from a consistent state, and what it changes. -/
def changes (s : State) (p : State → Bool) : Bool :=
  isConsistent s && (nextEvent s).1 != .rst && holdsAfter (step s) p

/-- A step for each row of the transition table that changes the phase (42_fetch_poller.md R185). -/
theorem witness_SequencerFollowsTable :
    changes (next (.command 0x1) State.reset) (·.seq == .cfgWr) = true ∧
      changes (next (.access 0x40 0x2) configured) (·.seq == .pollRd) = true ∧
      changes (next (.answer ⟨true, 0⟩) (configuring configured)) (·.seq == .idle) = true ∧
      changes (next (.answer ⟨true, 0⟩) (fetching .pollRd configured)) (·.seq == .idle) = true ∧
      changes (next (.answer ⟨false, 0x0100⟩) (fetching .pollRd configured)) (·.seq == .dataRd 0) = true ∧
      changes (next (.answer ⟨false, 0⟩) (fetching .pollRd { configured with timeout := 0 })) (·.seq == .idle) = true ∧
      changes (next (.answer ⟨false, 0⟩) (fetching .pollRd configured)) (·.seq == .pollWait) = true ∧
      changes (next .wake (fetching .pollWait { configured with now := 20 })) (·.seq == .pollRd) = true ∧
      changes (next (.answer ⟨false, 0⟩) (fetching (.dataRd 4) configured)) (·.seq == .dataRd 5) = true ∧
      changes (next (.answer ⟨false, 0⟩) (fetching (.dataRd 5) configured)) (·.seq == .idle) = true ∧
      changes (next (.answer ⟨true, 0⟩) (fetching (.dataRd 3) configured)) (·.seq == .idle) = true := by
  decide

/-- The premises of `StepKeepsConsistent`: a consistent state with a transaction in flight, and its step. -/
theorem witness_StepKeepsConsistent :
    let s : State := next (.answer ⟨false, 0⟩) { fetching .pollRd configured with inFlight := true }
    s.Consistent ∧ ∃ t, step s = .next t :=
  ⟨consistent_of_check _ (by decide), _, rfl⟩

/-- The flag has just been read; the first data read is handed over next. -/
theorem witness_StepKeepsFlagBeforeData :
    let s : State :=
      { next .issue (fetching (.dataRd 0) configured) with history := [.bus (.data 0x0100), .bus (.read 0x0F)] }
    s.Consistent ∧ s.Ordered ∧ ∃ t, step s = .next t :=
  ⟨consistent_of_check _ (by decide), ⟨by decide, (rfl : dataReadAllowed 0x01 [.data 0x0100, .read 0x0F] = true)⟩, _, rfl⟩

theorem witness_BusTrafficIsThePhaseTransaction :
    holdsAfter (step (next (.answer ⟨false, 0⟩) (fetching .pollRd configured)))
      (fun t => busTrace t.history == [.data 0, .read 0x0F]) = true := by
  decide

theorem witness_RawSampleChangesOnlyAtCommit :
    changes (next (.answer ⟨false, 0xFFFF⟩) (fetching (.dataRd 5) { configured with stg := stagedP1 }))
      (fun t => t.raw == rawP1) = true := by
  decide

theorem witness_ProcessedSampleChangesOnlyByProcess :
    changes (next (.command 0x3) { fetched with raw := rawP1 })
      (fun t => t.proc.ch0.shuntMv == 0x4044000000000000) = true := by
  decide +kernel

theorem witness_FlagsHaveTheirWriters :
    changes (next (.answer ⟨false, 0⟩) (fetching (.dataRd 5) configured)) (·.fetched) = true ∧
      changes (next (.answer ⟨false, 0⟩) (fetching .pollRd { fetched with timeout := 0 })) (!·.fetched) = true ∧
      changes (next (.answer ⟨false, 0⟩) (configuring State.reset)) (·.configured) = true := by
  decide

theorem witness_ControlRegistersChangeOnlyByHostWrites :
    changes (next (.access 0x42 5) State.reset) (·.timeout == 5) = true := by
  decide

theorem witness_ErrChangesOnlyAtAnOutcome :
    changes (next (.answer ⟨true, 0⟩) (fetching .pollRd configured)) (·.err == .busError) = true ∧
      changes (next (.command 0x0) State.reset) (·.err == .badCommand) = true := by
  decide

theorem witness_TimeElementsHaveTheirWriters :
    changes (next .tick State.reset) (·.now == 1) = true ∧
      changes (next (.command 0x2) { configured with now := 40 }) (·.t0 == 40) = true ∧
      changes (next (.answer ⟨false, 0⟩) (fetching .pollRd { configured with now := 7 })) (·.w0 == 7) = true := by
  decide

theorem witness_LifecycleFollowsCommands :
    changes (next (.answer ⟨false, 0⟩) (configuring State.reset)) (·.lifecycle == .configured) = true ∧
      changes (next (.answer ⟨true, 0⟩) (configuring fetched)) (·.lifecycle == .uninitialized) = true ∧
      changes (next (.answer ⟨false, 0⟩) (fetching (.dataRd 5) configured)) (·.lifecycle == .dataReady) = true ∧
      changes (next (.answer ⟨false, 0⟩) (fetching .pollRd { fetched with timeout := 0 }))
        (·.lifecycle == .configured) = true := by
  decide

/-! ## Witnesses: whole fetches -/

/-- Two polls that go on, answered at ticks 1 and 21 and followed by sleeps of 20 and 21 ticks, with a host read of
`STATUS`, an ignored write of `TIMEOUT` and a change of the wall clock among them; then `last` at tick 43. -/
def slowFetch (last : BusAnswer) (reads : List AnsweredRead) : FetchSchedule :=
  { polls :=
      [⟨[.issue, .tick, .access 0x01 0, .access 0x42 5], 0x0000, List.replicate 20 .tick⟩,
        ⟨[], 0x0001, .wallclock 7 :: List.replicate 21 .tick ++ [.access 0x01 0]⟩]
    last := ⟨[.issue, .tick], last⟩
    reads := reads }

/-- Just accepted with `TIMEOUT` = 43, and the events of the schedule `f` to come. -/
def fetchUnder (f : FetchSchedule) : State :=
  { fetching .pollRd { configured with timeout := 43 } with inbox := f.events }

theorem slowFetch_polls_continue : PollsContinue 43 0 (slowFetch ⟨true, 0⟩ []).polls :=
  ⟨by decide, by decide, by decide, by decide, by decide, by decide, by decide, by decide, by decide, by decide, trivial⟩

/-- With each of the ends: a failed poll; the flag and six answered reads, ticks among them; the flag and a failed
second read; the time-out at its boundary, 43 ticks of 43. -/
theorem witness_FetchRunMatchesBigStep (f : FetchSchedule) :
    ((fetchUnder f).seq = .pollRd ∧ (fetchUnder f).busy = true ∧ (fetchUnder f).inFlight = false ∧
        (fetchUnder f).inbox = f.events ++ [] ∧ (fetchUnder f).timeout.toNat = 43 ∧
        ((fetchUnder f).now - (fetchUnder f).t0).toNat = 0) ∧
      (slowFetch ⟨true, 0⟩ []).RunsToEnd 43 0 ∧
      (slowFetch ⟨false, 0x0100⟩ (List.replicate 6 ⟨[.issue, .tick], false, 0x0800⟩)).RunsToEnd 43 0 ∧
      (slowFetch ⟨false, 0x0100⟩ [⟨[], false, 0⟩, ⟨[.tick], true, 0⟩]).RunsToEnd 43 0 ∧
      (slowFetch ⟨false, 0⟩ []).RunsToEnd 43 0 ∧ 0 + (slowFetch ⟨false, 0⟩ []).loopTicks < 2 ^ 64 :=
  ⟨⟨rfl, rfl, rfl, (List.append_nil _).symm, rfl, (by decide : (0#64 - 0#64).toNat = 0)⟩,
    ⟨slowFetch_polls_continue, by decide, rfl⟩,
    ⟨slowFetch_polls_continue, by decide, rfl, rfl, rfl, rfl, rfl, rfl, rfl⟩,
    ⟨slowFetch_polls_continue, by decide, rfl, rfl, rfl⟩,
    ⟨slowFetch_polls_continue, by decide, rfl, by decide⟩, by decide⟩

/-- A fetch accepted at tick 40 with `TIMEOUT` = 50, three polls that go on, and a fourth (95 section 5). -/
def promptFetch : State :=
  { fetching .pollRd { configured with timeout := 50, now := 40, t0 := 40 } with
    inbox := fetchEvents [(0x0000, 20), (0x0001, 20), (0xFEFF, 20)] ⟨false, 0⟩ [] }

theorem witness_PromptFetchTimesOut :
    promptFetch.seq = .pollRd ∧ promptFetch.inFlight = false ∧ promptFetch.now = promptFetch.t0 ∧
      promptFetch.inbox = fetchEvents ([0x0000, 0x0001, 0xFEFF].map fun w => (w, 20)) ⟨false, 0⟩ [] ++ [] ∧
      [0x0000#16, 0x0001, 0xFEFF].length = (promptFetch.timeout.toNat + 19) / 20 ∧
      (∀ w ∈ [0x0000#16, 0x0001, 0xFEFF], readyFlag (swap16 w) = false) ∧ readyFlag (swap16 0) = false :=
  ⟨rfl, rfl, rfl, (List.append_nil _).symm, by decide, by simp [readyFlag, swap16], by decide⟩

/-! ## Witness: a fair run -/

/-- Rounds of 22 turns: a poll answered with the flag clear, 20 ticks, and the end of the sleep. -/
def rounds (n : Nat) : EnvEvent :=
  if n % 22 = 0 then .answer ⟨false, 0⟩ else if n % 22 = 21 then .wake else .tick

/-- Just accepted with `TIMEOUT` = 20. -/
def shortFetch : State := fetching .pollRd { configured with timeout := 20 }

/-- Idle, with nothing in flight. -/
def isQuiet (s : State) : Bool := !s.busy && s.seq == .idle && !s.inFlight

theorem quiet_stays {s t : State} {e : EnvEvent} (hs : isQuiet s = true) (he : isHostAccess e = false)
    (h : Effect s e t) : isQuiet t = true := by
  simp only [isQuiet, Bool.and_eq_true, Bool.not_eq_true', beq_iff_eq] at hs ⊢
  obtain ⟨⟨hb, hq⟩, hf⟩ := hs
  have write {i d} {p : Prop} (hw : hostWriteOf e = some (i, d)) : p := by
    rw [isHostAccess_of_write hw] at he; cases he
  cases h with
  | configureAccepted hw => exact write hw
  | fetchAccepted hw => exact write hw
  | registerWrite hw => exact write hw
  | issued ht => rw [State.transaction_idle s hq] at ht; cases ht
  | staged hs => rw [hq] at hs; cases hs
  | flagSeen hs => rw [hq] at hs; cases hs
  | pollAgain hs => rw [hq] at hs; cases hs
  | woken hs => rw [hq] at hs; cases hs
  | _ => simp_all [State.blockReset, State.reset]

/-- The run times out at turn 22, 20 ticks after its start. -/
theorem shortFetch_run :
    (∀ n : Fin 23, (stateAt rounds shortFetch n).busy = true ∧ (stateAt rounds shortFetch n).inFlight = false) ∧
      isQuiet (stateAt rounds shortFetch 23) = true ∧ (stateAt rounds shortFetch 23).err = .fetchTimeout := by
  decide +kernel

theorem shortFetch_quiet (k : Nat) : isQuiet (stateAt rounds shortFetch (23 + k)) = true := by
  induction k with
  | zero => exact shortFetch_run.2.1
  | succ k ih =>
    refine quiet_stays (s := { stateAt rounds shortFetch (23 + k) with inbox := [] }) ih ?_ (stateAt_effect _ _ _)
    unfold rounds
    split
    · rfl
    · split <;> rfl

/-- The premises of `EveryCommandEnds`, all of them, for a fetch that times out. -/
theorem witness_EveryCommandEnds :
    shortFetch.busy = true ∧ shortFetch.seq ≠ .idle ∧ FairRun rounds shortFetch := by
  have early (n : Nat) (h : n < 23) := shortFetch_run.1 ⟨n, h⟩
  have late (n : Nat) (h : 23 ≤ n) : (stateAt rounds shortFetch n).busy = false ∧
      (stateAt rounds shortFetch n).seq = .idle ∧ (stateAt rounds shortFetch n).inFlight = false := by
    obtain ⟨k, rfl⟩ := exists_offset h
    have := shortFetch_quiet k
    simp only [isQuiet, Bool.and_eq_true, Bool.not_eq_true', beq_iff_eq] at this
    exact ⟨this.1.1, this.1.2, this.2⟩
  refine ⟨rfl, by decide, fun n => ⟨22 * n + 1, by omega, ?_⟩, fun n h => ?_, fun n _ => ?_, fun n k hp hs _ => ?_⟩
  · unfold rounds
    rw [if_neg (by omega), if_neg (by omega)]
  · have := h (n + 23) (by omega)
    rw [(late (n + 23) (by omega)).2.2] at this
    cases this
  · exact ⟨n + 23, by omega, .inr (late (n + 23) (by omega)).1⟩
  · have hk : n + k < 23 := by
      refine Nat.lt_of_not_le fun hc => ?_
      have := (hs k (Nat.le_refl k)).symm.trans (late (n + k) hc).2.1
      rw [this] at hp
      cases hp <;> contradiction
    have hle : ∀ k, ticksFrom rounds n k ≤ k := by
      intro k
      induction k with
      | zero => exact Nat.le_refl _
      | succ k ih => rw [ticksFrom]; split <;> omega
    have := hle k
    omega

/-- The premises of `StuckWithoutFairness`: a sleep that is not over, and a host that only reads. -/
theorem witness_StuckWithoutFairness :
    let s := fetching .pollWait configured
    let schedule : Nat → EnvEvent := fun _ => .access 0x01 0
    s.busy = true ∧ s.seq ≠ .idle ∧ (∀ n, schedule n ≠ .rst) ∧ (∀ n a, schedule n ≠ .answer a) ∧
      s.seq = .pollWait ∧ sleepOver s = false ∧ ∀ n, schedule n ≠ .tick :=
  ⟨rfl, by decide, fun _ => by simp, fun _ _ => by simp, rfl, by decide, fun _ => by simp⟩

end Sys2Proof.Tests
end

section
/-! The numbers of the operations, the phase of a bus descriptor, and the step at an event that carries a number. -/

namespace Sys2Proof

/-- The encoder's words are in the decoder's tables, every operand recovered whole. -/
theorem decode_encode (i : Instr) : decode (encode i) = .ok i := by
  cases i with
  | configure ignored => simp [encode, decode, decodeCommand]
  | fetch ignored => simp [encode, decode, decodeCommand]
  | process ignored => simp [encode, decode, decodeCommand]
  | hwr index data => simp [encode, decode, decodeAccess]
  | hrd index => simp [encode, decode, decodeAccess]
  | wrregConfig | rdregShunt0 | rdregBus0 | rdregShunt1 | rdregBus1 | rdregShunt2 | rdregBus2 | rdregMasken => rfl

end Sys2Proof

namespace Sys2Proof.Machine

open Sys2Proof

/-! ## The descriptor of a phase -/

/-- The descriptor that a phase puts on the bus port (42_fetch_poller.md R185). -/
def Seq.descriptor : Seq → Option (BitVec 9)
  | .idle => none
  | .cfgWr => some 0x000#9
  | .pollRd => some 0x10F#9
  | .pollWait => none
  | .dataRd i => some (0x101#9 + BitVec.ofNat 9 i.val)

theorem readDescriptor_dataAddr (i : Fin 6) : readDescriptor (dataAddr i) = 0x101#9 + BitVec.ofNat 9 i.val := by
  revert i; decide

theorem State.busDescriptor_eq (s : State) : s.busDescriptor = s.seq.descriptor := by
  cases h : s.seq with
  | idle => rw [State.busDescriptor, State.transaction_idle s h]; rfl
  | cfgWr => rw [State.busDescriptor, State.transaction_cfgWr s h]; rfl
  | pollRd => rw [State.busDescriptor, State.transaction_pollRd s h]; rfl
  | pollWait => rw [State.busDescriptor, State.transaction_pollWait s h]; rfl
  | dataRd i =>
    rw [State.busDescriptor, State.transaction_dataRd s i h]
    exact congrArg some (readDescriptor_dataAddr i)

/-- Every bus descriptor that decodes belongs to a phase, and that phase issues it. -/
theorem exists_phase_of_decodeBus {d : BitVec 9} {i : Instr} (h : decodeBus d = .ok i) :
    ∃ q, phaseOf d = some q ∧ q.descriptor = some d := by
  unfold decodeBus at h
  iterate 8
    split at h
    · subst d; exact ⟨_, rfl, rfl⟩
  cases h

/-! ## The event with a number -/

theorem runCommand_of_decode {w : Word64} {i : Instr} (h : decode (.cmd w) = .ok i) (s : State) :
    runCommand w s = exec i s := by
  simp [runCommand, h]

theorem runAccess_of_decode {w : BitVec 7} {data : Word64} {i : Instr} (h : decode (.host w data) = .ok i) (s : State) :
    runAccess w data s = exec i s := by
  simp [runAccess, h]

theorem runAnswer_of_decode {a : BusAnswer} {s : State} {d : BitVec 9} {i : Instr} (hd : s.busDescriptor = some d)
    (h : decode (.bus d) = .ok i) : runAnswer a s = exec i { s with busIn := a } := by
  simp [runAnswer, hd, h]

theorem step_of_nextEvent {s : State} {e : EnvEvent} (h : (nextEvent s).1 = e) :
    step s = runEvent e (nextEvent s).2 := by
  rw [step, h]

theorem nextEvent_cons {s : State} {e : EnvEvent} {rest : List EnvEvent} (h : s.inbox = e :: rest) :
    nextEvent s = (e, { s with inbox := rest }) := by
  simp [nextEvent, h]

/-- Taking an event leaves the phase, hence the descriptor, as it is. -/
theorem busDescriptor_nextEvent (s : State) : (nextEvent s).2.busDescriptor = s.busDescriptor := by
  obtain ⟨rest, n, h⟩ := nextEvent_frame s
  rw [h]; rfl

/-! ## The step at a placed number -/

theorem step_inbox_cons (e : EnvEvent) (s : State) : step { s with inbox := e :: s.inbox } = runEvent e s :=
  step_cons _ e s.inbox rfl

theorem step_withPortWord_cmd {w : Word64} {i : Instr} (h : decode (.cmd w) = .ok i) (s : State) :
    step (s.withPortWord (.cmd w)) = exec i s :=
  (step_inbox_cons (.command w) s).trans (runCommand_of_decode h s)

theorem step_withPortWord_host {w : BitVec 7} {data : Word64} {i : Instr} (h : decode (.host w data) = .ok i)
    (s : State) : step (s.withPortWord (.host w data)) = exec i s :=
  (step_inbox_cons (.access w data) s).trans (runAccess_of_decode h s)

/-- The placed answer is the response side of the port as it stands, so taking it changes no input. -/
theorem step_withPortWord_bus {d : BitVec 9} {i : Instr} (h : decode (.bus d) = .ok i) (s : State) :
    step (s.withPortWord (.bus d)) =
      exec i { s with seq := (phaseOf d).getD .idle, busy := true, inFlight := false } := by
  obtain ⟨q, hq, hd⟩ := exists_phase_of_decodeBus h
  have hb : State.busDescriptor { s with seq := q, busy := true, inFlight := false } = some d :=
    (State.busDescriptor_eq _).trans hd
  simp only [State.withPortWord, hq, Option.getD_some]
  exact (step_inbox_cons (.answer s.busIn) _).trans (runAnswer_of_decode hb h)

/-- Settles O7: an encoding decodes to its operation, and the step at a placed number that decodes is `exec` of what it
decodes to, port by port. -/
theorem placedOperationRunsNext : Obligations.PlacedOperationRunsNext := by
  intro s i
  have hi : decode (encode i) = .ok i := decode_encode i
  generalize encode i = p at hi ⊢
  cases p with
  | cmd w => exact step_withPortWord_cmd hi s
  | host w data => exact step_withPortWord_host hi s
  | bus d => exact step_withPortWord_bus hi s

/-- Settles O5: the event is taken from the inbox, and each kind of event with a number runs what the number decodes
to; for an answer the number is that of the phase, which taking the event leaves as it is. -/
theorem stepRunsDecodedOperation : Obligations.StepRunsDecodedOperation := by
  intro s
  refine ⟨fun e rest h => nextEvent_cons h, fun w i he hw => ?command, fun w data i he hw => ?access,
    fun a d i he hd hw => ?answer, State.busDescriptor_eq s⟩
  case command => exact (step_of_nextEvent he).trans (runCommand_of_decode hw _)
  case access => exact (step_of_nextEvent he).trans (runAccess_of_decode hw _)
  case answer =>
    exact (step_of_nextEvent he).trans (runAnswer_of_decode ((busDescriptor_nextEvent s).trans hd) hw)

end Sys2Proof.Machine
end

section
/-! Who writes each element of the block: what a step may change, what it leaves alone, and what every step keeps
between the elements. Each statement is first one about `Effect`, by the kind of step. -/

namespace Sys2Proof.Machine

open Sys2Proof

/-! ## Consistent states -/

/-- A block that runs nothing has nothing to be inconsistent about. -/
theorem State.Consistent.of_idle {t : State} (hb : t.busy = false) (hs : t.seq = .idle) (hi : t.inFlight = false) :
    t.Consistent where
  busy_iff := by simp [hb, hs]
  inFlight_has_transaction h := by simp [hi] at h
  latch_is_word h := by simp [hs] at h
  fetch_is_configured h := absurd hs h

/-- A phase of a fetch, before its transaction is handed over. -/
theorem State.Consistent.of_fetching {t : State} (hb : t.busy = true) (hs : t.seq ≠ .idle) (hw : t.seq ≠ .cfgWr)
    (hi : t.inFlight = false) (hc : t.configured = true) : t.Consistent where
  busy_iff := by simp [hb, hs]
  inFlight_has_transaction h := by simp [hi] at h
  latch_is_word h := absurd h hw
  fetch_is_configured _ _ := hc

/-- Consistency reads six elements of the state and no other. -/
theorem State.Consistent.of_frame {s t : State} (h : s.Consistent) (hb : t.busy = s.busy) (hs : t.seq = s.seq)
    (hi : t.inFlight = s.inFlight) (hl : t.cfgLatch = s.cfgLatch) (ho : t.options = s.options)
    (hc : t.configured = s.configured) : t.Consistent where
  busy_iff := by rw [hb, hs]; exact h.busy_iff
  inFlight_has_transaction := by
    have ht : t.transaction = s.transaction := by simp only [State.transaction, hs, hl]
    rw [hi, ht]; exact h.inFlight_has_transaction
  latch_is_word := by rw [hs, hl, ho]; exact h.latch_is_word
  fetch_is_configured := by rw [hs, hc]; exact h.fetch_is_configured

theorem State.Consistent.idle_of_not_busy {s : State} (h : s.Consistent) (hb : s.busy = false) : s.seq = .idle := by
  cases hs : s.seq with
  | idle => rfl
  | _ =>
    have hb' : s.busy = true := h.busy_iff.2 (hs ▸ nofun)
    exact absurd hb' (Bool.eq_false_iff.1 hb)

theorem State.Consistent.busy_of_seq {s : State} (h : s.Consistent) {q : Seq} (hs : s.seq = q) (hq : q ≠ .idle) :
    s.busy = true :=
  h.busy_iff.2 (hs ▸ hq)

theorem State.Consistent.configured_of_seq {s : State} (h : s.Consistent) {q : Seq} (hs : s.seq = q) (hq : q ≠ .idle)
    (hw : q ≠ .cfgWr) : s.configured = true :=
  h.fetch_is_configured (hs ▸ hq) (hs ▸ hw)

theorem State.Consistent.not_inFlight {s : State} (h : s.Consistent) (ht : s.transaction = none) :
    s.inFlight = false := by
  refine Bool.eq_false_iff.2 fun hi => ?_
  have hs : s.transaction.isSome = true := h.inFlight_has_transaction hi
  rw [ht] at hs
  cases hs

/-- Every kind of step keeps the state consistent: it ends idle, or in a phase of a fetch that is configured, or leaves
the six elements alone; the acceptance of a `CONFIGURE`, a register write and a handing over have their own reasons. -/
theorem Effect.keeps_consistent {s t : State} {e : EnvEvent} (h : Effect s e t) (hc : s.Consistent) :
    t.Consistent := by
  have notInFlight (hb : s.busy = false) : s.inFlight = false :=
    hc.not_inFlight (s.transaction_idle (hc.idle_of_not_busy hb))
  cases h with
  | recordOnly | notIssued | notAnswered | notWoken | fetchRefused | processed | badCommand | ticked | wallclock =>
    exact hc.of_frame rfl rfl rfl rfl rfl rfl
  | configured | configureFailed | pollFailed | timedOut | dataFailed | committed | reset =>
    exact .of_idle rfl rfl rfl
  | configureAccepted _ _ hb =>
    exact ⟨by simp, fun hi => absurd hi (by simp [notInFlight hb]), fun _ => rfl, fun _ hw => absurd rfl hw⟩
  | fetchAccepted _ _ hb hf => exact .of_fetching rfl nofun nofun (notInFlight hb) hf
  | registerWrite _ _ hb => exact .of_idle hb (hc.idle_of_not_busy hb) (notInFlight hb)
  | issued ht _ =>
    exact ⟨hc.busy_iff, fun _ => Option.isSome_of_eq_some ht, hc.latch_is_word, hc.fetch_is_configured⟩
  | flagSeen hs _ _ | pollAgain hs _ _ _ | staged hs _ _ =>
    exact .of_fetching (hc.busy_of_seq hs nofun) nofun nofun rfl (hc.configured_of_seq hs nofun nofun)
  | woken hs _ =>
    exact .of_fetching (hc.busy_of_seq hs nofun) nofun nofun (hc.not_inFlight (s.transaction_pollWait hs))
      (hc.configured_of_seq hs nofun nofun)

/-- Taking an event keeps the state consistent, since it changes only the model's own `inbox` and `draws`. -/
theorem State.Consistent.taken {s : State} (h : s.Consistent) (rest : List EnvEvent) (n : Nat) :
    State.Consistent { s with inbox := rest, draws := n } :=
  h.of_frame rfl rfl rfl rfl rfl rfl

/-- Settles O48: the event is taken, and every kind of step keeps the state consistent. -/
theorem stepKeepsConsistent : Obligations.StepKeepsConsistent := by
  intro s t hc hst
  obtain ⟨rest, n, _, h⟩ := step_effect hst
  exact h.keeps_consistent (hc.taken rest n)

/-! ## The writers of each element -/

section
variable {s t : State} {e : EnvEvent}

theorem Effect.writers_of_raw (h : Effect s e t) (hr : e ≠ .rst) :
    (t.raw = s.raw ∧ t.fetchTs = s.fetchTs) ∨
      (s.seq = .dataRd 5 ∧ (∃ a, e = .answer a ∧ a.fail = false) ∧
        t.fetched = true ∧ t.fetchTs = s.wallclock ∧ t.err = .ok ∧ t.busy = false ∧ t.seq = .idle) := by
  cases h with
  | committed hs ha => exact .inr ⟨hs, ⟨_, rfl, ha⟩, rfl, rfl, rfl, rfl, rfl⟩
  | reset => exact absurd rfl hr
  | _ => exact .inl ⟨rfl, rfl⟩

theorem Effect.writers_of_proc (h : Effect s e t) (hr : e ≠ .rst) :
    t.proc = s.proc ∨
      (s.busy = false ∧ writesCommand e 0x3 ∧ t.proc = processedSample s.draws s.raw s.cal ∧ t.err = .ok) := by
  cases h with
  | processed he hc hb => exact .inr ⟨hb, ⟨_, he, hc⟩, rfl, rfl⟩
  | reset => exact absurd rfl hr
  | _ => exact .inl rfl

theorem Effect.writers_of_fetched (h : Effect s e t) (hr : e ≠ .rst) :
    t.fetched = s.fetched ∨
      (t.fetched = true ∧ s.seq = .dataRd 5 ∧ t.seq = .idle ∧ t.err = .ok) ∨
      (t.fetched = false ∧ s.seq = .pollRd ∧ t.seq = .idle ∧ t.err = .fetchTimeout) := by
  cases h with
  | committed hs _ => exact .inr (.inl ⟨rfl, hs, rfl, rfl⟩)
  | timedOut hs _ _ _ => exact .inr (.inr ⟨rfl, hs, rfl, rfl⟩)
  | reset => exact absurd rfl hr
  | _ => exact .inl rfl

theorem Effect.writers_of_configured (h : Effect s e t) (hr : e ≠ .rst) :
    t.configured = s.configured ∨ (s.seq = .cfgWr ∧ ∃ a, e = .answer a ∧ t.configured = !a.fail) := by
  cases h with
  | configured hs ha | configureFailed hs ha => exact .inr ⟨hs, _, rfl, by simp [ha]⟩
  | reset => exact absurd rfl hr
  | _ => exact .inl rfl

theorem Effect.writers_of_controlRegisters (h : Effect s e t) (hr : e ≠ .rst) :
    (t.options = s.options ∧ t.cal = s.cal ∧ t.timeout = s.timeout) ∨
      (s.busy = false ∧ (∃ i d, hostWriteOf e = some (i, d) ∧ i ≠ 0) ∧
        t.seq = s.seq ∧ t.busy = s.busy ∧ t.err = s.err ∧ t.raw = s.raw ∧ t.proc = s.proc) := by
  cases h with
  | registerWrite he hi hb => exact .inr ⟨hb, ⟨_, _, he, hi⟩, rfl, rfl, rfl, rfl, rfl⟩
  | reset => exact absurd rfl hr
  | _ => exact .inl ⟨rfl, rfl, rfl⟩

/-- An answer that ends a command found it running; a word that is refused or processed found the block idle. -/
theorem Effect.writers_of_err (h : Effect s e t) (hr : e ≠ .rst) :
    t.err = s.err ∨
      (s.seq ≠ .idle ∧ t.seq = .idle ∧ t.busy = false ∧ ∃ a, e = .answer a) ∨
      (s.busy = false ∧ t.seq = s.seq ∧ ∃ code, code ≠ 0x1 ∧ writesCommand e code) := by
  cases h with
  | configured hs _ | configureFailed hs _ | pollFailed hs _ | timedOut hs _ _ _ | dataFailed hs _ | committed hs _ =>
    exact .inr (.inl ⟨by simp [hs], rfl, rfl, _, rfl⟩)
  | fetchRefused he hc hb _ | processed he hc hb =>
    exact .inr (.inr ⟨hb, rfl, _, by decide, _, he, hc⟩)
  | badCommand he h1 _ _ hb => exact .inr (.inr ⟨hb, rfl, _, h1, _, he, rfl⟩)
  | reset => exact absurd rfl hr
  | _ => exact .inl rfl

theorem Effect.writers_of_now (h : Effect s e t) (hr : e ≠ .rst) :
    t.now = s.now ∨ (t.now = s.now + 1 ∧ e = .tick) := by
  cases h with
  | ticked => exact .inr ⟨rfl, rfl⟩
  | reset => exact absurd rfl hr
  | _ => exact .inl rfl

theorem Effect.writers_of_t0 (h : Effect s e t) (hr : e ≠ .rst) :
    t.t0 = s.t0 ∨ (t.t0 = s.now ∧ t.seq = .pollRd ∧ t.busy = true ∧ writesCommand e 0x2) := by
  cases h with
  | fetchAccepted he hc _ _ => exact .inr ⟨rfl, rfl, rfl, _, he, hc⟩
  | reset => exact absurd rfl hr
  | _ => exact .inl rfl

theorem Effect.writers_of_w0 (h : Effect s e t) (hr : e ≠ .rst) :
    t.w0 = s.w0 ∨ (t.w0 = s.now ∧ s.seq = .pollRd ∧ t.seq = .pollWait) := by
  cases h with
  | pollAgain hs _ _ _ => exact .inr ⟨rfl, hs, rfl⟩
  | reset => exact absurd rfl hr
  | _ => exact .inl rfl

end

/-- Settles O52: of the kinds of step only the commit writes the raw sample and `FETCH_TS`. -/
theorem rawSampleChangesOnlyAtCommit : Obligations.RawSampleChangesOnlyAtCommit := by
  intro s t hst hr
  obtain ⟨rest, n, _, h⟩ := step_effect hst
  exact h.writers_of_raw hr

/-- Settles O53: of the kinds of step only a `PROCESS` written while idle writes the processed sample; its draw index is
the counter after the event is taken. -/
theorem processedSampleChangesOnlyByProcess : Obligations.ProcessedSampleChangesOnlyByProcess := by
  intro s t hst hr
  obtain ⟨rest, n, hn, h⟩ := step_effect hst
  rw [hn]
  exact h.writers_of_proc hr

/-- Settles O54: `FETCHED` is written by the commit and by a time-out, `CONFIGURED` by the answer to the configuration
write. -/
theorem flagsHaveTheirWriters : Obligations.FlagsHaveTheirWriters := by
  intro s t hst hr
  obtain ⟨rest, n, _, h⟩ := step_effect hst
  exact ⟨h.writers_of_fetched hr, h.writers_of_configured hr⟩

/-- Settles O55: of the kinds of step only a register write touches the control registers, and it touches nothing
else of the block. -/
theorem controlRegistersChangeOnlyByHostWrites : Obligations.ControlRegistersChangeOnlyByHostWrites := by
  intro s t hst hr
  obtain ⟨rest, n, _, h⟩ := step_effect hst
  exact h.writers_of_controlRegisters hr

/-- Settles O56: `ERR` is written where a running command ends, and by a command word handled while idle. -/
theorem errChangesOnlyAtAnOutcome : Obligations.ErrChangesOnlyAtAnOutcome := by
  intro s t hst hr
  obtain ⟨rest, n, _, h⟩ := step_effect hst
  exact h.writers_of_err hr

/-- Settles O57: each of the three time elements has one kind of step that writes it. -/
theorem timeElementsHaveTheirWriters : Obligations.TimeElementsHaveTheirWriters := by
  intro s t hst hr
  obtain ⟨rest, n, _, h⟩ := step_effect hst
  exact ⟨h.writers_of_now hr, h.writers_of_t0 hr, h.writers_of_w0 hr⟩

/-! ## The lifecycle -/

theorem State.lifecycle_congr {s t : State} (hc : t.configured = s.configured) (hf : t.fetched = s.fetched) :
    t.lifecycle = s.lifecycle := by
  simp only [State.lifecycle, hc, hf]

theorem State.lifecycle_uninitialized {s : State} (hc : s.configured = false) : s.lifecycle = .uninitialized := by
  simp [State.lifecycle, hc]

theorem State.lifecycle_configured {s : State} (hc : s.configured = true) (hf : s.fetched = false) :
    s.lifecycle = .configured := by
  simp [State.lifecycle, hc, hf]

theorem State.lifecycle_dataReady {s : State} (hc : s.configured = true) (hf : s.fetched = true) :
    s.lifecycle = .dataReady := by
  simp [State.lifecycle, hc, hf]

/-- The lifecycle reads the two flags, so only a writer of a flag changes it, and only where the flag had the other
value; a fetch runs configured, which tells the two ends of a `FETCH` apart from `Uninitialized`. -/
theorem Effect.writers_of_lifecycle {s t : State} {e : EnvEvent} (h : Effect s e t) (hc : s.Consistent)
    (hr : e ≠ .rst) (hne : t.lifecycle ≠ s.lifecycle) :
    (s.seq = .cfgWr ∧ t.err = .ok ∧ s.lifecycle = .uninitialized) ∨
      (s.seq = .cfgWr ∧ t.err = .busError ∧ t.lifecycle = .uninitialized) ∨
      (s.seq = .dataRd 5 ∧ t.err = .ok ∧ s.lifecycle = .configured ∧ t.lifecycle = .dataReady) ∨
      (s.seq = .pollRd ∧ t.err = .fetchTimeout ∧ s.lifecycle = .dataReady ∧ t.lifecycle = .configured) := by
  cases h with
  | configured hs _ =>
    have hcf : s.configured = false :=
      Bool.eq_false_iff.2 fun hcf => hne (State.lifecycle_congr hcf.symm rfl)
    exact .inl ⟨hs, rfl, State.lifecycle_uninitialized hcf⟩
  | configureFailed hs _ => exact .inr (.inl ⟨hs, rfl, State.lifecycle_uninitialized rfl⟩)
  | committed hs _ =>
    have hcf : s.configured = true := hc.configured_of_seq hs nofun nofun
    have hf : s.fetched = false := Bool.eq_false_iff.2 fun hf => hne (State.lifecycle_congr rfl hf.symm)
    exact .inr (.inr (.inl ⟨hs, rfl, State.lifecycle_configured hcf hf, State.lifecycle_dataReady hcf rfl⟩))
  | timedOut hs _ _ _ =>
    have hcf : s.configured = true := hc.configured_of_seq hs nofun nofun
    have hf : s.fetched = true := Bool.of_not_eq_false fun hf => hne (State.lifecycle_congr rfl hf.symm)
    exact .inr (.inr (.inr ⟨hs, rfl, State.lifecycle_dataReady hcf hf, State.lifecycle_configured hcf rfl⟩))
  | reset => exact absurd rfl hr
  | _ => exact absurd rfl hne

/-- Settles O58: the event is taken, and only a writer of `FETCHED` or `CONFIGURED` changes the lifecycle state. -/
theorem lifecycleFollowsCommands : Obligations.LifecycleFollowsCommands := by
  intro s t hc hst hr hne
  obtain ⟨rest, n, _, h⟩ := step_effect hst
  exact h.writers_of_lifecycle (hc.taken rest n) hr hne

/-! ## The state after reset -/

/-- Six equal staging registers, whichever is read. -/
theorem Staging.get_const (v : Word16) (i : Fin 6) : Staging.get ⟨v, v, v, v, v, v⟩ i = v := by
  match i with
  | 0 | 1 | 2 | 3 | 4 | 5 => rfl

/-- Settles O8: the registers that come in threes and sixes have one reset value for all of their kind, and the others
are written out in `State.reset`. -/
theorem resetValues : Obligations.ResetValues :=
  ⟨fun c => ⟨PerChannel.get_replicate _ c, PerChannel.get_replicate _ c⟩, PerChannel.get_replicate _, rfl, by decide,
    rfl, rfl, PerChannel.get_replicate _, rfl, rfl, rfl, rfl, rfl, rfl, rfl, rfl, Staging.get_const _,
    rfl, rfl, rfl⟩

/-- Settles O47: the block after reset is idle with nothing in flight, and its bus history is empty. -/
theorem resetIsConsistentAndOrdered : Obligations.ResetIsConsistentAndOrdered :=
  ⟨.of_idle rfl rfl rfl, rfl, trivial⟩

end Sys2Proof.Machine
end

section
/-! The bus history: what the block hands over, what a step adds to the trace, and the order in which the data registers
are read (20_memory.md). -/

namespace Sys2Proof.Machine

open Sys2Proof

/-! ## Handing over -/

theorem runIssue_of_transaction {s : State} {r : BusEvent} (h : s.transaction = some r) :
    runIssue s = { s with inFlight := true, history := s.issuedHistory r } := by
  simp only [runIssue, h]
  exact s.issue_eq r

theorem runIssue_noTransaction {s : State} (h : s.transaction = none) : runIssue s = s := by
  simp only [runIssue, h]

theorem step_issue {s : State} {rest : List EnvEvent} (h : s.inbox = .issue :: rest) :
    step s = .next (runIssue { s with inbox := rest }) :=
  step_cons s .issue rest h

/-- The address as R179 writes it, 0x01 + i, and as the statements do. -/
theorem dataAddr_eq (i : Fin 6) : dataAddr i = BitVec.ofNat 8 (i.val + 1) := by
  rw [dataAddr, Nat.add_comm]

/-- Settles O44: the handing over adds the transaction that the phase names, unless it is in flight. -/
theorem transactionIssuedOnce : Obligations.TransactionIssuedOnce := by
  intro s rest hin
  have issues {r : BusEvent} (hr : s.transaction = some r) :
      step s = .next { s with inbox := rest, inFlight := true, history := s.issuedHistory r } :=
    (step_issue hin).trans (congrArg _ (runIssue_of_transaction (s := { s with inbox := rest }) hr))
  have nothing (hr : s.transaction = none) : step s = .next { s with inbox := rest } :=
    (step_issue hin).trans (congrArg _ (runIssue_noTransaction (s := { s with inbox := rest }) hr))
  dsimp only
  split
  next hs => exact issues (s.transaction_cfgWr hs)
  next hs => exact issues (s.transaction_pollRd hs)
  next i hs => exact dataAddr_eq i ▸ issues (s.transaction_dataRd i hs)
  next hs => exact nothing (s.transaction_idle hs)
  next hs => exact nothing (s.transaction_pollWait hs)

/-! ## The trace of a step -/

theorem busTrace_issuedHistory (s : State) (r : BusEvent) :
    busTrace (s.issuedHistory r) = if s.inFlight then busTrace s.history else r :: busTrace s.history := by
  rw [State.issuedHistory]
  split <;> rfl

theorem isKnownTransaction_read_dataAddr (i : Fin 6) : (BusEvent.read (dataAddr i)).isKnownTransaction = true := by
  revert i; decide

/-- The phase names one of the eight transactions of R61. -/
theorem State.isKnownTransaction_of_transaction {s : State} {r : BusEvent} (h : s.transaction = some r) :
    r.isKnownTransaction = true := by
  cases hs : s.seq with
  | idle => cases (s.transaction_idle hs).symm.trans h
  | cfgWr => cases (s.transaction_cfgWr hs).symm.trans h; rfl
  | pollRd => cases (s.transaction_pollRd hs).symm.trans h; rfl
  | pollWait => cases (s.transaction_pollWait hs).symm.trans h
  | dataRd i => cases (s.transaction_dataRd i hs).symm.trans h; exact isKnownTransaction_read_dataAddr i

/-- The bus events of a step: none, the transaction handed over, or its answer, before which it is handed over unless
it already was. -/
theorem Effect.busTrace_cases {s t : State} {e : EnvEvent} (h : Effect s e t) :
    busTrace t.history = busTrace s.history ∨
      ∃ r, s.transaction = some r ∧
        ((s.inFlight = false ∧ busTrace t.history = r :: busTrace s.history) ∨
          ∃ a, a.isAnswer = true ∧ busTrace t.history = a :: busTrace (s.issuedHistory r)) := by
  cases h with
  | recordOnly _ hb => exact .inl hb
  | issued ht hf => exact .inr ⟨_, ht, .inl ⟨hf, rfl⟩⟩
  | configured hs _ | configureFailed hs _ =>
    exact .inr ⟨_, s.transaction_cfgWr hs, .inr ⟨_, rfl, rfl⟩⟩
  | pollFailed hs _ | flagSeen hs _ _ | timedOut hs _ _ _ | pollAgain hs _ _ _ =>
    exact .inr ⟨_, s.transaction_pollRd hs, .inr ⟨_, rfl, rfl⟩⟩
  | dataFailed hs _ | staged hs _ _ | committed hs _ =>
    exact .inr ⟨_, s.transaction_dataRd _ hs, .inr ⟨_, rfl, rfl⟩⟩
  | _ => exact .inl rfl

/-- Settles O50: the event is taken, which leaves the phase and the history as they are, and the kind of step says what
it adds to the trace. -/
theorem busTrafficIsThePhaseTransaction : Obligations.BusTrafficIsThePhaseTransaction := by
  intro s t hst
  obtain ⟨rest, n, _, h⟩ := step_effect hst
  obtain hnone | ⟨r, hr, htrace⟩ := h.busTrace_cases
  · exact .inl hnone
  · rw [busTrace_issuedHistory] at htrace
    exact .inr ⟨r, hr, State.isKnownTransaction_of_transaction hr, htrace⟩

/-! ## Ordered histories -/

/-- With a transaction in flight, the phase knows that its read is the latest bus event. -/
theorem State.phaseFits_iff_of_inFlight {s : State} (hi : s.inFlight = true) :
    s.phaseFits ↔ ∀ a, s.transaction = some (.read a) → (busTrace s.history).head? = some (.read a) := by
  cases hs : s.seq <;> simp [State.phaseFits, State.transaction, hs, hi]

/-- With none in flight, the phase knows that its data read is allowed. -/
theorem State.phaseFits_iff_of_not_inFlight {s : State} (hi : s.inFlight = false) :
    s.phaseFits ↔ ∀ i, s.seq = .dataRd i → dataReadAllowed (dataAddr i) (busTrace s.history) = true := by
  cases hs : s.seq <;> simp [State.phaseFits, hs, hi]

/-- The order reads the phase, whether a transaction is in flight, and the bus events. -/
theorem State.Ordered.of_frame {s t : State} (h : s.Ordered) (hs : t.seq = s.seq) (hi : t.inFlight = s.inFlight)
    (hb : busTrace t.history = busTrace s.history) : t.Ordered := by
  unfold State.Ordered State.phaseFits at *
  rw [hs, hi, hb]
  exact h

/-- A poll that is due, whatever the phase before it. -/
theorem State.Ordered.of_pollDue {s t : State} (h : s.Ordered) (hs : t.seq = .pollRd) (hi : t.inFlight = false)
    (hb : busTrace t.history = busTrace s.history) : t.Ordered :=
  ⟨hb ▸ h.1, (State.phaseFits_iff_of_not_inFlight hi).2 fun _ hd => by cases hs.symm.trans hd⟩

/-- A transaction of the phase keeps the trace ordered when it is handed over: a data read was allowed. -/
theorem State.Ordered.flagBeforeData_issued {s : State} (h : s.Ordered) {r : BusEvent} (hr : s.transaction = some r) :
    flagBeforeData (busTrace (s.issuedHistory r)) = true := by
  obtain ⟨hflag, hfits⟩ := h
  rw [busTrace_issuedHistory]
  split
  next => exact hflag
  next hi =>
    have hallowed := (State.phaseFits_iff_of_not_inFlight (Bool.eq_false_iff.2 hi)).1 hfits
    cases hs : s.seq with
    | idle => cases (s.transaction_idle hs).symm.trans hr
    | cfgWr => cases (s.transaction_cfgWr hs).symm.trans hr; exact hflag
    | pollRd => cases (s.transaction_pollRd hs).symm.trans hr; exact hflag
    | pollWait => cases (s.transaction_pollWait hs).symm.trans hr
    | dataRd i =>
      cases (s.transaction_dataRd i hs).symm.trans hr
      simp [flagBeforeData, hflag, hallowed i hs]

/-- A read of the phase is the latest bus event once it is handed over. -/
theorem State.Ordered.exists_issued_read {s : State} (h : s.Ordered) {a : RegAddr}
    (ha : s.transaction = some (.read a)) : ∃ before, busTrace (s.issuedHistory (.read a)) = .read a :: before := by
  rw [busTrace_issuedHistory]
  split
  next hi => exact List.head?_eq_some_iff.1 ((State.phaseFits_iff_of_inFlight hi).1 h.2 a ha)
  next => exact ⟨_, rfl⟩

/-- A poll that returned the flag allows the read of the first data register. -/
theorem dataReadAllowed_of_flag {w : Word16} (hw : w.getLsbD 8 = true) (before : List BusEvent) :
    dataReadAllowed (dataAddr 0) (.data w :: .read Config.devMaskEn :: before) = true := by
  simp [dataReadAllowed, dataAddr, readyFlag_swap16, hw]

/-- The read of a data register allows the read of the one after it. -/
theorem dataReadAllowed_of_previous {i : Fin 6} (hi : i.val < 5) (w : Word16) (before : List BusEvent) :
    dataReadAllowed (dataAddr (i + 1)) (.data w :: .read (dataAddr i) :: before) = true := by
  have hnext : dataAddr (i + 1) ≠ 0x01 ∧ dataAddr i + 1 = dataAddr (i + 1) := by
    revert i; decide
  rw [dataReadAllowed, if_neg hnext.1]
  exact decide_eq_true hnext.2

/-- Every kind of step keeps the bus history ordered. A transaction handed over is the phase's, so it was allowed; the
answer to it is no read, and where it leads to a data read it is the answer that allows one. -/
theorem Effect.keeps_ordered {s t : State} {e : EnvEvent} (h : Effect s e t) (hc : s.Consistent) (ho : s.Ordered) :
    t.Ordered := by
  cases h with
  | recordOnly _ hb => exact ho.of_frame rfl rfl hb
  | notIssued | notAnswered | notWoken | fetchRefused | processed | badCommand | registerWrite | ticked | wallclock =>
    exact ho.of_frame rfl rfl rfl
  | configureAccepted | reset => exact ⟨ho.1, trivial⟩
  | fetchAccepted _ _ hb _ =>
    exact ho.of_pollDue rfl (hc.not_inFlight (s.transaction_idle (hc.idle_of_not_busy hb))) rfl
  | woken hs _ => exact ho.of_pollDue rfl (hc.not_inFlight (s.transaction_pollWait hs)) rfl
  | issued ht hf =>
    have hflag := ho.flagBeforeData_issued ht
    rw [State.issuedHistory, hf] at hflag
    exact ⟨hflag, (State.phaseFits_iff_of_inFlight rfl).2 fun _ ha => ht.symm.trans ha⟩
  | configured hs _ | configureFailed hs _ =>
    exact ⟨ho.flagBeforeData_issued (s.transaction_cfgWr hs), trivial⟩
  | pollFailed hs _ | timedOut hs _ _ _ | pollAgain hs _ _ _ =>
    exact ⟨ho.flagBeforeData_issued (s.transaction_pollRd hs), trivial⟩
  | dataFailed hs _ | committed hs _ =>
    exact ⟨ho.flagBeforeData_issued (s.transaction_dataRd _ hs), trivial⟩
  | @flagSeen a hs _ hr =>
    have ht := s.transaction_pollRd hs
    obtain ⟨before, hread⟩ := ho.exists_issued_read ht
    refine ⟨ho.flagBeforeData_issued ht, ?_⟩
    show dataReadAllowed (dataAddr 0) (.data a.rdata :: busTrace (s.issuedHistory (.read Config.devMaskEn))) = true
    rw [hread]
    exact dataReadAllowed_of_flag hr before
  | @staged a i hs hi _ =>
    have ht := s.transaction_dataRd i hs
    obtain ⟨before, hread⟩ := ho.exists_issued_read ht
    refine ⟨ho.flagBeforeData_issued ht, ?_⟩
    show dataReadAllowed (dataAddr (i + 1)) (.data a.rdata :: busTrace (s.issuedHistory (.read (dataAddr i)))) = true
    rw [hread]
    exact dataReadAllowed_of_previous hi a.rdata before

/-- Settles O49: the event is taken, and every kind of step keeps a consistent state's bus history ordered. -/
theorem stepKeepsFlagBeforeData : Obligations.StepKeepsFlagBeforeData := by
  intro s t hc ho hst
  obtain ⟨rest, n, _, h⟩ := step_effect hst
  exact h.keeps_ordered (hc.taken rest n) (ho.of_frame rfl rfl rfl)

end Sys2Proof.Machine
end

section
/-! The decoder and the encoder are inverse on the numbers of the operations, and the statements about single words:
the command register, the poll's word, `STATUS` (30_encoding.md). -/

namespace Sys2Proof

/-! ## Decoding and encoding -/

/-- Settles O2: the encoder's words are in the decoder's tables. -/
theorem decodeOfEncodeIsIdentity : Obligations.DecodeOfEncodeIsIdentity :=
  decode_encode

/-- A command word that decodes is put together again from its code and its ignored bits. -/
theorem encode_of_decodeCommand {w : Word64} {i : Instr} (h : decodeCommand w = .ok i) : encode i = .cmd w := by
  have hw := commandWord_parts w
  obtain ⟨hc, hd⟩ | ⟨hc, hd⟩ | ⟨hc, hd⟩ | ⟨_, _, _, hd⟩ := decodeCommand_cases w <;> cases hd.symm.trans h
  all_goals
    rw [hc] at hw
    exact congrArg PortWord.cmd hw

/-- A host descriptor is its direction and its index. -/
theorem direction_append_accessIndex (w : BitVec 7) : BitVec.ofBool (accessIsWrite w) ++ accessIndex w = w := by
  revert w; decide

theorem encode_of_decodeAccess {w : BitVec 7} {data : Word64} {i : Instr} (h : decodeAccess w data = .ok i) :
    encode i = .host w (if accessIsWrite w then data else 0) := by
  have hw := direction_append_accessIndex w
  obtain ⟨hd, he⟩ | ⟨hd, he⟩ := decodeAccess_cases w data <;> cases he.symm.trans h
  all_goals
    rw [hd] at hw ⊢
    exact congrArg (PortWord.host · _) hw

/-- The descriptors of the bus transactions that the block issues (30_encoding.md R116). -/
def issuedDescriptors : List (BitVec 9) :=
  [0x000#9, 0x101#9, 0x102#9, 0x103#9, 0x104#9, 0x105#9, 0x106#9, 0x10F#9]

/-- Every outcome of decoding a bus descriptor. -/
theorem decodeBus_cases (w : BitVec 9) :
    (w ∈ issuedDescriptors ∧ ∃ i, decodeBus w = .ok i ∧ encode i = .bus w) ∨
      (w ∉ issuedDescriptors ∧ decodeBus w = .error (.unusedDescriptor w)) := by
  unfold decodeBus
  iterate 8
    split
    · subst w; exact .inl ⟨by decide, _, rfl, rfl⟩
  exact .inr ⟨by simp [issuedDescriptors, *], rfl⟩

theorem encode_of_decodeBus {w : BitVec 9} {i : Instr} (h : decodeBus w = .ok i) : encode i = .bus w := by
  obtain ⟨_, j, hj, he⟩ | ⟨_, he⟩ := decodeBus_cases w
  · cases hj.symm.trans h; exact he
  · cases he.symm.trans h

/-- Settles O3, port by port. -/
theorem encodeOfDecodeIsIdentity : Obligations.EncodeOfDecodeIsIdentity := by
  intro p i h
  cases p with
  | cmd w => exact encode_of_decodeCommand h
  | host w data => exact encode_of_decodeAccess h
  | bus w => exact encode_of_decodeBus h

/-! ## Rejected numbers -/

theorem decodeCommand_error_iff (w : Word64) :
    (∃ e, decodeCommand w = .error e) ↔ commandCode w ∉ [0x1#4, 0x2#4, 0x3#4] := by
  obtain ⟨hc, hd⟩ | ⟨hc, hd⟩ | ⟨hc, hd⟩ | ⟨h1, h2, h3, hd⟩ := decodeCommand_cases w
  · simp [hd, hc]
  · simp [hd, hc]
  · simp [hd, hc]
  · simp [hd, h1, h2, h3]

theorem exists_decodeAccess (w : BitVec 7) (data : Word64) : ∃ i, decodeAccess w data = .ok i := by
  obtain ⟨_, h⟩ | ⟨_, h⟩ := decodeAccess_cases w data
  · exact ⟨_, h⟩
  · exact ⟨_, h⟩

theorem decodeBus_error_iff (w : BitVec 9) : (∃ e, decodeBus w = .error e) ↔ w ∉ issuedDescriptors := by
  obtain ⟨hm, i, hd, _⟩ | ⟨hm, hd⟩ := decodeBus_cases w
  · simp [hd, hm]
  · simp [hd, hm]

/-- Settles O4, format by format. -/
theorem reservedNumbersAreRejected : Obligations.ReservedNumbersAreRejected :=
  ⟨decodeCommand_error_iff, exists_decodeAccess, decodeBus_error_iff⟩

/-- Settles O1: each of the words is evaluated. -/
theorem tableWordsDecode : Obligations.TableWordsDecode := by
  unfold Obligations.TableWordsDecode
  decide

end Sys2Proof

namespace Sys2Proof.Machine

open Sys2Proof

/-! ## The command register -/

/-- A word at the command register is a host write of it to index 0x00. -/
theorem runCommand_eq_exec_hwr (w : Word64) (s : State) : runCommand w s = exec (.hwr 0#6 w) s := by
  have hcmd : hostReg 0#6 = .cmd := (hostReg_eq_cmd_iff 0#6).2 rfl
  rw [runCommand_eq, execHwr_eq, hostWrite_eq, if_pos hcmd]

/-- Settles O34: 0x40 is the descriptor of a write to index 0x00. -/
theorem commandIsHostWriteToIndexZero : Obligations.CommandIsHostWriteToIndexZero := by
  intro s d rest
  calc step { s with inbox := .command d :: rest }
      = runCommand d { s with inbox := rest } := step_inbox_cons (.command d) { s with inbox := rest }
    _ = exec (.hwr 0#6 d) { s with inbox := rest } := runCommand_eq_exec_hwr d _
    _ = runAccess 0x40 d { s with inbox := rest } := (runAccess_write 0x40 d _ rfl).symm
    _ = step { s with inbox := .access 0x40 d :: rest } :=
      (step_inbox_cons (.access 0x40 d) { s with inbox := rest }).symm

/-! ## The word of a poll -/

/-- Of the corrected word a poll reads the flag alone. -/
theorem pollAnswer_congr {m m' : Word16} (h : readyFlag m = readyFlag m') (s : State) :
    pollAnswer m s = pollAnswer m' s := by
  unfold pollAnswer; rw [h]

/-- What the port and the history hold has no influence on the answer to a poll, which passes it on. -/
theorem pollAnswer_frame (m : Word16) (s : State) (a : BusAnswer) (h : List HistEvent) :
    pollAnswer m { s with busIn := a, history := h } = { pollAnswer m s with busIn := a, history := h } := by
  have hw : watchdogExpired { s with busIn := a, history := h } = watchdogExpired s := rfl
  unfold pollAnswer
  rw [hw]
  cases readyFlag m with
  | true => rfl
  | false =>
    cases watchdogExpired s with
    | true => rfl
    | false => rfl

/-- A poll answered with the wire word `w`. -/
theorem exec_rdregMasken_word {s : State} (hs : s.seq = .pollRd) (w : Word16) :
    exec .rdregMasken { s with busIn := ⟨false, w⟩ } =
      .next { pollAnswer (swap16 w) { s with inFlight := false } with
        busIn := ⟨false, w⟩
        history := .bus (.data w) :: s.issuedHistory (.read Config.devMaskEn) } := by
  rw [← pollAnswer_frame]
  simp only [exec, execRdregMasken, hs, if_true, rdreg_word]
  rfl

/-- Settles O39: the wire words' bit 8 is the flag, so both answers do the same but for the port and the history. -/
theorem pollReadsOneBit : Obligations.PollReadsOneBit := by
  intro s w1 w2 hs hbit
  have hflag : readyFlag (swap16 w2) = readyFlag (swap16 w1) := by
    rw [readyFlag_swap16, readyFlag_swap16, hbit]
  refine ⟨_, _, exec_rdregMasken_word hs w1, exec_rdregMasken_word hs w2, ?_⟩
  rw [pollAnswer_congr hflag]

/-! ## `STATUS` -/

/-- The seven bits of `STATUS`, a finite table of the flags and the outcome's code. -/
theorem statusWord_fields (s : State) :
    (statusWord s).getLsbD 0 = s.busy ∧ (statusWord s).getLsbD 1 = s.configured ∧
      (statusWord s).getLsbD 2 = s.fetched ∧ (statusWord s).getLsbD 3 = false ∧
      (statusWord s).extractLsb' 4 3 = s.err.code := by
  unfold statusWord
  generalize s.busy = busy
  generalize s.configured = configured
  generalize s.fetched = fetched
  generalize s.err.code = code
  revert busy configured fetched code
  decide

/-- The word is packed from seven bits. -/
theorem getLsbD_statusWord_of_ge (s : State) {i : Nat} (hi : 7 ≤ i) : (statusWord s).getLsbD i = false := by
  rw [statusWord, BitVec.getLsbD_setWidth, BitVec.getLsbD_of_ge _ _ hi, Bool.and_false]

/-- Index 0x01 is read-only: a write to it leaves its record and nothing else, busy or not. -/
theorem hostWrites_status (s : State) (d : Word64) : HostWrites s 0x01 d s := by
  have hreg : hostReg 0x01 = .status := by decide
  have hstatus (t : State) : hostWrite 0x01 d t = t := by rw [hostWrite_eq, hreg]; rfl
  rw [HostWrites, execHwr_eq, hstatus, ite_self]
  rfl

/-- Settles O36: the word's seven bits, the zeros above them, and a write that stores nothing. -/
theorem statusWordBits : Obligations.StatusWordBits := by
  refine ⟨fun s => ?_, by decide⟩
  obtain ⟨hbusy, hconfigured, hfetched, hzero, herr⟩ := statusWord_fields s
  exact ⟨rfl, hostWrites_status s, hbusy, hconfigured, hfetched, hzero, herr.trans (by cases s.err <;> rfl),
    fun _ => getLsbD_statusWord_of_ge s⟩

end Sys2Proof.Machine
end

section
/-! The transport: the byte swap, and a register written and read back (40_transport.md). -/

namespace Sys2Proof.Machine

open Sys2Proof

/-! ## The byte swap -/

/-- The mask of the low byte. -/
theorem getLsbD_lowByteMask (i : Nat) : (0x00FF : Word16).getLsbD i = decide (i < 8) := by
  have hmask : (0x00FF : Word16) = (BitVec.allOnes 8).setWidth 16 := by decide
  rw [hmask, BitVec.getLsbD_setWidth, BitVec.getLsbD_allOnes, ← Bool.decide_and]
  exact decide_eq_decide.2 (by omega)

/-- The second form of the swap in 40_transport.md R130: below bit 8 only the shift to the right is left, above it only
the shift to the left. -/
theorem swap16_eq_append (v : Word16) : swap16 v = v.extractLsb' 0 8 ++ v.extractLsb' 8 8 := by
  refine BitVec.eq_of_getLsbD_eq fun i hi => ?_
  rw [swap16, BitVec.getLsbD_or, BitVec.getLsbD_shiftLeft, BitVec.getLsbD_and, BitVec.getLsbD_and,
    getLsbD_lowByteMask, getLsbD_lowByteMask, BitVec.getLsbD_append]
  split
  next hlow => simp [hlow]
  next hhigh => simp [hhigh, hi, Bool.and_comm]

/-- The low byte of the swap is the high byte of the word. -/
@[simp] theorem extractLsb'_zero_swap16 (v : Word16) : (swap16 v).extractLsb' 0 8 = v.extractLsb' 8 8 := by
  rw [swap16_eq_append, BitVec.extractLsb'_append_eq_right]

/-- The high byte of the swap is the low byte of the word. -/
@[simp] theorem extractLsb'_eight_swap16 (v : Word16) : (swap16 v).extractLsb' 8 8 = v.extractLsb' 0 8 := by
  rw [swap16_eq_append, BitVec.extractLsb'_append_eq_left]

@[simp] theorem swap16_swap16 (v : Word16) : swap16 (swap16 v) = v := by
  rw [swap16_eq_append (swap16 v), extractLsb'_zero_swap16, extractLsb'_eight_swap16]
  exact BitVec.extractLsb'_append_extractLsb' (w := 8) (len := 8)

theorem eq_of_swap16_eq {v w : Word16} (hvw : swap16 v = swap16 w) : v = w := by
  rw [← swap16_swap16 v, hvw, swap16_swap16]

/-- Settles O10: the swap is its own inverse, hence a bijection. -/
theorem swapExchangesBytes : Obligations.SwapExchangesBytes :=
  ⟨swap16_eq_append, swap16_swap16, fun _ _ => eq_of_swap16_eq, fun w => ⟨swap16 w, swap16_swap16 w⟩⟩

/-! ## Writing and reading back -/

/-- The wire word of `v` travels with the high byte of `v` first (20_memory.md R66). -/
theorem wireBytes_swap16 (v : Word16) : wireBytes (swap16 v) = [v.extractLsb' 8 8, v.extractLsb' 0 8] := by
  rw [wireBytes, extractLsb'_zero_swap16, extractLsb'_eight_swap16]

/-- A read answered with the wire word of `v` returns `v`. -/
theorem rdreg_swap16 (a : RegAddr) (v : Word16) (s : State) :
    (rdreg a { s with busIn := ⟨false, swap16 v⟩ }).1 = some v := by
  rw [rdreg_word a _ rfl]
  exact congrArg some (swap16_swap16 v)

/-- Settles O11: the wire word is the swap of `v`, and the read swaps it back. -/
theorem loopbackRoundTrip : Obligations.LoopbackRoundTrip := by
  intro a v s hidle hdone
  refine ⟨swap16 v, ?_, ?_, wireBytes_swap16 v, rdreg_swap16 a v _⟩
  · simp [wrreg_eq, hdone]
  · simp [wrreg_eq, hidle, hdone]

end Sys2Proof.Machine
end

section
/-! The configuration packer: the layout of the configuration word, and the command `CONFIGURE` with its one bus write
(41_config_packer.md). -/

namespace Sys2Proof.Machine

open Sys2Proof

/-! ## The configuration word -/

/-- Shifted into place, the fields are one concatenation: each shift of `PACK` is the width of the fields below it. -/
theorem pack_eq_append (o : Options) :
    pack o = o.rst ++ o.en1 ++ o.en2 ++ o.en3 ++ o.avg ++ o.vbusct ++ o.vshct ++ o.mode := by
  have hshifts : pack o =
      (o.rst ++ o.en1 ++ o.en2 ++ o.en3 ++ o.avg ++ o.vbusct ++ o.vshct ++ o.mode).setWidth 16 := by
    simp only [pack, BitVec.setWidth_append_eq_shiftLeft_setWidth_or, BitVec.shiftLeft_or_distrib,
      ← BitVec.shiftLeft_add]
  exact hshifts.trans (BitVec.setWidth_eq _)

/-- Settles O12: the shifts of `PACK` are the widths of the fields below. -/
theorem packLaysOutFields : Obligations.PackLaysOutFields := pack_eq_append

/-- The slices of a concatenation are its parts. -/
@[simp] theorem fieldsOf_pack (o : Options) : fieldsOf (pack o) = o := by
  rw [pack_eq_append, fieldsOf]
  simp (disch := decide) only [BitVec.extractLsb'_append_eq_of_le, BitVec.extractLsb'_append_eq_of_add_le,
    Nat.reduceSub, BitVec.extractLsb'_eq_self]

/-- The slices adjoin, so together they are the word. -/
@[simp] theorem pack_fieldsOf (w : Word16) : pack (fieldsOf w) = w := by
  rw [pack_eq_append]
  simp only [fieldsOf, BitVec.extractLsb'_append_extractLsb'_eq_extractLsb', BitVec.extractLsb'_eq_self]

/-- A field of `n` bits at bit `k` has no bit outside its mask. -/
theorem setWidth_shiftLeft_and_not_mask {n : Nat} (x : BitVec n) (k : Nat) {mask : Word16}
    (hmask : (BitVec.allOnes n).setWidth 16 <<< k = mask) : x.setWidth 16 <<< k &&& ~~~mask = 0#16 := by
  have hfield : x.setWidth 16 = x.setWidth 16 &&& (BitVec.allOnes n).setWidth 16 := by
    rw [← BitVec.setWidth_and, BitVec.and_allOnes]
  rw [hfield, BitVec.shiftLeft_and_distrib, hmask, BitVec.and_assoc, BitVec.and_not_self]
  exact BitVec.and_zero

/-- Settles O13: the fields are the slices of the word, and the field that changes is cleared by its mask. -/
theorem packIsBijective : Obligations.PackIsBijective := by
  refine ⟨fieldsOf_pack, pack_fieldsOf, fun o b v => ⟨?_, ?_, ?_, ?_, ?_, ?_, ?_, ?mode⟩⟩
  case mode =>
    have hmode (x : BitVec 3) : x.setWidth 16 &&& ~~~0x0007 = 0#16 := by
      simpa using setWidth_shiftLeft_and_not_mask x 0 (mask := 0x0007) (by decide)
    simp only [pack, BitVec.and_or_distrib_right, hmode]
  all_goals
    simp (disch := decide) only [pack, BitVec.and_or_distrib_right, setWidth_shiftLeft_and_not_mask]

/-- Settles O14: each row is evaluated. -/
theorem workedConfigurationWords : Obligations.WorkedConfigurationWords := by
  unfold Obligations.WorkedConfigurationWords
  decide

/-! ## The command -/

/-- `CONFIGURE` while the block is busy, and while it is not. -/
theorem exec_configure_eq (ignored : BitVec 60) (s : State) :
    exec (.configure ignored) s =
      .next (if s.busy then s.record (.hostWrite 0#6 (commandWord ignored 0x1#4))
        else acceptConfigure (s.record (.hostWrite 0#6 (commandWord ignored 0x1#4)))) := by
  cases hb : s.busy <;> simp [exec, execConfigure, State.accepts, hb]

/-- Settles O27: the write is recorded, and only an idle block accepts the command. -/
theorem configureAccepted : Obligations.ConfigureAccepted := by
  intro ignored s
  constructor
  · intro hidle
    simp [exec_configure_eq, hidle, acceptConfigure, State.record]
  · intro hbusy
    simp [exec_configure_eq, hbusy, State.record]

/-! ## The bus write -/

/-- In its phase the write of the latch ends as the target answers. -/
theorem exec_wrregConfig_eq {s : State} (hs : s.seq = .cfgWr) :
    exec .wrregConfig s =
      .next (configureAnswer (!s.busIn.fail) (wrreg Config.devConfig s.cfgLatch s).2) := by
  simp [exec, execWrregConfig, hs, wrreg_eq]

/-- Settles O37: the bus write's effect on the state is its bus events, and the answer decides the outcome. -/
theorem configureWriteAnswered : Obligations.ConfigureWriteAnswered := by
  intro s hs
  constructor
  · intro hdone
    rw [exec_wrregConfig_eq hs, wrreg_eq, hdone]
    rfl
  · intro hfail
    rw [exec_wrregConfig_eq hs, wrreg_eq, hfail]
    rfl

end Sys2Proof.Machine
end

section
/-! The fetch family, event by event: the command, the poll, the data reads, the sleep, and the sequencer's table
(42_fetch_poller.md). -/

namespace Sys2Proof.Machine

open Sys2Proof

/-! ## The command -/

/-- `FETCH` while the block is busy, and while it is not. -/
theorem exec_fetch_eq (ignored : BitVec 60) (s : State) :
    exec (.fetch ignored) s =
      .next (if s.busy then s.record (.hostWrite 0#6 (commandWord ignored 0x2#4))
        else startFetch (s.record (.hostWrite 0#6 (commandWord ignored 0x2#4)))) := by
  cases hb : s.busy <;> simp [exec, execFetch, State.accepts, hb]

/-- Settles O28: the write is recorded, and an idle block asks for `CONFIGURED`. -/
theorem fetchAcceptedOrRefused : Obligations.FetchAcceptedOrRefused := by
  intro ignored s
  refine ⟨fun hidle hconf => ?accepted, fun hidle hconf => ?refused, fun hbusy => ?ignored⟩
  case accepted => simp [exec_fetch_eq, hidle, startFetch, hconf, acceptFetch, State.record]
  case refused => simp [exec_fetch_eq, hidle, startFetch, hconf, State.refuseCommand, State.record]
  case ignored => simp [exec_fetch_eq, hbusy, State.record]

/-! ## The poll -/

theorem exec_rdregMasken_fail {s : State} (hs : s.seq = .pollRd) (hf : s.busIn.fail = true) :
    exec .rdregMasken s = .next ((rdreg Config.devMaskEn s).2.endCommand .busError) := by
  simp only [exec, execRdregMasken, hs, if_true, rdreg_fail _ _ hf]

theorem exec_rdregMasken_data {s : State} (hs : s.seq = .pollRd) (hf : s.busIn.fail = false) :
    exec .rdregMasken s = .next (pollAnswer (swap16 s.busIn.rdata) (rdreg Config.devMaskEn s).2) := by
  simp only [exec, execRdregMasken, hs, if_true, rdreg_word _ _ hf]

theorem pollAnswer_flag {m : Word16} (hm : readyFlag m = true) (s : State) :
    pollAnswer m s = { s with seq := .dataRd 0 } := by
  simp [pollAnswer, hm]

theorem pollAnswer_timeout {m : Word16} (hm : readyFlag m = false) {s : State}
    (hw : s.timeout.toNat ≤ (s.now - s.t0).toNat) : pollAnswer m s = fetchTimedOut s := by
  rw [pollAnswer, watchdogExpired_eq, hm, decide_eq_true hw]; rfl

theorem pollAnswer_sleep {m : Word16} (hm : readyFlag m = false) {s : State}
    (hw : (s.now - s.t0).toNat < s.timeout.toNat) : pollAnswer m s = { s with w0 := s.now, seq := .pollWait } := by
  rw [pollAnswer, watchdogExpired_eq, hm, decide_eq_false (Nat.not_le_of_lt hw)]; rfl

/-- Settles O38: the read adds its bus events, and the tests after it come in the order of R175. -/
theorem pollAnswered : Obligations.PollAnswered := by
  intro s hs
  refine ⟨fun hf => ?_, fun hf hm => ?_, fun hf hm hw => ?_, fun hf hm hw => ?_⟩
  · rw [exec_rdregMasken_fail hs hf, rdreg_fail _ _ hf]; rfl
  · rw [exec_rdregMasken_data hs hf, rdreg_word _ _ hf]
    exact congrArg Host.Outcome.next (pollAnswer_flag hm _)
  · rw [exec_rdregMasken_data hs hf, rdreg_word _ _ hf]
    exact congrArg Host.Outcome.next (pollAnswer_timeout hm hw)
  · rw [exec_rdregMasken_data hs hf, rdreg_word _ _ hf]
    exact congrArg Host.Outcome.next (pollAnswer_sleep hm hw)

/-! ## The data reads -/

/-- A data read answered with a word, the word staged. -/
def State.stageRead (s : State) (i : Fin 6) : State :=
  { s with
    stg := s.stg.set i (swap16 s.busIn.rdata), inFlight := false
    history := .bus (.data s.busIn.rdata) :: s.issuedHistory (.read (dataAddr i)) }

theorem dataRead_next {s : State} {i : Fin 6} (hs : s.seq = .dataRd i) (hf : s.busIn.fail = false)
    (hi : i.val < 5) : dataRead i s = { s.stageRead i with seq := .dataRd (i + 1) } := by
  rw [dataRead_word i s hs hf, rdreg_word _ _ hf, dataAnswer, if_pos hi]; rfl

theorem dataRead_last {s : State} {i : Fin 6} (hs : s.seq = .dataRd i) (hf : s.busIn.fail = false)
    (hi : i.val = 5) : dataRead i s = commit (s.stageRead i) := by
  rw [dataRead_word i s hs hf, rdreg_word _ _ hf, dataAnswer, if_neg (by omega)]; rfl

/-- Settles O40: the word goes to its staging register, and to no other. -/
theorem dataReadStages : Obligations.DataReadStages := by
  intro s i hs hf
  refine ⟨s.stg.set i (swap16 s.busIn.rdata), Staging.get_set_same ..,
    fun j hj => Staging.get_set_other _ _ _ _ hj.symm, fun hi => ?_, fun hi => ?_⟩
  · rw [exec_dataReadInstr, dataRead_next hs hf hi, ← dataAddr_eq]; rfl
  · rw [exec_dataReadInstr, dataRead_last hs hf hi, ← dataAddr_eq]; rfl

/-- Settles O41: the data read of phase `DATA_RD(5)` is the one that commits. -/
theorem lastReadCommits : Obligations.LastReadCommits := by
  intro s hs hf
  exact congrArg Host.Outcome.next (dataRead_last hs hf rfl)

/-- Settles O42: a failed read adds its bus events and ends the command. -/
theorem busFailureEndsFetch : Obligations.BusFailureEndsFetch := by
  intro s hf
  refine ⟨fun hs => ?poll, fun i hs => ?data⟩
  case poll => rw [exec_rdregMasken_fail hs hf, rdreg_fail _ _ hf]; rfl
  case data => rw [exec_dataReadInstr, dataRead_fail i s hs hf, rdreg_fail _ _ hf, ← dataAddr_eq]; rfl

/-- Settles O43: each bus transaction asks for its phase first. -/
theorem otherPhaseHasNoStep : Obligations.OtherPhaseHasNoStep := by
  intro s
  refine ⟨fun hs => ?config, fun hs => ?poll, fun i hs => ?data⟩
  case config => exact if_neg hs
  case poll => exact if_neg hs
  case data => rw [exec_dataReadInstr, dataRead_otherPhase i s hs]

/-! ## The sleep -/

theorem State.wake_over {s : State} (hs : s.seq = .pollWait) (hw : 20 ≤ (s.now - s.w0).toNat) :
    s.wake = { s with seq := .pollRd } :=
  if_pos ⟨hs, decide_eq_true hw⟩

theorem State.wake_early {s : State} (hw : (s.now - s.w0).toNat < 20) : s.wake = s :=
  if_neg fun h => Nat.not_le_of_lt hw (of_decide_eq_true h.2)

/-- Settles O45: the block's own step compares `NOW - W0`, and the phase has no transaction to hand over or to
answer. -/
theorem sleepEndsAfterPollTicks : Obligations.SleepEndsAfterPollTicks := by
  intro s e rest hin hs
  have ht : State.transaction { s with inbox := rest } = none := State.transaction_pollWait _ hs
  rw [step_cons s e rest hin]
  refine ⟨?_, ?_, ?_, ?_⟩
  · rintro rfl hw
    exact congrArg _ (State.wake_over (s := { s with inbox := rest }) hs hw)
  · rintro rfl hw
    exact congrArg _ (State.wake_early (s := { s with inbox := rest }) hw)
  · rintro rfl
    exact congrArg _ (runIssue_noTransaction ht)
  · rintro a rfl
    exact runAnswer_noTransaction a _ ht

/-! ## The sequencer -/

/-- Settles O51: the event is taken, and each kind of step that changes the phase is a row of the table; a command is
accepted only in `IDLE`, where a consistent block is not busy. -/
theorem sequencerFollowsTable : Obligations.SequencerFollowsTable := by
  intro s t hc hst hr hne
  obtain ⟨rest, n, _, h⟩ := step_effect hst
  generalize (nextEvent s).1 = e at h hr ⊢
  cases h with
  | configureAccepted he hcode hb =>
    rw [hc.idle_of_not_busy hb]
    exact .inl ⟨rfl, _, he, hcode⟩
  | fetchAccepted he hcode hb hf =>
    rw [hc.idle_of_not_busy hb]
    exact .inr ⟨rfl, ⟨_, he, hcode⟩, hf⟩
  | configured hs ha | configureFailed hs ha =>
    rw [show s.seq = .cfgWr from hs]
    exact ⟨_, rfl, rfl, by simp [ha]⟩
  | pollFailed hs ha =>
    rw [show s.seq = .pollRd from hs]
    exact ⟨_, rfl, .inl ⟨rfl, ha, rfl⟩⟩
  | flagSeen hs ha hflag =>
    rw [show s.seq = .pollRd from hs]
    exact ⟨_, rfl, .inr (.inl ⟨rfl, ha, hflag⟩)⟩
  | timedOut hs ha hflag hw =>
    rw [show s.seq = .pollRd from hs]
    exact ⟨_, rfl, .inr (.inr (.inl ⟨rfl, ha, hflag, hw, rfl⟩))⟩
  | pollAgain hs ha hflag hw =>
    rw [show s.seq = .pollRd from hs]
    exact ⟨_, rfl, .inr (.inr (.inr ⟨rfl, ha, hflag, hw⟩))⟩
  | dataFailed hs ha =>
    rw [show s.seq = .dataRd _ from hs]
    exact ⟨_, rfl, .inl ⟨rfl, ha, rfl⟩⟩
  | staged hs hi ha =>
    rw [show s.seq = .dataRd _ from hs]
    exact ⟨_, rfl, .inr (.inl ⟨hi, rfl, ha⟩)⟩
  | committed hs ha =>
    rw [show s.seq = .dataRd 5 from hs]
    exact ⟨_, rfl, .inr (.inr ⟨rfl, rfl, ha, rfl⟩)⟩
  | woken hs hw =>
    rw [show s.seq = .pollWait from hs]
    exact ⟨rfl, rfl, hw⟩
  | reset => exact absurd rfl hr
  | _ => exact absurd rfl hne

end Sys2Proof.Machine
end

section
/-! Whole fetches: the run of a fetch under a schedule, taken apart into the polls that go on, the poll that ends the
loop and the data reads, and joined again (42_fetch_poller.md R173 to R189). -/

namespace Sys2Proof.Machine

open Sys2Proof

/-! ## Time -/

/-- `s` with the events `es` taken and `rest` to come: the time that passes meanwhile, the transaction in flight and the
history, and nothing else. -/
def State.after (s : State) (es rest : List EnvEvent) (inFlight : Bool) (history : List HistEvent) : State :=
  { s with
    inbox := rest, now := s.now + BitVec.ofNat 64 (tickCount es), wallclock := wallclockAfter es s.wallclock
    inFlight := inFlight, history := history }

theorem State.after_nil {s : State} {rest : List EnvEvent} (hi : s.inbox = rest) :
    s.after [] rest s.inFlight s.history = s := by
  subst hi
  simp [State.after, tickCount, wallclockAfter]

theorem State.after_after (s : State) (es fs rest rest' : List EnvEvent) (f f' : Bool) (h h' : List HistEvent) :
    (s.after es rest' f' h').after fs rest f h = s.after (es ++ fs) rest f h := by
  simp only [State.after, tickCount_append, wallclockAfter_append, BitVec.ofNat_add, ← BitVec.add_assoc]

/-- The events of the fetch itself take no time. -/
theorem State.after_append_singleton {e : EnvEvent} (he : isBackground e = false) (s : State)
    (es rest : List EnvEvent) (f : Bool) (h : List HistEvent) :
    s.after (es ++ [e]) rest f h = { s.after es (e :: rest) f h with inbox := rest } := by
  cases e with
  | answer | wake | rst => simp [State.after, wallclockAfter_append, tickCount, wallclockAfter]
  | command | access | issue | tick | wallclock => cases he

/-! ## Background events -/

/-- No background event among `es` disturbs the block: it is busy and ignores the host, or they are ticks alone. -/
def State.Undisturbed (s : State) (es : List EnvEvent) : Prop :=
  s.busy = true ∨ ∀ e ∈ es, isBackground e = true → e = .tick

theorem State.Undisturbed.mono {s : State} {es fs : List EnvEvent} (h : s.Undisturbed fs) (hsub : es ⊆ fs) :
    s.Undisturbed es :=
  h.imp_right fun hticks e he => hticks e (hsub he)

/-- Ticks need no premise on the state. -/
theorem runSteps_ticks (n : Nat) (rest : List EnvEvent) (s : State) (hi : s.inbox = List.replicate n .tick ++ rest) :
    ∃ history, runSteps n s = .next (s.after (List.replicate n .tick) rest s.inFlight history) ∧
      pollCount history = pollCount s.history := by
  induction n generalizing s with
  | zero => exact ⟨s.history, congrArg _ (State.after_nil hi).symm, rfl⟩
  | succ n ih =>
    let t : State := { s with inbox := List.replicate n .tick ++ rest }
    have hstep : runSteps 1 s = .next t.tick := runSteps_one .tick _ s _ hi rfl
    obtain ⟨history, hrun, hcount⟩ := ih t.tick rfl
    refine ⟨history, ?_, hcount⟩
    rw [Nat.add_comm, runSteps_add _ _ _ _ hstep, hrun, Nat.add_comm, List.replicate_succ, ← List.singleton_append,
      ← s.after_after [EnvEvent.tick] _ rest t.inbox s.inFlight s.inFlight history t.tick.history]
    rfl

/-- Background events that do not disturb the block. -/
theorem runSteps_undisturbed {s : State} {es : List EnvEvent} (hes : es.all isBackground = true)
    (hu : s.Undisturbed es) {rest : List EnvEvent} (hi : s.inbox = es ++ rest) :
    ∃ inFlight history,
      runSteps es.length s = .next (s.after es rest inFlight history) ∧
      pollsIssuedOrDue { s with inFlight := inFlight, history := history } = pollsIssuedOrDue s ∧
      (s.transaction = none → inFlight = s.inFlight) := by
  obtain hb | hticks := hu
  · exact runSteps_background es hes rest s hb hi
  · have hrep : es = List.replicate es.length .tick :=
      List.eq_replicate_of_mem fun e he => hticks e he (List.all_eq_true.1 hes e he)
    obtain ⟨history, hrun, hcount⟩ := runSteps_ticks es.length rest s (hrep ▸ hi)
    rw [← hrep] at hrun
    exact ⟨s.inFlight, history, hrun, by simp [pollsIssuedOrDue, hcount], fun _ => rfl⟩

theorem runSteps_one_eq (s : State) : runSteps 1 s = step s := by
  simp only [runSteps]
  cases step s <;> rfl

/-- An event of the fetch itself, after background events that do not disturb the block. -/
theorem runSteps_undisturbed_append {s : State} {es : List EnvEvent} (hes : es.all isBackground = true)
    {e : EnvEvent} (he : isBackground e = false) (hu : s.Undisturbed (es ++ [e])) {rest : List EnvEvent}
    (hi : s.inbox = es ++ [e] ++ rest) :
    ∃ inFlight history,
      runSteps (es ++ [e]).length s = runEvent e (s.after (es ++ [e]) rest inFlight history) ∧
      pollsIssuedOrDue { s with inFlight := inFlight, history := history } = pollsIssuedOrDue s ∧
      (s.transaction = none → inFlight = s.inFlight) := by
  rw [List.append_assoc] at hi
  obtain ⟨f, h, hrun, hdue, hkept⟩ := runSteps_undisturbed hes (hu.mono (List.subset_append_left ..)) hi
  refine ⟨f, h, ?_, hdue, hkept⟩
  rw [List.length_append, runSteps_add _ _ _ _ hrun, State.after_append_singleton he]
  exact (runSteps_one_eq _).trans (step_cons _ e rest rfl)

/-! ## A fetch that goes on, and one that ends -/

/-- The run of `es` from `s` leads to `t`, and the fetch goes on: beside what `State.after` says, only elements that are
the fetch's own have changed. -/
def GoesOn (s t : State) (es rest : List EnvEvent) : Prop :=
  runSteps es.length s = .next t ∧ ∃ inFlight history seq stg w0 busIn,
    t = { s.after es rest inFlight history with seq := seq, stg := stg, w0 := w0, busIn := busIn }

/-- The run of `es` from `s` ends the fetch in `t`, after `n` polls beside the one that was issued or due. -/
structure FetchEnds (s t : State) (es rest : List EnvEvent) (n : Nat) : Prop where
  run        : runSteps es.length s = .next t
  inbox      : t.inbox = rest
  seq        : t.seq = .idle
  busy       : t.busy = false
  inFlight   : t.inFlight = false
  now        : t.now = s.now + BitVec.ofNat 64 (tickCount es)
  wallclock  : t.wallclock = wallclockAfter es s.wallclock
  polls      : pollCount t.history = pollsIssuedOrDue s + n
  options    : t.options = s.options
  cal        : t.cal = s.cal
  timeout    : t.timeout = s.timeout
  configured : t.configured = s.configured
  proc       : t.proc = s.proc

section
variable {s t u : State} {es fs rest : List EnvEvent}

theorem GoesOn.refl (hi : s.inbox = rest) : GoesOn s s [] rest :=
  ⟨rfl, s.inFlight, s.history, s.seq, s.stg, s.w0, s.busIn, (State.after_nil hi).symm⟩

theorem GoesOn.runSteps_append (h : GoesOn s t es (fs ++ rest)) :
    runSteps (es ++ fs).length s = runSteps fs.length t := by
  rw [List.length_append]
  exact runSteps_add _ _ _ _ h.1

theorem GoesOn.inbox (h : GoesOn s t es rest) : t.inbox = rest := by
  obtain ⟨_, _, _, _, _, _, _, rfl⟩ := h
  rfl

/-- The block is as busy as before. -/
theorem GoesOn.undisturbed (h : GoesOn s t es rest) (hu : s.Undisturbed fs) : t.Undisturbed fs := by
  obtain ⟨_, _, _, _, _, _, _, rfl⟩ := h
  exact hu

theorem GoesOn.timeout_eq (h : GoesOn s t es rest) : t.timeout = s.timeout := by
  obtain ⟨_, _, _, _, _, _, _, rfl⟩ := h
  rfl

/-- The watchdog counts the ticks, where the elapsed time does not wrap. -/
theorem GoesOn.elapsed_eq (h : GoesOn s t es rest) (hlt : (s.now - s.t0).toNat + tickCount es < 2 ^ 64) :
    (t.now - t.t0).toNat = (s.now - s.t0).toNat + tickCount es := by
  obtain ⟨_, _, _, _, _, _, _, rfl⟩ := h
  exact elapsed_add s.now s.t0 _ hlt

theorem GoesOn.trans (h : GoesOn s t es (fs ++ rest)) (h' : GoesOn t u fs rest) : GoesOn s u (es ++ fs) rest := by
  refine ⟨h.runSteps_append.trans h'.1, ?_⟩
  obtain ⟨_, f', h', _, _, _, _, rfl⟩ := h
  obtain ⟨_, f, h, q, g, w, a, rfl⟩ := h'
  refine ⟨f, h, q, g, w, a, ?_⟩
  rw [← s.after_after es fs rest (fs ++ rest) f f' h h']
  rfl

theorem FetchEnds.of_goesOn {m n : Nat} (h : GoesOn s t es (fs ++ rest))
    (hpolls : pollsIssuedOrDue t = pollsIssuedOrDue s + m) (h' : FetchEnds t u fs rest n) :
    FetchEnds s u (es ++ fs) rest (m + n) := by
  have hrun := h.runSteps_append.trans h'.run
  obtain ⟨_, _, _, _, _, _, _, rfl⟩ := h
  exact
    { h' with
      run := hrun
      now := by rw [h'.now, tickCount_append, BitVec.ofNat_add, ← BitVec.add_assoc]; rfl
      wallclock := h'.wallclock.trans (wallclockAfter_append es fs s.wallclock).symm
      polls := by rw [h'.polls, hpolls, Nat.add_assoc] }

end

/-! ## The answer to a read -/

/-- The phases that read: `POLL_RD` and `DATA_RD(i)`. -/
theorem State.phase_of_read {s : State} {a : RegAddr} (ht : s.transaction = some (.read a)) :
    (s.seq = .pollRd ∧ a = Config.devMaskEn) ∨ ∃ i, s.seq = .dataRd i ∧ a = dataAddr i := by
  cases hs : s.seq with
  | idle => cases (s.transaction_idle hs).symm.trans ht
  | cfgWr => cases (s.transaction_cfgWr hs).symm.trans ht
  | pollWait => cases (s.transaction_pollWait hs).symm.trans ht
  | pollRd => cases (s.transaction_pollRd hs).symm.trans ht; exact .inl ⟨rfl, rfl⟩
  | dataRd i => cases (s.transaction_dataRd i hs).symm.trans ht; exact .inr ⟨i, rfl, rfl⟩

/-- The history after the answer `b` to the read of the phase holds the poll that was issued or due, and no other. -/
theorem pollCount_answered_issued {s : State} {a : RegAddr} (ht : s.transaction = some (.read a)) {b : BusEvent}
    (hb : b.isAnswer = true) : pollCount (.bus b :: s.issuedHistory (.read a)) = pollsIssuedOrDue s := by
  refine (pollCount_answered b hb s.inFlight a s.history).trans ?_
  obtain ⟨hs, rfl⟩ | ⟨i, hs, rfl⟩ := State.phase_of_read ht
  · simp [pollsIssuedOrDue, hs]
  · simp [pollsIssuedOrDue, hs, dataAddr_ne_devMaskEn i]

theorem pollsIssuedOrDue_of_seq {s : State} (hs : s.seq ≠ .pollRd) : pollsIssuedOrDue s = pollCount s.history := by
  simp [pollsIssuedOrDue, hs]

/-- In a phase that reads, a failure ends the fetch. -/
theorem runAnswer_fail {s : State} {a : RegAddr} (ht : s.transaction = some (.read a)) {b : BusAnswer}
    (hb : b.fail = true) :
    runAnswer b s = .next { s with
      busIn := b, err := .busError, busy := false, seq := .idle, inFlight := false
      history := .bus .fail :: s.issuedHistory (.read a) } := by
  obtain ⟨hpoll, hdata⟩ := busFailureEndsFetch { s with busIn := b } hb
  obtain ⟨hs, rfl⟩ | ⟨i, hs, rfl⟩ := State.phase_of_read ht
  · rw [runAnswer_pollRd b s hs]; exact hpoll hs
  · rw [runAnswer_dataRd b s i hs, ← exec_dataReadInstr, dataAddr_eq]; exact hdata i hs

/-- `s` with the read `r` outstanding and its answer on the response side of the port. -/
def State.atAnswer (s : State) (r : AnsweredRead) (rest : List EnvEvent) (inFlight : Bool)
    (history : List HistEvent) : State :=
  { s.after r.events rest inFlight history with busIn := r.answer }

/-- `t` is `s` but for a failed read: what `BusError` leaves of the sample (42_fetch_poller.md R182). -/
def FailedFrom (s t : State) : Prop :=
  t.err = .busError ∧ t.raw = s.raw ∧ t.fetched = s.fetched ∧ t.fetchTs = s.fetchTs

theorem GoesOn.failedFrom_iff {s t u : State} {es rest : List EnvEvent} (h : GoesOn s t es rest) :
    FailedFrom t u ↔ FailedFrom s u := by
  obtain ⟨_, _, _, _, _, _, _, rfl⟩ := h
  exact .rfl

section
variable {s : State} {r : AnsweredRead} {a : RegAddr} {i : Fin 6} {rest : List EnvEvent}
  (hr : r.before.all isBackground = true) (hu : s.Undisturbed r.events) (hi : s.inbox = r.events ++ rest)
include hr hu hi

/-- The answer of a read comes after the events while it is outstanding, and counts the poll that was issued or due. -/
theorem runSteps_read (ht : s.transaction = some (.read a)) :
    ∃ inFlight history,
      runSteps r.events.length s = runAnswer r.answer (s.after r.events rest inFlight history) ∧
      ∀ b : BusEvent, b.isAnswer = true →
        pollCount (.bus b :: (s.atAnswer r rest inFlight history).issuedHistory (.read a)) = pollsIssuedOrDue s := by
  obtain ⟨f, h, hrun, hdue, _⟩ := runSteps_undisturbed_append hr rfl hu hi
  exact ⟨f, h, hrun, fun b hb => (pollCount_answered_issued (s := s.atAnswer r rest f h) ht hb).trans hdue⟩

theorem exists_fetchEnds_of_fail (ht : s.transaction = some (.read a)) (hf : r.answer.fail = true) :
    ∃ t, FetchEnds s t r.events rest 0 ∧ FailedFrom s t := by
  obtain ⟨f, h, hrun, hpolls⟩ := runSteps_read hr hu hi ht
  rw [runAnswer_fail (s := s.after r.events rest f h) ht hf] at hrun
  exact ⟨_, ⟨hrun, rfl, rfl, rfl, rfl, rfl, rfl, hpolls .fail rfl, rfl, rfl, rfl, rfl, rfl⟩, rfl, rfl, rfl, rfl⟩

/-! ## The data reads -/

theorem runSteps_dataRead (hs : s.seq = .dataRd i) :
    ∃ inFlight history,
      runSteps r.events.length s = .next (dataRead i (s.atAnswer r rest inFlight history)) ∧
      ∀ b : BusEvent, b.isAnswer = true →
        pollCount (.bus b :: (s.atAnswer r rest inFlight history).issuedHistory (.read (dataAddr i))) =
          pollsIssuedOrDue s := by
  obtain ⟨f, h, hrun, hpolls⟩ := runSteps_read hr hu hi (s.transaction_dataRd i hs)
  exact ⟨f, h, hrun.trans (runAnswer_dataRd r.answer _ i hs), hpolls⟩

/-- The raw sample that a commit takes from the staging registers (42_fetch_poller.md R180). -/
def Staging.sample (g : Staging) : RawSample :=
  { shunt := ⟨g.get 0, g.get 2, g.get 4⟩, bus := ⟨g.get 1, g.get 3, g.get 5⟩ }

/-- The commit leaves `t`, with the raw sample of the staging registers `g`. -/
def CommittedFrom (g : Staging) (t : State) : Prop :=
  t.err = .ok ∧ t.fetched = true ∧ t.fetchTs = t.wallclock ∧ t.raw = g.sample

theorem exists_fetchEnds_of_lastRead (hs : s.seq = .dataRd 5) (hf : r.answer.fail = false) :
    ∃ t, FetchEnds s t r.events rest 0 ∧ CommittedFrom (s.stg.set 5 (swap16 r.answer.rdata)) t := by
  obtain ⟨f, h, hrun, hpolls⟩ := runSteps_dataRead hr hu hi hs
  have hcommit := hrun.trans (lastReadCommits (s.atAnswer r rest f h) hs hf)
  exact ⟨_, ⟨hcommit, rfl, rfl, rfl, rfl, rfl, rfl, hpolls (.data r.answer.rdata) rfl, rfl, rfl, rfl, rfl, rfl⟩,
    rfl, rfl, rfl, rfl⟩

theorem exists_goesOn_of_dataRead (hs : s.seq = .dataRd i) (hlt : i.val < 5) (hf : r.answer.fail = false) :
    ∃ t, GoesOn s t r.events rest ∧ t.seq = .dataRd (i + 1) ∧ t.stg = s.stg.set i (swap16 r.answer.rdata) ∧
      pollsIssuedOrDue t = pollsIssuedOrDue s := by
  obtain ⟨f, h, hrun, hpolls⟩ := runSteps_dataRead hr hu hi hs
  rw [dataRead_next (s := s.atAnswer r rest f h) hs hf hlt] at hrun
  exact ⟨_, ⟨hrun, _, _, _, _, _, _, rfl⟩, rfl, rfl,
    (pollsIssuedOrDue_of_seq (by exact nofun)).trans (hpolls (.data r.answer.rdata) rfl)⟩

end

/-- The staging registers after the words that answer the reads from `DATA_RD(i)` on. -/
def stagedFrom : Fin 6 → List AnsweredRead → Staging → Staging
  | _, [], g => g
  | i, r :: reads, g => stagedFrom (i + 1) reads (g.set i (swap16 r.answer.rdata))

/-- How the data reads from `DATA_RD(i)` on leave the state `t`: a failure, or the commit of the staged words. -/
def ReadsOutcome (s t : State) (i : Fin 6) (reads : List AnsweredRead) : Prop :=
  if reads.any (·.answer.fail) then FailedFrom s t else CommittedFrom (stagedFrom i reads s.stg) t

/-- The data reads with `n` registers still to read, from phase `DATA_RD(i)` on. -/
theorem exists_fetchEnds_of_readsEnd {n : Nat} {reads : List AnsweredRead} (hr : ReadsEnd n reads) {i : Fin 6}
    (hn : i.val + n = 6) {s : State} (hs : s.seq = .dataRd i) (hu : s.Undisturbed (reads.flatMap AnsweredRead.events))
    {rest : List EnvEvent} (hi : s.inbox = reads.flatMap AnsweredRead.events ++ rest) :
    ∃ t, FetchEnds s t (reads.flatMap AnsweredRead.events) rest 0 ∧ ReadsOutcome s t i reads := by
  induction n generalizing reads i s with
  | zero => omega
  | succ n ih =>
    cases reads with
    | nil => cases hr
    | cons r reads =>
      obtain ⟨hr, hnext⟩ := hr
      rw [List.flatMap_cons] at hu hi ⊢
      rw [List.append_assoc] at hi
      have hur := hu.mono (List.subset_append_left ..)
      obtain hf | hf := Bool.eq_false_or_eq_true r.answer.fail <;>
        simp only [ReadsOutcome, List.any_cons, hf, Bool.true_or, Bool.false_or, if_true, if_false,
          reduceCtorEq] at hnext ⊢
      · subst hnext
        rw [List.flatMap_nil, List.append_nil]
        exact exists_fetchEnds_of_fail hr hur hi (s.transaction_dataRd i hs) hf
      · by_cases hlast : i = 5
        · subst hlast
          obtain rfl : n = 0 := by omega
          cases hnext
          rw [List.flatMap_nil, List.append_nil]
          exact exists_fetchEnds_of_lastRead hr hur hi hs hf
        · have hlt : i.val < 5 := by omega
          have hsucc : (i + 1).val + n = 6 := by rw [(Seq.dataRd_succ_ne i hlt).1]; omega
          obtain ⟨t, hgo, hseq, hstg, hpolls⟩ := exists_goesOn_of_dataRead hr hur hi hs hlt hf
          have hut := hgo.undisturbed (hu.mono (List.subset_append_right ..))
          obtain ⟨u, hends, hout⟩ := ih hnext hsucc hseq hut hgo.inbox
          rw [ReadsOutcome, hstg, hgo.failedFrom_iff] at hout
          exact ⟨u, .of_goesOn hgo hpolls hends, hout⟩

/-- Reads that end without a failure are all of them. -/
theorem ReadsEnd.length_eq {n : Nat} {reads : List AnsweredRead} (h : ReadsEnd n reads)
    (hok : reads.any (·.answer.fail) = false) : reads.length = n := by
  induction reads generalizing n with
  | nil =>
    cases n with
    | zero => rfl
    | succ n => cases h
  | cons r reads ih =>
    cases n with
    | zero => cases h
    | succ n =>
      simp only [List.any_cons, Bool.or_eq_false_iff] at hok
      obtain ⟨hr, hreads⟩ := hok
      obtain ⟨_, hnext⟩ := h
      rw [hr] at hnext
      exact congrArg (· + 1) (ih hnext hreads)

/-! ## The polls -/

theorem AnsweredRead.tickCount_events (r : AnsweredRead) : tickCount r.events = tickCount r.before := by
  rw [AnsweredRead.events, tickCount_append]; rfl

theorem State.elapsed_atAnswer {s : State} {r : AnsweredRead} {rest : List EnvEvent} (f : Bool) (h : List HistEvent)
    (hlt : (s.now - s.t0).toNat + tickCount r.before < 2 ^ 64) :
    ((s.atAnswer r rest f h).now - (s.atAnswer r rest f h).t0).toNat =
      (s.now - s.t0).toNat + tickCount r.before := by
  rw [← r.tickCount_events] at hlt ⊢
  exact elapsed_add s.now s.t0 _ hlt

section
variable {s : State} {r : AnsweredRead} {rest : List EnvEvent} (hr : r.before.all isBackground = true)
  (hu : s.Undisturbed r.events) (hi : s.inbox = r.events ++ rest)
include hr hu hi

/-- What an answered poll does is said by `PollAnswered`, with the ticks while it was outstanding. -/
theorem runSteps_poll (hs : s.seq = .pollRd) :
    ∃ inFlight history,
      runSteps r.events.length s = exec .rdregMasken (s.atAnswer r rest inFlight history) ∧
      ∀ b : BusEvent, b.isAnswer = true →
        pollCount (.bus b :: (s.atAnswer r rest inFlight history).issuedHistory (.read Config.devMaskEn)) =
          pollsIssuedOrDue s := by
  obtain ⟨f, h, hrun, hpolls⟩ := runSteps_read hr hu hi (s.transaction_pollRd hs)
  exact ⟨f, h, hrun.trans (runAnswer_pollRd r.answer _ hs), hpolls⟩

theorem exists_goesOn_of_flag (hs : s.seq = .pollRd) (hf : r.answer.fail = false)
    (hm : readyFlag (swap16 r.answer.rdata) = true) :
    ∃ t, GoesOn s t r.events rest ∧ t.seq = .dataRd 0 ∧ pollsIssuedOrDue t = pollsIssuedOrDue s := by
  obtain ⟨f, h, hrun, hpolls⟩ := runSteps_poll hr hu hi hs
  obtain ⟨_, hflag, _, _⟩ := pollAnswered (s.atAnswer r rest f h) hs
  exact ⟨_, ⟨hrun.trans (hflag hf hm), _, _, _, _, _, _, rfl⟩, rfl,
    (pollsIssuedOrDue_of_seq (by exact nofun)).trans (hpolls (.data r.answer.rdata) rfl)⟩

theorem exists_fetchEnds_of_timeout (hs : s.seq = .pollRd) (hf : r.answer.fail = false)
    (hm : readyFlag (swap16 r.answer.rdata) = false)
    (hlt : (s.now - s.t0).toNat + tickCount r.before < 2 ^ 64)
    (hw : s.timeout.toNat ≤ (s.now - s.t0).toNat + tickCount r.before) :
    ∃ t, FetchEnds s t r.events rest 0 ∧
      t.err = .fetchTimeout ∧ t.fetched = false ∧ t.raw = s.raw ∧ t.fetchTs = s.fetchTs := by
  obtain ⟨f, h, hrun, hpolls⟩ := runSteps_poll hr hu hi hs
  obtain ⟨_, _, hexpired, _⟩ := pollAnswered (s.atAnswer r rest f h) hs
  rw [← State.elapsed_atAnswer f h hlt] at hw
  exact ⟨_, ⟨hrun.trans (hexpired hf hm hw), rfl, rfl, rfl, rfl, rfl, rfl, hpolls (.data r.answer.rdata) rfl, rfl,
    rfl, rfl, rfl, rfl⟩, rfl, rfl, rfl, rfl⟩

theorem exists_goesOn_of_noFlag (hs : s.seq = .pollRd) (hf : r.answer.fail = false)
    (hm : readyFlag (swap16 r.answer.rdata) = false)
    (hlt : (s.now - s.t0).toNat + tickCount r.before < 2 ^ 64)
    (hw : (s.now - s.t0).toNat + tickCount r.before < s.timeout.toNat) :
    ∃ t, GoesOn s t r.events rest ∧ t.seq = .pollWait ∧ t.inFlight = false ∧ t.w0 = t.now ∧
      pollsIssuedOrDue t = pollsIssuedOrDue s := by
  obtain ⟨f, h, hrun, hpolls⟩ := runSteps_poll hr hu hi hs
  obtain ⟨_, _, _, hsleep⟩ := pollAnswered (s.atAnswer r rest f h) hs
  rw [← State.elapsed_atAnswer f h hlt] at hw
  exact ⟨_, ⟨hrun.trans (hsleep hf hm hw), _, _, _, _, _, _, rfl⟩, rfl, rfl, rfl,
    (pollsIssuedOrDue_of_seq (by exact nofun)).trans (hpolls (.data r.answer.rdata) rfl)⟩

end

/-- A sleep that has just begun, and its end: the next poll is due. -/
theorem exists_goesOn_of_sleep {s : State} {sleep rest : List EnvEvent} (hs : s.seq = .pollWait)
    (hf : s.inFlight = false) (hw0 : s.w0 = s.now) (hsleep : sleep.all isBackground = true)
    (hu : s.Undisturbed (sleep ++ [EnvEvent.wake])) (hi : s.inbox = sleep ++ [EnvEvent.wake] ++ rest)
    (hlong : Config.pollTicks ≤ tickCount sleep) (hlt : tickCount sleep < 2 ^ 64) :
    ∃ t, GoesOn s t (sleep ++ [EnvEvent.wake]) rest ∧ t.seq = .pollRd ∧
      pollsIssuedOrDue t = pollsIssuedOrDue s + 1 := by
  obtain ⟨f, h, hrun, hdue, hkept⟩ := runSteps_undisturbed_append hsleep rfl hu hi
  have hf' : f = false := (hkept (s.transaction_pollWait hs)).trans hf
  have hzero : (s.now - s.w0).toNat = 0 := by rw [hw0, BitVec.sub_self]; rfl
  have hticks : tickCount (sleep ++ [EnvEvent.wake]) = tickCount sleep := tickCount_append sleep [EnvEvent.wake]
  have helapsed : ((s.after (sleep ++ [EnvEvent.wake]) rest f h).now - s.w0).toNat = tickCount sleep := by
    rw [State.after, hticks, elapsed_add _ _ _ (by omega), hzero, Nat.zero_add]
  have hover : Config.pollTicks ≤ ((s.after (sleep ++ [EnvEvent.wake]) rest f h).now - s.w0).toNat := by
    rw [helapsed]; exact hlong
  have hwoken := State.wake_over (s := s.after (sleep ++ [EnvEvent.wake]) rest f h) hs hover
  refine ⟨_, ⟨hrun.trans (congrArg Host.Outcome.next hwoken), _, _, _, _, _, _, rfl⟩, rfl, ?_⟩
  rw [← hdue]
  simp [pollsIssuedOrDue, State.after, hs, hf']

theorem PollRound.events_eq (p : PollRound) :
    p.events = AnsweredRead.events ⟨p.before, false, p.word⟩ ++ (p.sleep ++ [EnvEvent.wake]) := by
  simp [PollRound.events, AnsweredRead.events]

theorem PollRound.tickCount_events (p : PollRound) : tickCount p.events = tickCount p.before + tickCount p.sleep := by
  rw [p.events_eq, tickCount_append, tickCount_append, AnsweredRead.tickCount_events]; rfl

/-- A poll that does not end the loop, and the sleep after it. -/
theorem exists_goesOn_of_round {p : PollRound} {s : State} (hs : s.seq = .pollRd)
    (hbefore : p.before.all isBackground = true) (hsleep : p.sleep.all isBackground = true)
    (hm : readyFlag (swap16 p.word) = false) (hw : (s.now - s.t0).toNat + tickCount p.before < s.timeout.toNat)
    (hlong : Config.pollTicks ≤ tickCount p.sleep) (hu : s.Undisturbed p.events) {rest : List EnvEvent}
    (hi : s.inbox = p.events ++ rest) (hlt : (s.now - s.t0).toNat + tickCount p.events < 2 ^ 64) :
    ∃ t, GoesOn s t p.events rest ∧ t.seq = .pollRd ∧ pollsIssuedOrDue t = pollsIssuedOrDue s + 1 := by
  rw [p.tickCount_events] at hlt
  rw [p.events_eq] at hu hi ⊢
  rw [List.append_assoc] at hi
  have hlt' : (s.now - s.t0).toNat + tickCount p.before < 2 ^ 64 := by omega
  obtain ⟨t, hpoll, hts, htf, htw, htn⟩ :=
    exists_goesOn_of_noFlag hbefore (hu.mono (List.subset_append_left ..)) hi hs rfl hm hlt' hw
  have hut := hpoll.undisturbed (hu.mono (List.subset_append_right ..))
  obtain ⟨u, hwake, hus, hun⟩ := exists_goesOn_of_sleep hts htf htw hsleep hut hpoll.inbox hlong (by omega)
  exact ⟨u, hpoll.trans hwake, hus, by rw [hun, htn]⟩

/-- The polls that do not end the loop, from the first one on. -/
theorem exists_goesOn_of_pollsContinue {polls : List PollRound} {s : State}
    (hp : PollsContinue s.timeout.toNat (s.now - s.t0).toNat polls) (hs : s.seq = .pollRd)
    (hu : s.Undisturbed (polls.flatMap PollRound.events)) {rest : List EnvEvent}
    (hi : s.inbox = polls.flatMap PollRound.events ++ rest)
    (hlt : (s.now - s.t0).toNat + tickCount (polls.flatMap PollRound.events) < 2 ^ 64) :
    ∃ t, GoesOn s t (polls.flatMap PollRound.events) rest ∧ t.seq = .pollRd ∧
      pollsIssuedOrDue t = pollsIssuedOrDue s + polls.length := by
  induction polls generalizing s with
  | nil => exact ⟨s, .refl hi, hs, rfl⟩
  | cons p polls ih =>
    obtain ⟨hbefore, hsleep, hm, hw, hlong, hp⟩ := hp
    rw [List.flatMap_cons] at hu hi hlt ⊢
    rw [tickCount_append] at hlt
    rw [List.append_assoc] at hi
    obtain ⟨t, hround, hts, htn⟩ :=
      exists_goesOn_of_round hs hbefore hsleep hm hw hlong (hu.mono (List.subset_append_left ..)) hi (by omega)
    have helapsed := hround.elapsed_eq (by omega)
    rw [Nat.add_assoc, ← p.tickCount_events, ← helapsed, ← hround.timeout_eq] at hp
    have hut := hround.undisturbed (hu.mono (List.subset_append_right ..))
    obtain ⟨u, hpolls, hus, hun⟩ := ih hp hts hut hround.inbox (by omega)
    exact ⟨u, hround.trans hpolls, hus, by rw [hun, htn, List.length_cons]; omega⟩

/-! ## The whole fetch -/

theorem GoesOn.fetchOutcome_iff {s t u : State} {es rest : List EnvEvent} {f : FetchSchedule}
    (h : GoesOn s t es rest) : FetchOutcome t u f ↔ FetchOutcome s u f := by
  obtain ⟨_, _, _, _, _, _, _, rfl⟩ := h
  exact .rfl

/-- Six reads that are answered with a word stage the six corrected words in order. -/
theorem exists_staged_of_length {reads : List AnsweredRead} (h : reads.length = 6) (g : Staging) :
    ∃ d0 d1 d2 d3 d4 d5 : BusAnswer, reads.map (·.answer) = [d0, d1, d2, d3, d4, d5] ∧
      (stagedFrom 0 reads g).sample =
        { shunt := ⟨swap16 d0.rdata, swap16 d2.rdata, swap16 d4.rdata⟩
          bus := ⟨swap16 d1.rdata, swap16 d3.rdata, swap16 d5.rdata⟩ } :=
  match reads, h with
  | [_, _, _, _, _, _], _ => ⟨_, _, _, _, _, _, rfl, rfl⟩

section
variable {s t : State} {f : FetchSchedule}

theorem FetchOutcome.of_fail (hf : f.last.answer.fail = true) (h : FailedFrom s t) : FetchOutcome s t f := by
  rw [FetchOutcome, if_pos hf]
  exact h

theorem FetchOutcome.of_timeout (hf : f.last.answer.fail = false)
    (hm : readyFlag (swap16 f.last.answer.rdata) = false)
    (h : t.err = .fetchTimeout ∧ t.fetched = false ∧ t.raw = s.raw ∧ t.fetchTs = s.fetchTs) :
    FetchOutcome s t f := by
  rw [FetchOutcome, if_neg (by simp [hf]), if_neg (by simp [hm])]
  exact h

theorem FetchOutcome.of_reads (hf : f.last.answer.fail = false) (hm : readyFlag (swap16 f.last.answer.rdata) = true)
    (hr : ReadsEnd 6 f.reads) (h : ReadsOutcome s t 0 f.reads) : FetchOutcome s t f := by
  rw [FetchOutcome, if_neg (by simp [hf]), if_pos hm]
  unfold ReadsOutcome at h
  split at h
  next hany => rw [if_pos hany]; exact h
  next hany =>
    rw [if_neg hany]
    obtain ⟨herr, hfetched, hts, hraw⟩ := h
    obtain ⟨d0, d1, d2, d3, d4, d5, hd, hsample⟩ :=
      exists_staged_of_length (hr.length_eq (Bool.eq_false_iff.2 hany)) s.stg
    exact ⟨herr, hfetched, hts, d0, d1, d2, d3, d4, d5, hd, hraw.trans hsample⟩

/-- The poll that ends the loop, and the data reads where it returned the flag. -/
theorem exists_fetchEnds_of_last (hs : s.seq = .pollRd) (hbefore : f.last.before.all isBackground = true)
    (hlast : if f.last.answer.fail then f.reads = []
      else if readyFlag (swap16 f.last.answer.rdata) then ReadsEnd 6 f.reads
      else f.reads = [] ∧ s.timeout.toNat ≤ (s.now - s.t0).toNat + tickCount f.last.before)
    (hu : s.Undisturbed (f.last.events ++ f.reads.flatMap AnsweredRead.events)) {rest : List EnvEvent}
    (hi : s.inbox = f.last.events ++ f.reads.flatMap AnsweredRead.events ++ rest)
    (hlt : (s.now - s.t0).toNat + tickCount f.last.before < 2 ^ 64) :
    ∃ t, FetchEnds s t (f.last.events ++ f.reads.flatMap AnsweredRead.events) rest 0 ∧ FetchOutcome s t f := by
  have hul := hu.mono (List.subset_append_left ..)
  split at hlast
  next hf =>
    rw [hlast, List.flatMap_nil, List.append_nil] at hi ⊢
    obtain ⟨t, hends, hout⟩ := exists_fetchEnds_of_fail hbefore hul hi (s.transaction_pollRd hs) hf
    exact ⟨t, hends, .of_fail hf hout⟩
  next hf =>
    rw [Bool.not_eq_true] at hf
    split at hlast
    next hm =>
      rw [List.append_assoc] at hi
      obtain ⟨t, hflag, hts, hpolls⟩ := exists_goesOn_of_flag hbefore hul hi hs hf hm
      have hut := hflag.undisturbed (hu.mono (List.subset_append_right ..))
      obtain ⟨u, hends, hout⟩ := exists_fetchEnds_of_readsEnd hlast rfl hts hut hflag.inbox
      exact ⟨u, .of_goesOn hflag hpolls hends, hflag.fetchOutcome_iff.1 (.of_reads hf hm hlast hout)⟩
    next hm =>
      rw [Bool.not_eq_true] at hm
      obtain ⟨hnil, hw⟩ := hlast
      rw [hnil, List.flatMap_nil, List.append_nil] at hi ⊢
      obtain ⟨t, hends, hout⟩ := exists_fetchEnds_of_timeout hbefore hul hi hs hf hm hlt hw
      exact ⟨t, hends, .of_timeout hf hm hout⟩

/-- The run of a whole schedule, from the first poll on. -/
theorem exists_fetchEnds_of_runsToEnd (hs : s.seq = .pollRd) (hu : s.Undisturbed f.events) {rest : List EnvEvent}
    (hi : s.inbox = f.events ++ rest) (hf : f.RunsToEnd s.timeout.toNat (s.now - s.t0).toNat)
    (hlt : (s.now - s.t0).toNat + f.loopTicks < 2 ^ 64) :
    ∃ t, FetchEnds s t f.events rest f.polls.length ∧ FetchOutcome s t f := by
  obtain ⟨hp, hbefore, hlast⟩ := hf
  rw [FetchSchedule.events] at hi hu ⊢
  rw [List.append_assoc] at hi
  rw [FetchSchedule.loopTicks, ← Nat.add_assoc] at hlast hlt
  obtain ⟨t, hpolls, hts, htn⟩ :=
    exists_goesOn_of_pollsContinue hp hs (hu.mono (List.subset_append_left ..)) hi (by omega)
  rw [← hpolls.elapsed_eq (by omega)] at hlast hlt
  rw [← hpolls.timeout_eq] at hlast
  have hut := hpolls.undisturbed (hu.mono (List.subset_append_right ..))
  obtain ⟨u, hends, hout⟩ := exists_fetchEnds_of_last hts hbefore hlast hut hpolls.inbox hlt
  exact ⟨u, .of_goesOn hpolls htn hends, hpolls.fetchOutcome_iff.1 hout⟩

theorem pollsIssuedOrDue_of_due (hs : s.seq = .pollRd) (hi : s.inFlight = false) :
    pollsIssuedOrDue s = pollCount s.history + 1 := by
  rw [pollsIssuedOrDue, if_pos ⟨hs, hi⟩]

end

/-- Settles O59: the run is joined from those of the polls that go on, the poll that ends the loop and the data reads,
and a busy block ignores the host. -/
theorem fetchRunMatchesBigStep : Obligations.FetchRunMatchesBigStep := by
  intro s f rest elapsed hs hb hi hin hruns hlt
  obtain ⟨t, hends, hout⟩ := exists_fetchEnds_of_runsToEnd hs (.inl hb) hin hruns hlt
  refine ⟨t, (core_run_eq _ s).trans hends.run, hends.inbox, hends.seq, hends.busy, hends.inFlight, hends.now,
    hends.wallclock, ?_, hends.options, hends.cal, hends.timeout, hends.configured, hends.proc, hout⟩
  rw [hends.polls, pollsIssuedOrDue_of_due hs hi]
  omega

/-! ## The prompt schedule -/

/-- A poll answered at once, and a sleep of `POLL_TICKS` (42_fetch_poller.md R186). -/
def promptRound (w : Word16) : PollRound := ⟨[], w, List.replicate 20 .tick⟩

/-- The prompt schedule of a fetch whose flag never rises: the polls `words`, and `lastWord` at the time-out. -/
def promptSchedule (words : List Word16) (lastWord : Word16) : FetchSchedule :=
  ⟨words.map promptRound, ⟨[], false, lastWord⟩, []⟩

theorem promptSchedule_events (words : List Word16) (lastWord : Word16) :
    (promptSchedule words lastWord).events = fetchEvents (words.map fun w => (w, 20)) ⟨false, lastWord⟩ [] := by
  simp only [promptSchedule, FetchSchedule.events, fetchEvents, List.flatMap_map]
  rfl

theorem eq_tick_of_mem_pollEvents {p : Word16 × Nat} {e : EnvEvent} (he : e ∈ pollEvents p)
    (hb : isBackground e = true) : e = .tick := by
  rw [pollEvents, List.mem_cons, List.mem_append, List.mem_singleton] at he
  obtain rfl | he | rfl := he
  · cases hb
  · exact List.eq_of_mem_replicate he
  · cases hb

/-- Its only background events are ticks, so it needs no busy block. -/
theorem undisturbed_promptSchedule (s : State) (words : List Word16) (lastWord : Word16) :
    s.Undisturbed (promptSchedule words lastWord).events := by
  refine .inr fun e he hb => ?_
  rw [promptSchedule_events, fetchEvents, List.map_nil, List.mem_append, List.mem_singleton, List.mem_flatMap] at he
  obtain ⟨p, _, he⟩ | rfl := he
  · exact eq_tick_of_mem_pollEvents he hb
  · cases hb

theorem tickCount_promptRounds (words : List Word16) :
    tickCount ((words.map promptRound).flatMap PollRound.events) = 20 * words.length := by
  induction words with
  | nil => rfl
  | cons w words ih =>
    rw [List.map_cons, List.flatMap_cons, tickCount_append, ih, List.length_cons, PollRound.tickCount_events]
    change 0 + 20 + _ = _
    omega

/-- The polls go on while 20 ticks each do not reach the time-out. -/
theorem pollsContinue_prompt {timeout : Nat} {words : List Word16} (hm : ∀ w ∈ words, readyFlag (swap16 w) = false)
    {e : Nat} (hw : e + 20 * words.length < timeout + 20) : PollsContinue timeout e (words.map promptRound) := by
  induction words generalizing e with
  | nil => trivial
  | cons w words ih =>
    rw [List.length_cons] at hw
    obtain ⟨hmw, hmws⟩ := List.forall_mem_cons.1 hm
    refine ⟨rfl, rfl, hmw, ?_, Nat.le_refl 20, ih hmws ?_⟩
    · change e + 0 < timeout
      omega
    · change e + 0 + 20 + _ < _
      omega

theorem loopTicks_promptSchedule (words : List Word16) (lastWord : Word16) :
    (promptSchedule words lastWord).loopTicks = 20 * words.length :=
  tickCount_promptRounds words

theorem tickCount_promptSchedule (words : List Word16) (lastWord : Word16) :
    tickCount (promptSchedule words lastWord).events = 20 * words.length := by
  rw [FetchSchedule.events, tickCount_append]
  exact tickCount_promptRounds words

/-- From its acceptance on, the prompt schedule ends the fetch at the first multiple of 20 ticks that reaches the
time-out. -/
theorem promptSchedule_runsToEnd {timeout : Nat} {words : List Word16} {lastWord : Word16}
    (hm : ∀ w ∈ words, readyFlag (swap16 w) = false) (hlast : readyFlag (swap16 lastWord) = false)
    (hbelow : 20 * words.length < timeout + 20) (hreach : timeout ≤ 20 * words.length) :
    (promptSchedule words lastWord).RunsToEnd timeout 0 := by
  refine ⟨pollsContinue_prompt hm (by omega), rfl, ?_⟩
  rw [if_neg nofun, if_neg (by rw [promptSchedule, hlast]; nofun), loopTicks_promptSchedule, Nat.zero_add]
  exact ⟨rfl, hreach⟩

/-- Settles O60: the prompt schedule is one of those of O59, but that it needs no busy block. -/
theorem promptFetchTimesOut : Obligations.PromptFetchTimesOut := by
  intro s words lastWord rest k events hs hi hnow hin hlen hm hlast
  have helapsed : (s.now - s.t0).toNat = 0 := by rw [hnow, BitVec.sub_self]; rfl
  have hbound : s.timeout.toNat < 2 ^ 32 := s.timeout.isLt
  have hk : k = (s.timeout.toNat + 19) / 20 := rfl
  have hreach : s.timeout.toNat ≤ 20 * k := by omega
  have hbelow : 20 * k < s.timeout.toNat + 20 := by omega
  have hevents : (promptSchedule words lastWord).events = events := promptSchedule_events words lastWord
  have hruns : (promptSchedule words lastWord).RunsToEnd s.timeout.toNat (s.now - s.t0).toNat := by
    rw [helapsed]
    exact promptSchedule_runsToEnd hm hlast (hlen ▸ hbelow) (hlen ▸ hreach)
  have hlt : (s.now - s.t0).toNat + (promptSchedule words lastWord).loopTicks < 2 ^ 64 := by
    rw [helapsed, loopTicks_promptSchedule, hlen]; omega
  obtain ⟨t, hends, hout⟩ :=
    exists_fetchEnds_of_runsToEnd hs (undisturbed_promptSchedule s words lastWord) (hevents ▸ hin) hruns hlt
  rw [FetchOutcome, if_neg nofun, if_neg (by rw [promptSchedule, hlast]; nofun)] at hout
  obtain ⟨herr, hfetched, hraw, hts⟩ := hout
  rw [hevents] at hends
  refine ⟨t, (core_run_eq _ s).trans hends.run, hends.inbox, hends.seq, hends.busy, herr, hfetched, hraw, hts,
    hends.proc, ?polls, ?ticks, hreach, fun _ => hbelow⟩
  case polls =>
    have hpolls : (promptSchedule words lastWord).polls.length = k := (List.length_map _).trans hlen
    rw [hends.polls, pollsIssuedOrDue_of_due hs hi, hpolls, Nat.add_right_comm]
  case ticks =>
    rw [hends.now, ← hevents, tickCount_promptSchedule, hlen, elapsed_add _ _ _ (by omega), helapsed, Nat.zero_add]

end Sys2Proof.Machine
end

section
/-! The decoder: `DECODE` on both paths as arithmetic on the word's value, and what follows from it
(43_decode_scale.md). -/

namespace Sys2Proof.Machine

open Sys2Proof

/-! ## The two paths -/

/-- Masking with 0xFFF keeps the value modulo 4096. -/
theorem toNat_and_0xFFF (w : Word16) : (w &&& 0xFFF).toNat = w.toNat % 4096 := by
  rw [BitVec.toNat_and]
  exact Nat.and_two_pow_sub_one_eq_mod w.toNat 12

/-- The non-negative path. -/
theorem decodeCount_of_lt {raw : Word16} (h : raw.toNat < 0x8000) :
    decodeCount raw = ((raw.toNat / 8 : Nat) : Int) := by
  have hsign : raw.getLsbD 15 = false := by
    rw [← BitVec.msb_eq_getLsbD_last, BitVec.msb_eq_decide]
    exact decide_eq_false (by omega)
  rw [decodeCount, hsign, if_neg Bool.false_ne_true, toNat_and_0xFFF, BitVec.toNat_ushiftRight,
    Nat.shiftRight_eq_div_pow]
  omega

/-- The negative path: the complement of the quotient, cut to 12 bits, is what the quotient lacks of 4095. -/
theorem decodeCount_of_ge {raw : Word16} (h : 0x8000 ≤ raw.toNat) :
    decodeCount raw = ((raw.toNat - 1) / 8 % 4096 : Nat) - 4095 := by
  have hsign : raw.getLsbD 15 = true := by
    rw [← BitVec.msb_eq_getLsbD_last, BitVec.msb_eq_decide]
    exact decide_eq_true h
  have hq : (negativeQuotient raw).toNat = (raw.toNat - 1) / 8 := by
    rw [negativeQuotient, BitVec.toNat_ushiftRight, BitVec.toNat_sub_of_le (BitVec.le_def.2 (by simp; omega)),
      Nat.shiftRight_eq_div_pow]
    rfl
  rw [decodeCount, hsign, if_pos rfl, toNat_and_0xFFF, BitVec.toNat_not, hq]
  omega

/-- The count of a word by its value, on the path that its sign bit selects. -/
theorem decodeCount_cases (raw : Word16) :
    (raw.toNat < 0x8000 ∧ decodeCount raw = ((raw.toNat / 8 : Nat) : Int)) ∨
      (0x8000 ≤ raw.toNat ∧ decodeCount raw = ((raw.toNat - 1) / 8 % 4096 : Nat) - 4095) := by
  rcases Nat.lt_or_ge raw.toNat 0x8000 with h | h
  · exact .inl ⟨h, decodeCount_of_lt h⟩
  · exact .inr ⟨h, decodeCount_of_ge h⟩

/-! ## The closed forms -/

/-- A field of a word, from bit 3 up. -/
theorem toNat_extractLsb'_three (raw : Word16) (len : Nat) :
    (raw.extractLsb' 3 len).toNat = raw.toNat / 8 % 2 ^ len := by
  rw [BitVec.extractLsb'_toNat, Nat.shiftRight_eq_div_pow]

/-- `raw[2:0]`. -/
theorem toNat_extractLsb'_zero_three (raw : Word16) : (raw.extractLsb' 0 3).toNat = raw.toNat % 8 := by
  rw [BitVec.extractLsb'_toNat, Nat.shiftRight_zero]

/-- `raw[15:3]` read as two's complement. -/
theorem toInt_extractLsb'_three_thirteen (raw : Word16) :
    (raw.extractLsb' 3 13).toInt =
      if raw.toNat < 0x8000 then ((raw.toNat / 8 : Nat) : Int) else ((raw.toNat / 8 : Nat) : Int) - 8192 := by
  have hlt : raw.toNat < 0x10000 := raw.isLt
  rw [BitVec.toInt_eq_toNat_cond, toNat_extractLsb'_three]
  omega

/-- Settles O15: on the negative path `raw - 1` borrows from `raw[15:3]` exactly where `j` = 0. -/
theorem decodeClosedForms : Obligations.DecodeClosedForms := by
  intro raw k j
  have hk : k = raw.toNat / 8 % 4096 := toNat_extractLsb'_three raw 12
  have hj : j = raw.toNat % 8 := toNat_extractLsb'_zero_three raw
  have hlt : raw.toNat < 0x10000 := raw.isLt
  have hdecode := decodeCount_cases raw
  refine ⟨fun _ => ⟨?_, ?_⟩, fun _ _ _ => ?_, fun _ _ _ => ?_, fun _ _ => ?_⟩ <;> omega

/-- Settles O17: `T` is `raw[15:3]`, less 8192 from 0x8000 on, and `DECODE` rounds toward zero where `T` rounds
down. -/
theorem decodeVersusTwosComplement : Obligations.DecodeVersusTwosComplement := by
  intro raw T k j
  have hk : k = raw.toNat / 8 % 4096 := toNat_extractLsb'_three raw 12
  have hj : j = raw.toNat % 8 := toNat_extractLsb'_zero_three raw
  have hlt : raw.toNat < 0x10000 := raw.isLt
  have hT : T = if raw.toNat < 0x8000 then _ else _ := toInt_extractLsb'_three_thirteen raw
  have hdecode := decodeCount_cases raw
  refine ⟨fun _ => ?_, fun _ _ _ => ?_, fun _ _ => ?_, fun hraw => ?_⟩
  case refine_4 =>
    have h8000 : raw.toNat = 0x8000 := congrArg BitVec.toNat hraw
    omega
  all_goals omega

/-! ## The range -/

theorem decodeCount_bounds (raw : Word16) : -4095 ≤ decodeCount raw ∧ decodeCount raw ≤ 4095 := by
  have hdecode := decodeCount_cases raw
  omega

/-- Every count has a word: `8 * n` at `n ≥ 0`, and below 0 the negation of the word of `-n`. -/
theorem exists_decodeCount_eq {n : Int} (hlo : -4095 ≤ n) (hhi : n ≤ 4095) : ∃ raw : Word16, decodeCount raw = n := by
  obtain ⟨v, hv, hvn⟩ : ∃ v : Nat, v < 2 ^ 16 ∧ (v : Int) = if 0 ≤ n then 8 * n else 65536 + 8 * n :=
    ⟨(if 0 ≤ n then 8 * n else 65536 + 8 * n).toNat, by omega, by omega⟩
  have htoNat : (BitVec.ofNat 16 v).toNat = v := Nat.mod_eq_of_lt hv
  have hdecode := decodeCount_cases (BitVec.ofNat 16 v)
  exact ⟨BitVec.ofNat 16 v, by omega⟩

/-- Settles O16: each value's words are read off the two paths. -/
theorem decodeRangeAndZeros : Obligations.DecodeRangeAndZeros := by
  refine ⟨decodeCount_bounds, fun n => exists_decodeCount_eq, fun raw => ?zeros, fun raw => ?greatest,
    fun raw => ?least⟩ <;>
  · have hlt : raw.toNat < 0x10000 := raw.isLt
    have hdecode := decodeCount_cases raw
    omega

/-- Settles O18: negation exchanges the two paths, but for 0x0000 and 0x8000, whose counts are 0. -/
theorem decodeOfNegation : Obligations.DecodeOfNegation := by
  intro raw
  have hlt : raw.toNat < 0x10000 := raw.isLt
  have hneg : (BitVec.ofNat 16 (0x10000 - raw.toNat)).toNat = (0x10000 - raw.toNat) % 0x10000 :=
    BitVec.toNat_ofNat _ _
  have hdecode := decodeCount_cases raw
  have hdecodeNeg := decodeCount_cases (BitVec.ofNat 16 (0x10000 - raw.toNat))
  omega

end Sys2Proof.Machine
end

section
/-! Binary64: the one equation of each operation, when it is a NaN and what its draw can change, its rounding, and the
values that convert exactly (43_decode_scale.md R210, R211, R218). -/

namespace Sys2Proof.Machine

open Sys2Proof

/-- An integer by its sign and its magnitude. -/
theorem eq_signed_natAbs (n : Int) : n = if decide (n < 0) then -(n.natAbs : Int) else (n.natAbs : Int) := by
  by_cases h : n < 0
  · rw [decide_eq_true h, if_pos rfl]
    omega
  · rw [decide_eq_false h, if_neg Bool.false_ne_true]
    omega

/-- Scaling a signed magnitude scales the magnitude. -/
theorem signed_mul_natCast (neg : Bool) (m k : Nat) :
    (if neg then -(m : Int) else (m : Int)) * k = if neg then -((m * k : Nat) : Int) else ((m * k : Nat) : Int) := by
  cases neg
  · exact (Int.natCast_mul m k).symm
  · rw [if_pos rfl, if_pos rfl, Int.neg_mul, Int.natCast_mul]

/-- The product of two signed magnitudes. -/
theorem signed_mul_signed (neg neg' : Bool) (m k : Nat) :
    (if neg then -(m : Int) else (m : Int)) * (if neg' then -(k : Int) else (k : Int)) =
      if neg ^^ neg' then -((m * k : Nat) : Int) else ((m * k : Nat) : Int) := by
  rw [← signed_mul_natCast]
  cases neg'
  · rw [Bool.xor_false, if_neg Bool.false_ne_true]
  · rw [Bool.xor_true, if_pos rfl, Int.mul_neg, ← Int.neg_mul]
    cases neg
    · rfl
    · exact congrArg (· * (k : Int)) (Int.neg_neg m)

theorem isFinite_of_isZero {a : F64} (h : isZero a = true) : isFinite a = true := by
  have hm : magnitude a = 0 := of_decide_eq_true h
  exact decide_eq_true (hm ▸ by decide)

/-! ## When an operation gives a NaN -/

/-- The operands of which `fmul` gives a NaN. -/
def mulInvalid (a b : F64) : Bool := isNaN a || isNaN b || (isInf a && isZero b) || (isZero a && isInf b)

/-- The operands of which `fdiv` gives a NaN. -/
def divInvalid (a b : F64) : Bool := isNaN a || isNaN b || (isInf a && isInf b) || (isZero a && isZero b)

/-- The operands of which `fadd` gives a NaN. -/
def addInvalid (a b : F64) : Bool := isNaN a || isNaN b || (isInf a && isInf b && (negative a != negative b))

/-- The magnitude pattern of a product that is no NaN. -/
def mulMagnitude (a b : F64) : Nat :=
  if isInf a || isInf b then infMagnitude else roundUnits (units a * units b) unitsInOne

/-- The magnitude pattern of a quotient that is no NaN. -/
def divMagnitude (a b : F64) : Nat :=
  if isInf a then infMagnitude
  else if isInf b then 0
  else if isZero b then infMagnitude else roundUnits (units a * unitsInOne) (units b)

/-- A sum that is no NaN. -/
def addValue (a b : F64) : F64 :=
  if isInf a then a
  else if isInf b then b
  else if signedUnits a + signedUnits b = 0 then withSign (negative a && negative b) 0
  else withSign (decide (signedUnits a + signedUnits b < 0)) (roundUnits (signedUnits a + signedUnits b).natAbs 1)

theorem mulMagnitude_le (a b : F64) : mulMagnitude a b ≤ infMagnitude := by
  unfold mulMagnitude
  split
  · exact Nat.le_refl _
  · exact roundUnits_le _ _

theorem divMagnitude_le (a b : F64) : divMagnitude a b ≤ infMagnitude := by
  unfold divMagnitude
  split
  · exact Nat.le_refl _
  split
  · exact Nat.zero_le _
  split
  · exact Nat.le_refl _
  · exact roundUnits_le _ _

theorem isNaN_addValue (a b : F64) : isNaN (addValue a b) = false := by
  unfold addValue
  split
  next ha => exact (isInf_excludes ha).1
  split
  next hb => exact (isInf_excludes hb).1
  split
  · exact isNaN_withSign _ _ (Nat.zero_le _)
  · exact isNaN_withSign _ _ (roundUnits_le _ _)

theorem not_isZero_of_isInf {a : F64} (h : isInf a = true) : isZero a = false := (isInf_excludes h).2

/-- A product is a drawn NaN or a signed magnitude. -/
theorem fmul_eq (draw : Nat) (a b : F64) :
    fmul draw a b =
      if mulInvalid a b then freeNaN draw else withSign (negative a ^^ negative b) (mulMagnitude a b) := by
  unfold fmul mulInvalid mulMagnitude
  cases isNaN a || isNaN b
  case true => simp
  case false =>
    cases ha : isInf a <;> cases hb : isInf b <;> simp [ha, hb, not_isZero_of_isInf]

/-- A quotient is a drawn NaN or a signed magnitude. -/
theorem fdiv_eq (draw : Nat) (a b : F64) :
    fdiv draw a b =
      if divInvalid a b then freeNaN draw else withSign (negative a ^^ negative b) (divMagnitude a b) := by
  unfold fdiv divInvalid divMagnitude
  cases isNaN a || isNaN b
  case true => simp
  case false =>
    cases ha : isInf a <;> cases hb : isInf b <;> simp [ha, hb, not_isZero_of_isInf]
    case false.false => cases isZero b <;> simp

/-- A sum is a drawn NaN or a value that the draw does not touch. -/
theorem fadd_eq (draw : Nat) (a b : F64) :
    fadd draw a b = if addInvalid a b then freeNaN draw else addValue a b := by
  unfold fadd addInvalid addValue
  cases isNaN a || isNaN b
  case true => simp
  case false =>
    cases ha : isInf a <;> cases hb : isInf b <;> simp

/-- `f` gives the NaN it draws exactly for the operands that `invalid` names; elsewhere its result is no NaN and the
same for every draw. -/
def DrawsExactlyWhen (f : Nat → F64 → F64 → F64) (invalid : F64 → F64 → Bool) : Prop :=
  ∀ a b, ∃ r, isNaN r = false ∧ ∀ draw, f draw a b = if invalid a b then freeNaN draw else r

theorem fmul_drawsExactlyWhen : DrawsExactlyWhen fmul mulInvalid := fun a b =>
  ⟨_, isNaN_withSign _ _ (mulMagnitude_le a b), fun draw => fmul_eq draw a b⟩

theorem fdiv_drawsExactlyWhen : DrawsExactlyWhen fdiv divInvalid := fun a b =>
  ⟨_, isNaN_withSign _ _ (divMagnitude_le a b), fun draw => fdiv_eq draw a b⟩

theorem fadd_drawsExactlyWhen : DrawsExactlyWhen fadd addInvalid := fun a b =>
  ⟨_, isNaN_addValue a b, fun draw => fadd_eq draw a b⟩

section

variable {f : Nat → F64 → F64 → F64} {invalid : F64 → F64 → Bool}

theorem DrawsExactlyWhen.isNaN_eq (hf : DrawsExactlyWhen f invalid) (draw : Nat) (a b : F64) :
    isNaN (f draw a b) = invalid a b := by
  obtain ⟨r, hr, heq⟩ := hf a b
  rw [heq]
  cases invalid a b
  · exact hr
  · exact isNaN_freeNaN draw

/-- The draw shows in the pattern of a NaN alone. -/
theorem DrawsExactlyWhen.eq_or_isNaN (hf : DrawsExactlyWhen f invalid) (draw draw' : Nat) (a b : F64) :
    f draw a b = f draw' a b ∨ invalid a b = true := by
  obtain ⟨r, -, heq⟩ := hf a b
  cases h : invalid a b
  · exact .inl (by simp only [heq, h, Bool.false_eq_true, if_false])
  · exact .inr rfl

/-- A result computed at one draw is the result at every draw, if it is no NaN. -/
theorem DrawsExactlyWhen.eq_at_every_draw (hf : DrawsExactlyWhen f invalid) {draw : Nat} {a b r : F64}
    (h : f draw a b = r) (hr : isNaN r = false) (draw' : Nat) : f draw' a b = r := by
  rcases hf.eq_or_isNaN draw' draw a b with heq | hnan
  · exact heq.trans h
  · rw [← hf.isNaN_eq draw, h, hr] at hnan
    cases hnan

/-- The same operands give the same value, whatever is drawn, if NaN operands give NaNs. -/
theorem DrawsExactlyWhen.sameValue (hf : DrawsExactlyWhen f invalid)
    (hnan : ∀ {a b}, (isNaN a || isNaN b) = true → invalid a b = true) {a a' b b' : F64} (ha : SameValue a a')
    (hb : SameValue b b') (draw draw' : Nat) : SameValue (f draw a b) (f draw' a' b') := by
  simp only [SameValue, hf.isNaN_eq]
  rcases ha with rfl | ⟨ha, ha'⟩
  · rcases hb with rfl | ⟨hb, hb'⟩
    · exact (hf.eq_or_isNaN draw draw' a b).imp id fun h => ⟨h, h⟩
    · exact .inr ⟨hnan (by simp [hb]), hnan (by simp [hb'])⟩
  · exact .inr ⟨hnan (by simp [ha]), hnan (by simp [ha'])⟩

end

/-- Settles O22: each operation draws exactly for the operands that the statement lists. -/
theorem nanResults : Obligations.NaNResults := fun draw a b =>
  ⟨fmul_drawsExactlyWhen.isNaN_eq draw a b, fdiv_drawsExactlyWhen.isNaN_eq draw a b,
    fadd_drawsExactlyWhen.isNaN_eq draw a b⟩

/-! ## Exact values -/

theorem lt_of_patternUnits_lt {m n : Nat} (h : patternUnits m < patternUnits n) : m < n :=
  Nat.lt_of_not_le fun hle => Nat.not_le_of_lt h (patternUnits_mono hle)

/-- A ratio that is a finite magnitude is rounded to itself. -/
theorem roundUnits_of_patternUnits {c : Nat} (hc : c < infMagnitude) {d : Nat} (hd : 0 < d) :
    roundUnits (patternUnits c * d) d = c := by
  obtain ⟨p, m, hlo, hhi, hm, hcases⟩ := roundUnits_cases (patternUnits c * d) d hd
  have hcp : c < p + 1 := lt_of_patternUnits_lt (Nat.lt_of_mul_lt_mul_right hhi)
  have hpc : p < c + 1 :=
    lt_of_patternUnits_lt (Nat.lt_of_le_of_lt (Nat.le_of_mul_le_mul_right hlo hd) (patternUnits_lt_succ c))
  obtain rfl : p = c := by omega
  rw [Nat.add_mul] at hcases
  omega

theorem roundUnits_zero {d : Nat} (hd : 0 < d) : roundUnits 0 d = 0 := by
  have h := roundUnits_of_patternUnits (c := 0) (by decide) hd
  rwa [show patternUnits 0 = 0 from rfl, Nat.zero_mul] at h

/-- A number of at most 53 bits, scaled by a power that leaves it in the exponents' range, is a pattern: shifted up to
53 bits, it is the fraction with its leading 1. -/
theorem exists_patternUnits_eq {m : Nat} (hm : m < 2 ^ 53) {k : Nat} (hk : k < 1993) :
    ∃ c < infMagnitude, patternUnits c = m * 2 ^ (k + 52) := by
  rcases Nat.eq_zero_or_pos m with rfl | hpos
  · exact ⟨0, by decide, by rw [Nat.zero_mul]; rfl⟩
  · have hne : m ≠ 0 := Nat.ne_of_gt hpos
    have hlog : m.log2 ≤ 52 := Nat.le_of_lt_succ ((Nat.log2_lt hne).2 hm)
    have hlo : 2 ^ 52 ≤ m * 2 ^ (52 - m.log2) := calc
      2 ^ 52 = 2 ^ m.log2 * 2 ^ (52 - m.log2) := by rw [← Nat.pow_add, Nat.add_sub_cancel' hlog]
      _ ≤ m * 2 ^ (52 - m.log2) := Nat.mul_le_mul_right _ (Nat.log2_self_le hne)
    have hhi : m * 2 ^ (52 - m.log2) ≤ 2 ^ 53 := calc
      m * 2 ^ (52 - m.log2) ≤ 2 ^ (m.log2 + 1) * 2 ^ (52 - m.log2) :=
        Nat.mul_le_mul_right _ (Nat.le_of_lt Nat.lt_log2_self)
      _ = 2 ^ 53 := by rw [← Nat.pow_add]; congr 1; omega
    refine ⟨(k + m.log2) * 2 ^ 52 + m * 2 ^ (52 - m.log2), by unfold infMagnitude; omega, ?_⟩
    rw [patternUnits_parts _ _ (.inr hlo) hhi, Nat.mul_assoc, ← Nat.pow_add]
    congr 2
    omega

theorem unitsInOne_eq : unitsInOne = 2 ^ (1022 + 52) := by
  unfold unitsInOne
  rfl

/-- An integer of at most 53 bits converts exactly. -/
theorem f64OfInt_exact {n : Int} (hn : n.natAbs < 2 ^ 53) :
    isFinite (f64OfInt n) = true ∧ signedUnits (f64OfInt n) = n * unitsInOne := by
  obtain ⟨c, hc, hunits⟩ := exists_patternUnits_eq hn (k := 1022) (by omega)
  rw [← unitsInOne_eq] at hunits
  have hround : f64OfInt n = withSign (decide (n < 0)) c := by
    have h := roundUnits_of_patternUnits hc Nat.one_pos
    rw [Nat.mul_one, hunits] at h
    rw [f64OfInt, h]
  have hlt : c < 2 ^ 63 := Nat.lt_trans hc infMagnitude_lt
  rw [hround]
  refine ⟨?_, ?_⟩
  · rw [isFinite, magnitude_withSign _ _ hlt]
    exact decide_eq_true hc
  · rw [signedUnits_withSign _ _ hlt, hunits]
    rw [← signed_mul_natCast, ← eq_signed_natAbs]

theorem f64OfInt_zero : f64OfInt 0 = 0x0000000000000000 := by
  rw [f64OfInt, Int.natAbs_zero, Nat.zero_mul, roundUnits_zero Nat.one_pos]
  decide

/-- Settles O24: a count has 12 bits. -/
theorem countsConvertExactly : Obligations.CountsConvertExactly :=
  ⟨f64OfInt_zero, fun _ hlo hhi => f64OfInt_exact (by omega)⟩

/-! ## Rounding -/

/-- A ratio given by its sign and its magnitude is rounded once. -/
theorem roundedOnce_of_eq {n : Int} {neg : Bool} {m d : Nat} (hn : n = if neg then -(m : Int) else (m : Int))
    (hd : 0 < d) : RoundedOnce n d (withSign neg (roundUnits m d)) :=
  hn ▸ roundedOnce_withSign neg m d hd

theorem signedUnits_mul_signedUnits (a b : F64) :
    signedUnits a * signedUnits b =
      if negative a ^^ negative b then -((units a * units b : Nat) : Int) else ((units a * units b : Nat) : Int) :=
  signed_mul_signed (negative a) (negative b) (units a) (units b)

/-- The dividend of a quotient of values, with the divisor's sign carried over to it. -/
theorem signed_dividend (a b : F64) (k : Nat) :
    (if negative b then -1 else 1) * signedUnits a * k =
      if negative a ^^ negative b then -((units a * k : Nat) : Int) else ((units a * k : Nat) : Int) := by
  have hsign : (if negative b then -1 else 1) * signedUnits a =
      if negative a ^^ negative b then -((units a * 1 : Nat) : Int) else ((units a * 1 : Nat) : Int) := by
    rw [Int.mul_comm]
    exact signed_mul_signed (negative a) (negative b) (units a) 1
  rw [hsign, Nat.mul_one, signed_mul_natCast]

theorem units_pos {a : F64} (h : isZero a = false) : 0 < units a := by
  have hm : magnitude a ≠ 0 := of_decide_eq_false h
  rw [units_eq]
  exact Nat.lt_of_lt_of_le (patternUnits_lt_succ 0) (patternUnits_mono (Nat.one_le_iff_ne_zero.2 hm))

theorem negative_of_signedMagnitude {invalid : Bool} {draw m : Nat} {neg : Bool} {r : F64}
    (hr : r = if invalid then freeNaN draw else withSign neg m) (h : isNaN r = false) : negative r = neg := by
  subst hr
  cases invalid
  · exact negative_withSign neg m
  · rw [if_pos rfl, isNaN_freeNaN] at h
    cases h

/-- Settles O19: one rounding of the product of the magnitudes, under the product of the signs. -/
theorem mulRoundsToNearestEven : Obligations.MulRoundsToNearestEven := by
  intro draw a b
  refine ⟨fun ha hb => ?finite, fun ha hnan hz => ?left, fun hb hnan hz => ?right,
    negative_of_signedMagnitude (fmul_eq draw a b)⟩
  case finite =>
    rw [fmul_finite draw ha hb]
    exact roundedOnce_of_eq (signedUnits_mul_signedUnits a b) unitsInOne_pos
  case left => simp [fmul_eq, mulInvalid, mulMagnitude, ha, hnan, hz, isInf_excludes ha]
  case right => simp [fmul_eq, mulInvalid, mulMagnitude, hb, hnan, hz, isInf_excludes hb]

/-- Settles O21: one rounding of the quotient of the magnitudes, under the product of the signs. -/
theorem divRoundsToNearestEven : Obligations.DivRoundsToNearestEven := by
  intro draw a b
  refine ⟨fun ha hb hz => ?finite, fun hnan hza hzb => ?zeroDivisor, fun ha hb => ?infiniteDividend,
    fun ha hb => ?infiniteDivisor, negative_of_signedMagnitude (fdiv_eq draw a b)⟩
  case finite =>
    rw [fdiv_finite draw ha hb hz]
    exact roundedOnce_of_eq (signed_dividend a b unitsInOne) (units_pos hz)
  case zeroDivisor =>
    simp [fdiv_eq, divInvalid, divMagnitude, hnan, hza, hzb, isFinite_excludes (isFinite_of_isZero hzb)]
  case infiniteDividend => simp [fdiv_eq, divInvalid, divMagnitude, ha, isInf_excludes ha, isFinite_excludes hb]
  case infiniteDivisor => simp [fdiv_eq, divInvalid, divMagnitude, hb, isInf_excludes hb, isFinite_excludes ha]

/-- Settles O20: one rounding of the sum; a sum of zero rounds to a zero of either sign. -/
theorem addRoundsToNearestEven : Obligations.AddRoundsToNearestEven := by
  intro draw a b
  refine ⟨fun ha hb => ?finite, fun ha hb => ?left, fun ha hb => ?right, fun ha hb hneg => ?both⟩
  case finite =>
    rw [fadd_finite draw ha hb]
    generalize signedUnits a + signedUnits b = sum
    split
    next hzero =>
      rw [← roundUnits_zero Nat.one_pos]
      exact roundedOnce_of_eq (by simp [hzero]) Nat.one_pos
    next => exact roundedOnce_of_eq (eq_signed_natAbs sum) Nat.one_pos
  case left => simp [fadd_eq, addInvalid, addValue, ha, isInf_excludes ha, isFinite_excludes hb]
  case right => simp [fadd_eq, addInvalid, addValue, hb, isInf_excludes hb, isFinite_excludes ha]
  case both => simp [fadd_eq, addInvalid, addValue, ha, hb, hneg, isInf_excludes ha, isInf_excludes hb]

end Sys2Proof.Machine
end

section
/-! The command `PROCESS`: scaling, the derived quantities, and what the processed sample depends on
(43_decode_scale.md R213 to R226). -/

namespace Sys2Proof.Machine

open Sys2Proof

/-! ## Scaling -/

theorem scale_binary64 (draw : Nat) (raw : Word16) (coeff : F64) :
    scale binary64 draw raw coeff = fmul draw (f64OfInt (decodeCount raw)) coeff := rfl

theorem loadVoltage_binary64 (draw : Nat) (bus shunt : F64) :
    loadVoltage binary64 draw bus shunt = fadd (draw + 1) bus (fdiv draw shunt 0x408F400000000000) := rfl

theorem current_binary64 (draw : Nat) (shunt r : F64) : current binary64 draw shunt r = fdiv draw shunt r := rfl

theorem power_binary64 (draw : Nat) (load i : F64) : power binary64 draw load i = fmul draw load i := rfl

/-- A count is a finite value. -/
theorem isFinite_f64OfInt_decodeCount (raw : Word16) : isFinite (f64OfInt (decodeCount raw)) = true := by
  obtain ⟨hlo, hhi⟩ := decodeCount_bounds raw
  exact (f64OfInt_exact (by omega)).1

/-- +0.0 times a finite value is a zero of the value's sign. -/
theorem fmul_zero_finite (draw : Nat) {b : F64} (hb : isFinite b = true) :
    fmul draw 0x0000000000000000 b = withSign (negative b) 0 := by
  rw [fmul_finite draw (by decide) hb, show units 0x0000000000000000 = 0 by decide, Nat.zero_mul,
    roundUnits_zero unitsInOne_pos, show negative 0x0000000000000000 = false by decide, Bool.false_xor]

theorem scale_of_zero_count (draw : Nat) {raw : Word16} (hzero : decodeCount raw = 0) {coeff : F64}
    (hfin : isFinite coeff = true) : scale binary64 draw raw coeff = withSign (negative coeff) 0 := by
  rw [scale_binary64, hzero, f64OfInt_zero, fmul_zero_finite draw hfin]

/-- Settles O23: a zero count converts to +0.0, and a zero times an infinity is a NaN. -/
theorem scaleOfACount : Obligations.ScaleOfACount := by
  intro draw raw coeff
  refine ⟨rfl, fun hzero hfin hneg => ?plus, fun hzero hfin hneg => ?minus, fun hzero hfin => ?nan, ?worked⟩
  case plus =>
    rw [scale_of_zero_count draw hzero hfin, hneg]
    decide
  case minus =>
    rw [scale_of_zero_count draw hzero hfin, hneg]
    decide
  case nan =>
    rw [scale_binary64, hzero, f64OfInt_zero, fmul_drawsExactlyWhen.isNaN_eq, mulInvalid,
      show isZero 0x0000000000000000 = true by decide]
    rcases pattern_cases coeff with h | h | h
    · simp [h]
    · simp [h]
    · simp [h] at hfin
  case worked =>
    rw [scale_binary64]
    exact fmul_drawsExactlyWhen.eq_at_every_draw (draw := 0) (by decide +kernel) (by decide) draw

/-! ## The source's check -/

/-- Settles O25: each binary64 operation computed at one draw; the rational ones by arithmetic. -/
theorem sourceDerivedQuantityCheck : Obligations.SourceDerivedQuantityCheck := by
  have hdiv : ∀ draw, fdiv draw 0x4044000000000000 0x408F400000000000 = 0x3FA47AE147AE147B :=
    fdiv_drawsExactlyWhen.eq_at_every_draw (draw := 0) (by decide +kernel) (by decide)
  have hadd : ∀ draw, fadd draw 0x4028000000000000 0x3FA47AE147AE147B = 0x4028147AE147AE14 :=
    fadd_drawsExactlyWhen.eq_at_every_draw (draw := 0) (by decide +kernel) (by decide)
  have hcurrent : ∀ draw, fdiv draw 0x4044000000000000 0x3FB999999999999A = 0x4079000000000000 :=
    fdiv_drawsExactlyWhen.eq_at_every_draw (draw := 0) (by decide +kernel) (by decide)
  have hpower : ∀ draw, fmul draw 0x4028147AE147AE14 0x4079000000000000 = 0x40B2D00000000000 :=
    fmul_drawsExactlyWhen.eq_at_every_draw (draw := 0) (by decide +kernel) (by decide)
  have hshunt : ∀ draw, fmul draw (f64OfInt (decodeCount 0x1F40)) 0x3FA47AE147AE147B = 0x4044000000000000 :=
    fmul_drawsExactlyWhen.eq_at_every_draw (draw := 0) (by decide +kernel) (by decide)
  have hbus : ∀ draw, fmul draw (f64OfInt (decodeCount 0x2EE0)) 0x3F80624DD2F1A9FC = 0x4028000000000000 :=
    fmul_drawsExactlyWhen.eq_at_every_draw (draw := 0) (by decide +kernel) (by decide)
  refine ⟨fun draw => ?binary64, decodeCount_of_lt (by decide), decodeCount_of_lt (by decide), fun draw => ?rational⟩
  case binary64 =>
    rw [loadVoltage_binary64, current_binary64, power_binary64, scale_binary64, scale_binary64, hdiv, hadd, hadd]
    exact ⟨rfl, rfl, rfl, hcurrent draw, hpower draw, hshunt draw, hbus draw⟩
  case rational =>
    simp only [loadVoltage, current, power, rational]
    decide +kernel

/-! ## The command -/

/-- `PROCESS` while the block is busy, and while it is not. -/
theorem exec_process_eq (ignored : BitVec 60) (s : State) :
    exec (.process ignored) s =
      .next (if s.busy then s.record (.hostWrite 0#6 (commandWord ignored 0x3#4))
        else processSample (s.record (.hostWrite 0#6 (commandWord ignored 0x3#4)))) := by
  cases hb : s.busy <;> simp [exec, execProcess, State.accepts, hb]

/-- Each channel's values are computed alike, from a draw index of its own. -/
theorem exists_processedSample_get (draw : Nat) (raw : RawSample) (cal : Calibration) (c : Channel) :
    ∃ k, (processedSample draw raw cal).get c = processChannel k raw cal c := by
  cases c <;> exact ⟨_, rfl⟩

/-- What an idle block's `PROCESS` writes of a channel, and what it rests on and leaves as it was. -/
theorem exec_process_idle {ignored : BitVec 60} {s t : State} (hidle : s.busy = false)
    (h : exec (.process ignored) s = .next t) :
    (∀ c, ∃ k, t.proc.get c = processChannel k s.raw s.cal c) ∧ t.busy = false ∧ t.raw = s.raw ∧ t.cal = s.cal := by
  rw [exec_process_eq, hidle, if_neg Bool.false_ne_true] at h
  injection h with h
  subst h
  exact ⟨exists_processedSample_get s.draws s.raw s.cal, hidle, rfl, rfl⟩

/-- Settles O29: the five values are those of `processChannel`, operation by operation. -/
theorem processComputesSample : Obligations.ProcessComputesSample := by
  intro ignored s
  refine ⟨fun hidle => ?accepted, fun hbusy => ?ignored⟩
  case accepted =>
    refine ⟨processedSample s.draws s.raw s.cal, s.draws + 3 * drawsPerChannel, ?_, fun c => ?_⟩
    · simp [exec_process_eq, hidle, processSample, State.record]
    · obtain ⟨k, hk⟩ := exists_processedSample_get s.draws s.raw s.cal c
      rw [hk]
      exact ⟨_, _, _, _, _, _, rfl, rfl, rfl, rfl, rfl⟩
  case ignored => simp [exec_process_eq, hbusy, State.record]

/-! ## What the processed values rest on -/

/-- A finite coefficient scales every word to a value that is no NaN. -/
theorem isNaN_scale (draw : Nat) (raw : Word16) {coeff : F64} (h : isFinite coeff = true) :
    isNaN (scale binary64 draw raw coeff) = false := by
  rw [scale_binary64, fmul_finite draw (isFinite_f64OfInt_decodeCount raw) h]
  exact isNaN_withSign _ _ (roundUnits_le _ _)

/-- A finite, non-zero resistance divides a value that is no NaN into one that is none. -/
theorem isNaN_current (draw : Nat) {shunt r : F64} (hs : isNaN shunt = false) (hr : isFinite r = true)
    (hz : isZero r = false) : isNaN (current binary64 draw shunt r) = false := by
  refine (fdiv_drawsExactlyWhen.isNaN_eq draw shunt r).trans ?_
  simp [divInvalid, hs, hz, isFinite_excludes hr]

/-- What an ordinary calibration gives each channel. -/
theorem Calibration.finite_of_ordinary {cal : Calibration} (h : cal.ordinary = true) :
    isFinite cal.shuntLsb = true ∧ isFinite cal.busLsb = true ∧
      ∀ c, isFinite (cal.rshunt.get c) = true ∧ isZero (cal.rshunt.get c) = false := by
  simp only [Calibration.ordinary, Bool.and_eq_true, Bool.not_eq_true'] at h
  obtain ⟨⟨⟨⟨hshunt, hbus⟩, h0⟩, h1⟩, h2⟩ := h
  refine ⟨hshunt, hbus, fun c => ?_⟩
  cases c with
  | ch0 => exact h0
  | ch1 => exact h1
  | ch2 => exact h2

/-- Settles O26: the scaled values are products of finite factors, and the current divides one of them. -/
theorem ordinaryCalibrationGivesNoNaN : Obligations.OrdinaryCalibrationGivesNoNaN := by
  intro ignored s hidle hord
  obtain ⟨hshunt, hbus, hr⟩ := Calibration.finite_of_ordinary hord
  refine ⟨_, exec_process_eq ignored s, fun c => ?_⟩
  obtain ⟨k, hk⟩ := (exec_process_idle hidle (exec_process_eq ignored s)).1 c
  rw [hk]
  exact ⟨isNaN_scale _ _ hshunt, isNaN_scale _ _ hbus, isNaN_current _ (isNaN_scale _ _ hshunt) (hr c).1 (hr c).2⟩

theorem SameValue.refl (a : F64) : SameValue a a := .inl rfl

theorem SameValue.fmul {a a' b b' : F64} (ha : SameValue a a') (hb : SameValue b b') (draw draw' : Nat) :
    SameValue (fmul draw a b) (fmul draw' a' b') :=
  fmul_drawsExactlyWhen.sameValue (fun h => by simp [mulInvalid, h]) ha hb draw draw'

theorem SameValue.fdiv {a a' b b' : F64} (ha : SameValue a a') (hb : SameValue b b') (draw draw' : Nat) :
    SameValue (fdiv draw a b) (fdiv draw' a' b') :=
  fdiv_drawsExactlyWhen.sameValue (fun h => by simp [divInvalid, h]) ha hb draw draw'

theorem SameValue.fadd {a a' b b' : F64} (ha : SameValue a a') (hb : SameValue b b') (draw draw' : Nat) :
    SameValue (fadd draw a b) (fadd draw' a' b') :=
  fadd_drawsExactlyWhen.sameValue (fun h => by simp [addInvalid, h]) ha hb draw draw'

/-- A channel's values depend on its raw words, the coefficients and its resistance alone: each operation is applied
to the same values. -/
theorem sameChannel_processChannel (k k' : Nat) {raw raw' : RawSample} {cal cal' : Calibration} {c : Channel}
    (hshunt : raw.shunt.get c = raw'.shunt.get c) (hbus : raw.bus.get c = raw'.bus.get c)
    (hshuntLsb : cal.shuntLsb = cal'.shuntLsb) (hbusLsb : cal.busLsb = cal'.busLsb)
    (hr : cal.rshunt.get c = cal'.rshunt.get c) :
    SameChannel (processChannel k raw cal c) (processChannel k' raw' cal' c) := by
  simp only [SameChannel, processChannel, hshunt, hbus, hshuntLsb, hbusLsb, hr]
  have hs := (SameValue.refl (f64OfInt (decodeCount (raw'.shunt.get c)))).fmul (SameValue.refl cal'.shuntLsb) k k'
  have hb := (SameValue.refl (f64OfInt (decodeCount (raw'.bus.get c)))).fmul (SameValue.refl cal'.busLsb) (k + 1)
    (k' + 1)
  have hl := hb.fadd (hs.fdiv (SameValue.refl 0x408F400000000000) (k + 2) (k' + 2)) (k + 3) (k' + 3)
  have hi := hs.fdiv (SameValue.refl (cal'.rshunt.get c)) (k + 4) (k' + 4)
  exact ⟨hs, hb, hl, hi, hl.fmul hi (k + 5) (k' + 5)⟩

/-- After `PROCESS` two idle blocks that agree on what a channel's values rest on agree on these. -/
theorem sameChannel_of_exec_process {ig ig' : BitVec 60} {s s' t t' : State} {c : Channel} (hidle : s.busy = false)
    (hidle' : s'.busy = false) (hshunt : s.raw.shunt.get c = s'.raw.shunt.get c)
    (hbus : s.raw.bus.get c = s'.raw.bus.get c) (hshuntLsb : s.cal.shuntLsb = s'.cal.shuntLsb)
    (hbusLsb : s.cal.busLsb = s'.cal.busLsb) (hr : s.cal.rshunt.get c = s'.cal.rshunt.get c)
    (h : exec (.process ig) s = .next t) (h' : exec (.process ig') s' = .next t') :
    SameChannel (t.proc.get c) (t'.proc.get c) := by
  obtain ⟨k, hk⟩ := (exec_process_idle hidle h).1 c
  obtain ⟨k', hk'⟩ := (exec_process_idle hidle' h').1 c
  rw [hk, hk']
  exact sameChannel_processChannel k k' hshunt hbus hshuntLsb hbusLsb hr

/-- Settles O30: `PROCESS` changes neither the raw sample nor the calibration, so a second one computes from what the
first computed from. -/
theorem processIsFunctionOfChannel : Obligations.ProcessIsFunctionOfChannel := by
  refine ⟨fun _ _ _ _ _ _ _ hidle hidle' hshunt hbus hshuntLsb hbusLsb hr =>
    sameChannel_of_exec_process hidle hidle' hshunt hbus hshuntLsb hbusLsb hr, fun ig1 ig2 s t u c hidle h1 h2 => ?_⟩
  obtain ⟨-, hidle', hraw, hcal⟩ := exec_process_idle hidle h1
  exact sameChannel_of_exec_process hidle hidle' (by rw [hraw]) (by rw [hraw]) (by rw [hcal])
    (by rw [hcal]) (by rw [hcal]) h1 h2

end Sys2Proof.Machine
end

section
/-! Host accesses: what a host write does while the block is busy and while it is not, the dispatch of a command word,
and the word a host read returns (44_host_access.md). -/

namespace Sys2Proof.Machine

open Sys2Proof

/-! ## While busy -/

/-- A busy block adds the record of a host write and ignores it. -/
theorem hostWrites_busy {s : State} (hbusy : s.busy = true) (i : HostIndex) (d : Word64) : HostWrites s i d s := by
  rw [HostWrites, execHwr_eq, if_pos hbusy]
  rfl

/-- Settles O31: a command word is a host write to index 0x00. -/
theorem busyBlockIgnoresWrites : Obligations.BusyBlockIgnoresWrites := by
  intro s hbusy
  refine ⟨hostWrites_busy hbusy, fun ig => ?configure, fun ig => ?fetch, fun ig => ?process, fun w => ?command⟩
  case configure => rw [exec_configure_eq, if_pos hbusy]; rfl
  case fetch => rw [exec_fetch_eq, if_pos hbusy]; rfl
  case process => rw [exec_process_eq, if_pos hbusy]; rfl
  case command => rw [runCommand_eq_exec_hwr]; exact hostWrites_busy hbusy 0 w

/-! ## The history

What a write does rests on no history, and adds nothing to it: the record is the access's. -/

theorem writeReg_withHistory (r : HostReg) (d : Word64) (s : State) (h : List HistEvent) :
    writeReg r d { s with history := h } = { writeReg r d s with history := h } := by
  cases r <;> rfl

theorem dispatchCommand_withHistory (code : BitVec 4) (s : State) (h : List HistEvent) :
    dispatchCommand code { s with history := h } = { dispatchCommand code s with history := h } := by
  simp only [dispatchCommand, startFetch]
  split_ifs <;> rfl

theorem hostWrite_withHistory (i : HostIndex) (d : Word64) (s : State) (h : List HistEvent) :
    hostWrite i d { s with history := h } = { hostWrite i d s with history := h } := by
  simp only [hostWrite_eq]
  split_ifs
  · exact dispatchCommand_withHistory (commandCode d) s h
  · exact writeReg_withHistory (hostReg i) d s h

/-! ## While idle -/

/-- An idle block does what the write says. -/
theorem hostWrites_idle {s : State} (hidle : s.busy = false) (i : HostIndex) (d : Word64) :
    HostWrites s i d (hostWrite i d s) := by
  rw [HostWrites, execHwr_eq, hidle, if_neg Bool.false_ne_true, State.record, hostWrite_withHistory]

/-- Any index but 0x00 is that of a register. -/
theorem hostWrites_register {s : State} (hidle : s.busy = false) (d : Word64) {i : HostIndex} (hi : i ≠ 0) :
    HostWrites s i d (writeReg (hostReg i) d s) := by
  have hwrite := hostWrites_idle hidle i d
  rwa [hostWrite_eq, if_neg (mt (hostReg_eq_cmd_iff i).1 hi)] at hwrite

/-- Index 0x00 is that of the command port. -/
theorem hostWrites_command {s : State} (hidle : s.busy = false) (d : Word64) :
    HostWrites s 0 d (dispatchCommand (commandCode d) s) := by
  have hwrite := hostWrites_idle hidle 0 d
  rwa [hostWrite_eq, if_pos ((hostReg_eq_cmd_iff 0).2 rfl)] at hwrite

/-- The registers that a host write changes: the controls (44_host_access.md R240). -/
def HostReg.isControl : HostReg → Bool
  | .timeout | .cfgRst | .cfgEn1 | .cfgEn2 | .cfgEn3 | .cfgAvg | .cfgVbusct | .cfgVshct | .cfgMode | .shuntLsb
  | .busLsb | .rshunt _ => true
  | _ => false

theorem writeReg_of_not_isControl {r : HostReg} (h : r.isControl = false) (d : Word64) (s : State) :
    writeReg r d s = s := by
  revert h; cases r <;> simp [HostReg.isControl, writeReg]

/-- Every index but 0x00 and those of the controls. -/
theorem hostReg_not_isControl_of_not_mem :
    ∀ i : HostIndex, i ∉ [0x00#6, 0x02#6, 0x04#6, 0x05#6, 0x06#6, 0x07#6, 0x08#6, 0x09#6, 0x0A#6, 0x0B#6, 0x0C#6,
      0x0D#6, 0x18#6, 0x19#6, 0x1A#6] → (hostReg i).isControl = false := by
  decide

/-- Settles O32: each index has its register, and the low bits that the register takes are a slice of the word. -/
theorem hostWriteWhenIdle : Obligations.HostWriteWhenIdle := by
  intro s d hidle
  have hwrite (i : HostIndex) (hi : i ≠ 0 := by decide) := hostWrites_register hidle d hi
  have hlow {n : Nat} (hn : n ≤ 64) : d.extractLsb' 0 n = d.setWidth n := (BitVec.setWidth_eq_extractLsb' hn).symm
  rw [hlow (n := 32) (by decide), hlow (n := 1) (by decide), hlow (n := 3) (by decide)]
  refine ⟨(runCommand_eq_exec_hwr d s).symm, hwrite 0x02, hwrite 0x04, hwrite 0x05, hwrite 0x06, hwrite 0x07,
    hwrite 0x08, hwrite 0x09, hwrite 0x0A, hwrite 0x0B, hwrite 0x0C, hwrite 0x0D, hwrite 0x18, hwrite 0x19, hwrite 0x1A,
    fun i hi => ?other⟩
  case other =>
    have hkeep := hwrite i (List.ne_of_not_mem_cons hi)
    rwa [writeReg_of_not_isControl (hostReg_not_isControl_of_not_mem i hi)] at hkeep

theorem dispatchCommand_fetch (s : State) : dispatchCommand 0x2#4 s = startFetch s := rfl

/-- Settles O33: the code of the word selects the branch of the dispatch. -/
theorem commandWriteDispatches : Obligations.CommandWriteDispatches := by
  intro s d hidle code
  have hwrite : HostWrites s 0 d (dispatchCommand code s) := hostWrites_command hidle d
  refine ⟨fun hcode => ?configure, fun hcode hconf => ?fetch, fun hcode hconf => ?refused, fun hcode => ?process,
    fun hcode => ?bad⟩
  case configure => rwa [hcode] at hwrite
  case fetch => rwa [hcode, dispatchCommand_fetch, startFetch, if_pos hconf] at hwrite
  case refused => rwa [hcode, dispatchCommand_fetch, startFetch, hconf, if_neg Bool.false_ne_true] at hwrite
  case process => rwa [hcode] at hwrite
  case bad =>
    simp only [List.mem_cons, List.not_mem_nil, or_false, not_or] at hcode
    obtain ⟨h1, h2, h3⟩ := hcode
    rwa [dispatchCommand, if_neg h1, if_neg h2, if_neg h3] at hwrite

/-! ## Reads -/

theorem hostReads (s : State) (i : HostIndex) : HostReads s i (readReg (hostReg i) s) := rfl

/-- A count has 13 bits, so the host reads it as it is. -/
theorem countWord_decodeCount (raw : Word16) : countWord (decodeCount raw) = BitVec.ofInt 64 (decodeCount raw) := by
  obtain ⟨hlo, hhi⟩ := decodeCount_bounds raw
  apply BitVec.eq_of_toInt_eq
  rw [countWord, BitVec.toInt_signExtend_of_le (by decide),
    BitVec.toInt_ofInt_eq_self (by decide) (by omega) (by omega),
    BitVec.toInt_ofInt_eq_self (by decide) (by omega) (by omega)]

/-- The reserved indices, and that of `CMD`. -/
theorem hostReg_eq_cmd_or_reserved :
    ∀ i ∈ [0x00#6, 0x0F#6, 0x16#6, 0x17#6, 0x1B#6, 0x1C#6, 0x1D#6, 0x1E#6, 0x1F#6, 0x23#6, 0x27#6, 0x2B#6, 0x2F#6,
      0x33#6, 0x37#6, 0x3B#6, 0x3C#6, 0x3D#6, 0x3E#6, 0x3F#6], hostReg i = .cmd ∨ hostReg i = .reserved := by
  decide

/-- `CMD` and a reserved index hold no value. -/
theorem readReg_hostReg_eq_zero {i : HostIndex} (h : hostReg i = .cmd ∨ hostReg i = .reserved) (s : State) :
    readReg (hostReg i) s = 0 := by
  rcases h with h | h <;> rw [h] <;> rfl

/-- Settles O35: each index has its register, whose value is zero-extended, or for a count sign-extended. -/
theorem hostReadReturns : Obligations.HostReadReturns := by
  intro s
  have hread := hostReads s
  simp only [BitVec.ofNat_toNat, ← countWord_decodeCount]
  refine ⟨hread 0x01, hread 0x02, hread 0x03, hread 0x04, hread 0x05, hread 0x06, hread 0x07, hread 0x08, hread 0x09,
    hread 0x0A, hread 0x0B, hread 0x0C, hread 0x0D, hread 0x0E, hread 0x10, hread 0x11, hread 0x12, hread 0x13,
    hread 0x14, hread 0x15, hread 0x18, hread 0x19, hread 0x1A, hread 0x20, hread 0x21, hread 0x22, hread 0x24,
    hread 0x25, hread 0x26, hread 0x28, hread 0x29, hread 0x2A, hread 0x2C, hread 0x2D, hread 0x2E, hread 0x30,
    hread 0x31, hread 0x32, hread 0x34, hread 0x35, hread 0x36, hread 0x38, hread 0x39, hread 0x3A, fun i hi => ?zero⟩
  case zero =>
    rw [← readReg_hostReg_eq_zero (hostReg_eq_cmd_or_reserved i hi) s]
    exact hread i

end Sys2Proof.Machine
end

section
/-! Nothing faults and nothing is refused: every operation and every step answers a next state (60_exceptions.md
R281). -/

namespace Sys2Proof.Machine

open Sys2Proof

/-- The configuration write: answered in its phase, no step in another. -/
theorem exec_wrregConfig_next (s : State) : ∃ t, exec .wrregConfig s = .next t := by
  obtain ⟨hconfig, -, -⟩ := otherPhaseHasNoStep s
  by_cases hs : s.seq = .cfgWr
  · exact ⟨_, exec_wrregConfig_eq hs⟩
  · exact ⟨s, hconfig hs⟩

/-- The poll: failed or answered with a word in its phase, no step in another. -/
theorem exec_rdregMasken_next (s : State) : ∃ t, exec .rdregMasken s = .next t := by
  obtain ⟨-, hpoll, -⟩ := otherPhaseHasNoStep s
  by_cases hs : s.seq = .pollRd
  · cases hf : s.busIn.fail with
    | true => exact ⟨_, exec_rdregMasken_fail hs hf⟩
    | false => exact ⟨_, exec_rdregMasken_data hs hf⟩
  · exact ⟨s, hpoll hs⟩

/-- An operation answers a next state. -/
theorem exec_next (i : Instr) (s : State) : ∃ t, exec i s = .next t := by
  cases i with
  | configure ignored => exact ⟨_, exec_configure_eq ignored s⟩
  | fetch ignored => exact ⟨_, exec_fetch_eq ignored s⟩
  | process ignored => exact ⟨_, exec_process_eq ignored s⟩
  | hwr index data => exact ⟨_, execHwr_eq index data s⟩
  | hrd index => exact ⟨_, hostReads s index⟩
  | wrregConfig => exact exec_wrregConfig_next s
  | rdregShunt0 => exact ⟨_, exec_dataReadInstr 0 s⟩
  | rdregBus0 => exact ⟨_, exec_dataReadInstr 1 s⟩
  | rdregShunt1 => exact ⟨_, exec_dataReadInstr 2 s⟩
  | rdregBus1 => exact ⟨_, exec_dataReadInstr 3 s⟩
  | rdregShunt2 => exact ⟨_, exec_dataReadInstr 4 s⟩
  | rdregBus2 => exact ⟨_, exec_dataReadInstr 5 s⟩
  | rdregMasken => exact exec_rdregMasken_next s

/-- Settles O6: a bus transaction has its phase's answer or no step, every other operation one answer, and a step is
the next event, run. -/
theorem stepAlwaysAnswersNextState : Obligations.StepAlwaysAnswersNextState :=
  ⟨exec_next, fun s => runEvent_next (nextEvent s).1 (nextEvent s).2⟩

end Sys2Proof.Machine
end

section
/-! The reset input and the tick: what each makes of any state, whatever the phase (70_reset_and_hazards.md). -/

namespace Sys2Proof.Machine

open Sys2Proof

/-- The block is that of the state after reset; the inputs, the environment and the record of the run stay
(70_reset_and_hazards.md R300 to R302; entry 8). -/
theorem runEvent_rst (s : State) :
    runEvent .rst s = .next { State.reset with
      busIn := s.busIn, wallclock := s.wallclock, inbox := s.inbox, draws := s.draws, history := s.history } :=
  rfl

/-- `NOW` is a 64-bit counter: the tick at 2^64 - 1 takes it to 0 (70_reset_and_hazards.md R320; entry 10). -/
theorem runEvent_tick (s : State) :
    runEvent .tick s = .next { s with now := s.now + 1, history := .tick :: s.history } :=
  rfl

/-- Settles O9: the step takes the event and runs it on what is left of the inbox. -/
theorem resetInputResetsTheBlock : Obligations.ResetInputResetsTheBlock := by
  intro s rest hin
  rw [step_cons s .rst rest hin, runEvent_rst]

/-- Settles O46: the step takes the event and runs it on what is left of the inbox. -/
theorem tickAddsOne : Obligations.TickAddsOne := by
  intro s rest hin
  rw [step_cons s .tick rest hin, runEvent_tick]

end Sys2Proof.Machine
end
